-- ==== Sys2Proof/Word.lean ====
section
/-! DEFINITION. The word types of TD: 32-bit CSR words, the bytes of a byte-addressed bus, probabilities. -/

namespace Sys2Proof

/-- A word of the CSR block (10_state.md R30): 32 bits, bit 0 the least significant (R13). -/
abbrev Word := BitVec 32

/-- One byte lane of a byte-addressed host bus (20_memory.md R65). -/
abbrev Byte := BitVec 8

/-- A probability: an opaque 8-bit value TD copies from a table to the bool decoder port
(00_scope.md R10 `PROB_W`). -/
abbrev Prob := BitVec 8

end Sys2Proof
end

