-- ==== Sys2Proof/Syntax.lean ====
section
/-! DEFINITION. The instructions of TD: one constructor of `Instr` per row of spec/opcode_table.json,
the token alphabet, the CSR names, and the token statements of the stream notation. -/

namespace Sys2Proof

/-- The token alphabet (30_encoding.md R92). The type has exactly the twelve tokens; the codes
12 to 15 of the 4-bit TOKEN register spell no token and cannot be held. -/
inductive Token
  | zero | one | two | three | four | cat1 | cat2 | cat3 | cat4 | cat5 | cat6 | eob
deriving DecidableEq, Repr, Inhabited

/-- The tokens `HigherToken` can return (00_scope.md R12): TWO to CATEGORY6. -/
inductive HigherTok
  | two | three | four | cat1 | cat2 | cat3 | cat4 | cat5 | cat6
deriving DecidableEq, Repr, Inhabited

/-- The eight words of the CSR block, in the order of their offsets (10_state.md R30 to R38). -/
inductive CsrReg
  | ctrl | status | cfg | blk0 | blkpos | edge | count | finfo
deriving DecidableEq, Repr

/-- The instructions of TD, in the order of spec/opcode_table.json: host commands (format HC),
tokens (format TK), internal operations (format OP) (30_encoding.md R90).

The operands that a token has in the stream, its extension bits and its sign, are not fields of the
token's constructor: the token is known once its opcode bits are read, its extension bits are read
afterwards by `READ_CAT` (R96, R121) and its sign by `DEQUANT_SIGN` (R98, R165), each through
`BoolRead`. A token together with its operands is a `TokenStmt` (R110). -/
inductive Instr
  /-- START: the command word 0x00000001 (R190). -/
  | start
  /-- SRST: the command words 0x00000002 and 0x00000003; bit 0, START, is don't-care (R91, R197). -/
  | srst (startBit : Bool)
  /-- CSRRD off: an aligned 32-bit read of one of the eight words (R198). -/
  | csrrd (r : CsrReg)
  /-- CSRWR off, v: an aligned 32-bit write of one of the eight words (R199). -/
  | csrwr (r : CsrReg) (v : Word)
  | eob | zero | one | two | three | four | cat1 | cat2 | cat3 | cat4 | cat5 | cat6
  | blockSetup | initCtx | bandCtxSelect | eobTest | zeroTest | zeroAdvance | oneTest | higherToken
  /-- READ_CAT(pv, N): the sequence of probabilities is the operand, N is its length (R121). -/
  | readCat (pv : List Prob)
  | dequantSign | rangeClamp | writeCache | ctxUpdate | edgeWrite | blockFinish
deriving DecidableEq, Repr

/-- One token statement of the stream notation (30_encoding.md R110): the token, its extension value
(0 where it has none) and its sign bit (false where it has none; true is `-`). -/
structure TokenStmt where
  tok : Token
  ext : Nat
  neg : Bool
deriving DecidableEq, Repr

end Sys2Proof
end

