-- ==== Sys2Proof/Config.lean ====
section
/-! DEFINITION. What the platform fixes: the sizes of TD, and the collaborators and tables of
00_scope.md R11 and R12 as free values (opaque constants without a body). -/

namespace Sys2Proof

/-- The record of node probabilities of one context (00_scope.md R11, table `PROB`). -/
structure NodeProbs where
  eob : Prob
  zero : Prob
  one : Prob
  pivot : Prob
deriving DecidableEq, Repr, Inhabited

/-- What `HigherToken(pivot)` does for one pivot (00_scope.md R12): zero or more bool reads, each with a
probability, each bit choosing how to go on, and a token in the end. "Deterministic given the bits
read; every call terminates" is the shape of the type; the largest depth over the 256 pivots is a
bound `HT_MAX` of the number of reads. -/
inductive HTree
  | leaf (t : HigherTok)
  | node (p : Prob) (on0 on1 : HTree)
deriving DecidableEq, Repr, Inhabited

/-- The number of bool reads the longest call makes. -/
def HTree.depth : HTree → Nat
  | .leaf _ => 0
  | .node _ a b => max a.depth b.depth + 1

/-- The result of `RangeLimits`: `lo = -below`, `hi = above`, so the law `lo ≤ 0 ≤ hi` (R12) holds by the
shape of the type. -/
structure Limits where
  below : Nat
  above : Nat
deriving DecidableEq, Repr, Inhabited

namespace Config

/-- `N_BANDS` (R10). -/
abbrev nBands : Nat := 6
/-- `N_CTX` (R10). -/
abbrev nCtx : Nat := 6
/-- `COEF_SLOTS` and `TC_SLOTS` (R10). -/
abbrev coefSlots : Nat := 1024
/-- Elements of the counter space `CNT`: 4·2·2·6·6·4 (10_state.md R40). -/
abbrev cntSlots : Nat := 2304
/-- Elements of the counter space `EOBBR`: 4·2·2·6·6 (10_state.md R40). -/
abbrev eobbrSlots : Nat := 576

/-- `BoolDec(bd, p)` (R12): total, a function of the decoder state and the probability. The decoder state
is opaque to TD (10_state.md R39); a number names it. -/
opaque boolDec : Nat → Prob → Bool × Nat
/-- `InitCtx(tx, A, L)` (R12), a context below `N_CTX`. -/
opaque initCtx : BitVec 2 → List Bool → List Bool → Fin nCtx
/-- `CtxFor(e0, e1)` (R12), a context below `N_CTX`. -/
opaque ctxFor : BitVec 3 → BitVec 3 → Fin nCtx
/-- `HigherToken(pivot)` (R12). -/
opaque higherToken : Prob → HTree
/-- `EnergyClass(tok)` (R12), an unsigned 3-bit value. -/
opaque energyClass : Token → BitVec 3
/-- `RangeLimits(bd)` (R12). -/
opaque rangeLimits : BitVec 4 → Limits

/-- The table `SCAN(id, tx, i)` (R11). -/
opaque scan : BitVec 4 → BitVec 2 → Nat → BitVec 10
/-- The table `NB(id, tx, c, j)` (R11); the last argument is j. -/
opaque nb : BitVec 4 → BitVec 2 → Nat → Bool → BitVec 10
/-- The table `BAND(tx, i)` (R11), a band below `N_BANDS`. -/
opaque band : BitVec 2 → Nat → Fin nBands
/-- The table `PROB(tx, ptype, ref, band, ctx)` (R11). -/
opaque prob : BitVec 2 → Bool → Bool → BitVec 3 → BitVec 3 → NodeProbs
/-- The table `CATP(k, i)`, k = 1..5 (R11). -/
opaque catp : Nat → Nat → Prob
/-- The table `CATP6(bd, i)` (R11). -/
opaque catp6 : BitVec 4 → Nat → Prob
/-- The table `DQ(seg, plane, j)` (R11); the last argument is j. -/
opaque dq : BitVec 3 → BitVec 2 → Bool → BitVec 16

/-- The bool decoder state after a reset has abandoned a block decode
(93_implementation_defined.md U7): a fresh free value each time. -/
opaque abandonedStream : Nat → Nat

end Config
end Sys2Proof
end

