-- ==== Sys2Proof/WellFormed.lean ====
section
/-! DEFINITION. Which terms of `Instr` are instructions of TD. -/

namespace Sys2Proof

/-- Why a term is no instruction. -/
inductive IllFormed
  /-- A CSRWR of CTRL whose word is a command: that word is the instruction START or SRST itself (R91). -/
  | commandWord
  /-- A READ_CAT of more than 18 bits, which EXT cannot hold (R121). -/
  | vectorTooLong
deriving DecidableEq, Repr

/-- The longest sequence READ_CAT can read: EXT has 18 bits (10_state.md R20). -/
abbrev maxVector : Nat := 18

/-- The check of one instruction: `none` where it is well-formed. The other constructors' arguments are
in range by their types. -/
def Instr.illFormed : Instr → Option IllFormed
  | .csrwr .ctrl v => if v = 1 ∨ v = 2 ∨ v = 3 then some .commandWord else none
  | .readCat pv => if maxVector < pv.length then some .vectorTooLong else none
  | .csrwr .status _ | .csrwr .cfg _ | .csrwr .blk0 _ | .csrwr .blkpos _ | .csrwr .edge _
  | .csrwr .count _ | .csrwr .finfo _ | .csrrd _ | .start | .srst _
  | .eob | .zero | .one | .two | .three | .four | .cat1 | .cat2 | .cat3 | .cat4 | .cat5 | .cat6
  | .blockSetup | .initCtx | .bandCtxSelect | .eobTest | .zeroTest | .zeroAdvance | .oneTest
  | .higherToken | .dequantSign | .rangeClamp | .writeCache | .ctxUpdate | .edgeWrite
  | .blockFinish => none

/-- `i` is an instruction of TD. -/
abbrev WellFormed (i : Instr) : Prop := i.illFormed = none

end Sys2Proof
end

