-- ==== Sys2Proof/Decode.lean ====
section
/-! DEFINITION. The encodings of TD (30_encoding.md) and their decoder: command words and bus accesses
(format HC), the bits of a token (format TK), the state codes (format OP), the token statements and
the grammar of one block's stream; and after the decoder the encoder. -/

namespace Sys2Proof

/-! ## Constants of the encoding -/

/-- The bit value that means end of block (R10 `EOB_IND`; 92_eei_decisions.md D23). -/
def eobInd : Bool := false
/-- The bit value that means ZERO (R10 `ZERO_IND`). -/
def zeroInd : Bool := false
/-- The bit value that means ONE (R10 `ONE_IND`). -/
def oneInd : Bool := false

/-- The token codes (R92). -/
def Token.code : Token → BitVec 4
  | .zero => 0 | .one => 1 | .two => 2 | .three => 3 | .four => 4
  | .cat1 => 5 | .cat2 => 6 | .cat3 => 7 | .cat4 => 8 | .cat5 => 9 | .cat6 => 10 | .eob => 11

/-- The token a `HigherToken` result is. -/
def HigherTok.token : HigherTok → Token
  | .two => .two | .three => .three | .four => .four
  | .cat1 => .cat1 | .cat2 => .cat2 | .cat3 => .cat3 | .cat4 => .cat4 | .cat5 => .cat5 | .cat6 => .cat6

/-- The instruction whose rule a token executes (R149 to R160). -/
def Token.instr : Token → Instr
  | .zero => .zero | .one => .one | .two => .two | .three => .three | .four => .four
  | .cat1 => .cat1 | .cat2 => .cat2 | .cat3 => .cat3 | .cat4 => .cat4 | .cat5 => .cat5
  | .cat6 => .cat6 | .eob => .eob

/-- `CAT_BITS(k)`, k = 1..5: the extension bits of CATEGORYk (R10). -/
def catBits : Nat → Nat
  | 1 => 1 | 2 => 2 | 3 => 3 | 4 => 4 | 5 => 5 | _ => 0

/-- `CAT6_BITS(BD)`; none for a bit depth that gives CATEGORY6 no width (R10, R97). -/
def cat6Bits (bd : BitVec 4) : Option Nat :=
  if bd = 8 then some 14 else if bd = 10 then some 16 else if bd = 12 then some 18 else none

/-- `CAT_BASE(k)`, k = 1..6: the base offset of CATEGORYk (R10; 92_eei_decisions.md D19). -/
def catBase : Nat → Nat
  | 1 => 5 | 2 => 7 | 3 => 11 | 4 => 19 | 5 => 35 | 6 => 67 | _ => 0

/-- The number of extension bits of a token under a bit depth (R92). -/
def Token.extBits (bd : BitVec 4) : Token → Option Nat
  | .cat1 => some (catBits 1) | .cat2 => some (catBits 2) | .cat3 => some (catBits 3)
  | .cat4 => some (catBits 4) | .cat5 => some (catBits 5) | .cat6 => cat6Bits bd
  | .zero | .one | .two | .three | .four | .eob => some 0

/-- Whether a token carries a sign bit (R92). -/
def Token.signed : Token → Bool
  | .zero | .eob => false
  | .one | .two | .three | .four | .cat1 | .cat2 | .cat3 | .cat4 | .cat5 | .cat6 => true

/-! ## What the decoder is given and why it refuses -/

/-- One thing TD can be given to decode, by format and slot (R90, R93). -/
inductive Fetched
  /-- A host access of `size` bytes at byte offset `off` of the CSR block; `data` is meaningful for a write. -/
  | bus (wr : Bool) (size off : Nat) (data : Word)
  /-- The bits of the stream where R93 puts an end-of-block test. -/
  | eobSlot (bits : List Bool)
  /-- The bits of the stream where a token follows. -/
  | tokenSlot (bits : List Bool)
  /-- A code of the sequencer state register ST. -/
  | op (code : BitVec 4)
deriving DecidableEq, Repr

/-- Why the decoder gives no instruction. -/
inductive DecodeError
  /-- Not an aligned 32-bit access of an offset below 0x20 (20_memory.md R66). -/
  | csrAccess
  /-- A state in which no operation runs: IDLE, DONE, FATAL (10_state.md R25). -/
  | noOperation
  /-- The ST codes 13 and 14, never taken (10_state.md R25). -/
  | reservedState
  /-- The end-of-block test bit says that a token follows: no token is spelled by it alone (R93). -/
  | tokenFollows
  /-- The bits given end inside a token. -/
  | truncated
deriving DecidableEq, Repr

/-! ## The decoder -/

/-- Format HC: the command of a word written to CTRL; none where it holds no command (R91). -/
def decodeCtrl (w : Word) : Option Instr :=
  if w.extractLsb' 2 30 ≠ 0 then none
  else if w.getLsbD 1 then some (.srst (w.getLsbD 0))
  else if w.getLsbD 0 then some .start
  else none

/-- The register at a byte offset (10_state.md R30 to R38). -/
def csrAt (off : Nat) : Option CsrReg :=
  if off = 0x00 then some .ctrl else if off = 0x04 then some .status
  else if off = 0x08 then some .cfg else if off = 0x0C then some .blk0
  else if off = 0x10 then some .blkpos else if off = 0x14 then some .edge
  else if off = 0x18 then some .count else if off = 0x1C then some .finfo
  else none

/-- A host access: only an aligned 32-bit access of one of the eight words is defined (R30, R66). A
write to CTRL whose word is a command is that command. -/
def decodeBus (wr : Bool) (size off : Nat) (data : Word) : Except DecodeError Instr :=
  if size ≠ 4 then .error .csrAccess
  else match csrAt off with
    | none => .error .csrAccess
    | some r =>
      if wr then
        match r with
        | .ctrl => .ok ((decodeCtrl data).getD (.csrwr .ctrl data))
        | .status | .cfg | .blk0 | .blkpos | .edge | .count | .finfo => .ok (.csrwr r data)
      else .ok (.csrrd r)

/-- Format TK: the token that the bits spell, most significant (first read) bit first, and the bits that
are left: its extension bits and sign (R94; the bits after the one test are the reference tree). -/
def decodeToken : List Bool → Option (Token × List Bool)
  | false :: r => some (.zero, r)
  | true :: false :: r => some (.one, r)
  | true :: true :: false :: false :: r => some (.two, r)
  | true :: true :: false :: true :: false :: r => some (.three, r)
  | true :: true :: false :: true :: true :: r => some (.four, r)
  | true :: true :: true :: false :: false :: r => some (.cat1, r)
  | true :: true :: true :: false :: true :: r => some (.cat2, r)
  | true :: true :: true :: true :: false :: false :: r => some (.cat3, r)
  | true :: true :: true :: true :: false :: true :: r => some (.cat4, r)
  | true :: true :: true :: true :: true :: false :: r => some (.cat5, r)
  | true :: true :: true :: true :: true :: true :: r => some (.cat6, r)
  | _ => none

/-- Format OP: the operation of a state code (R103). Code 8, CATX, is READ_CAT's row of the table; which
token calls it, and so with which vector, is in the TOKEN register (`Machine.sequencerInstr`). -/
def decodeOp (code : BitVec 4) : Except DecodeError Instr :=
  match code.toNat with
  | 1 => .ok .blockSetup
  | 2 => .ok .bandCtxSelect
  | 3 => .ok .eobTest
  | 4 => .ok .zeroTest
  | 5 => .ok .zeroAdvance
  | 6 => .ok .oneTest
  | 7 => .ok .higherToken
  | 8 => .ok (.readCat [])
  | 9 => .ok .dequantSign
  | 10 => .ok .writeCache
  | 11 => .ok .edgeWrite
  | 13 | 14 => .error .reservedState
  | _ => .error .noOperation

/-- The decoder, total on everything it can be given. -/
def decode : Fetched → Except DecodeError Instr
  | .bus wr size off data => decodeBus wr size off data
  | .eobSlot [] => .error .truncated
  | .eobSlot (b :: _) => if b = eobInd then .ok .eob else .error .tokenFollows
  | .tokenSlot bits =>
    match decodeToken bits with
    | some (t, _) => .ok t.instr
    | none => .error .truncated
  | .op code => decodeOp code

/-! ## The words of spec/opcode_table.json -/

/-- The low `n` bits of `w`, most significant first. -/
def bitsMsb : Nat → Nat → List Bool
  | 0, _ => []
  | n + 1, w => (w / 2 ^ n % 2 == 1) :: bitsMsb n w

/-- The number that bits spell, most significant first (R96). -/
def ofBitsMsb (bits : List Bool) : Nat :=
  bits.foldl (fun e b => 2 * e + b.toNat) 0

/-- The token rows' words in the table's numbering: the opcode bits read as one number, and how many
they are (`match` and `mask` of spec/opcode_table.json). -/
def tokenWords : List (Nat × Nat) :=
  [(2, 2), (12, 4), (26, 5), (27, 5), (28, 5), (29, 5), (60, 6), (61, 6), (62, 6), (63, 6)]

/-- How a word of the opcode table stands before the decoder. The formats share words (an 8-bit word 2 is
ONE's opcode and SELECT's code, a word 0 is EOB's bit and ZERO's): a word is taken as the first row of
the table that has it, and otherwise as a state code with the field bit the table's reader gives that
row, and otherwise as CSRRD's and CSRWR's six bits (a bus strobe and a byte offset). -/
def tableSlot (nbits w : Nat) : Option Fetched :=
  if nbits = 32 then some (.bus true 4 0 (BitVec.ofNat 32 w))
  else if nbits = 8 ∧ w = 0 then some (.eobSlot [eobInd])
  else match if nbits = 8 then tokenWords.find? (fun r => r.1 == w) else none with
    | some (v, len) => some (.tokenSlot (bitsMsb len v))
    | none =>
      if w < 12 ∨ w = w % 16 + 2 ^ (w % 16) then some (.op (BitVec.ofNat 4 w))
      else if nbits = 8 ∧ w < 64 then some (.bus (w / 32 == 1) 4 (w % 32) 0)
      else none

/-- The instruction the decoder reads from a word of the opcode table. -/
def decodeTableWord (nbits w : Nat) : Option Instr :=
  match tableSlot nbits w with
  | none => none
  | some f =>
    match decode f with
    | .ok i => if nbits = 32 ∧ i = .csrwr .ctrl (BitVec.ofNat 32 w) then none else some i
    | .error _ => none

/-! ## Token statements and the grammar of one block's stream (R93, R110 to R112) -/

/-- A statement is legal under a bit depth: its extension value fits, and an operand it does not have
is 0 (R92, R110). -/
def TokenStmt.wf (bd : BitVec 4) (s : TokenStmt) : Bool :=
  match s.tok.extBits bd with
  | none => false
  | some w => decide (s.ext < 2 ^ w) && (s.tok.signed || !s.neg)

/-- Reads `n` bits, if there are as many. -/
def takeBits : Nat → List Bool → Option (List Bool × List Bool)
  | 0, r => some ([], r)
  | _ + 1, [] => none
  | n + 1, b :: r => (takeBits n r).map (fun q => (b :: q.1, q.2))

/-- One token with its operands from the token slot: the opcode bits, the extension bits, the sign
(R94, R96 to R98), and the bits that follow. -/
def decodeStmt (bd : BitVec 4) (bits : List Bool) : Option (TokenStmt × List Bool) :=
  match decodeToken bits with
  | none => none
  | some (t, r) =>
    match t.extBits bd with
    | none => none
    | some w =>
      match takeBits w r with
      | none => none
      | some (x, r) =>
        if t.signed then
          match r with
          | [] => none
          | s :: r => some (⟨t, ofBitsMsb x, s⟩, r)
        else some (⟨t, ofBitsMsb x, false⟩, r)

/-- The tokens of one block (R93): `left` positions are left, `test` says that an end-of-block test is
made before the next token. No symbol is read once no position is left. -/
def decodeBlock (bd : BitVec 4) : Nat → Bool → List Bool → Option (List TokenStmt × List Bool)
  | 0, _, bits => some ([], bits)
  | left + 1, test, bits =>
    match if test then
        match bits with
        | [] => none
        | b :: r => some (b = eobInd, r)
      else some (false, bits) with
    | none => none
    | some (true, r) => some ([⟨.eob, 0, false⟩], r)
    | some (false, r) =>
      match decodeStmt bd r with
      | none => none
      | some (s, r) => (decodeBlock bd left (s.tok ≠ .zero) r).map (fun q => (s :: q.1, q.2))

/-! ## The encoder -/

/-- The opcode bits of a token in the token slot, in read order (R94). EOB has none there: it is the
end-of-block test bit. -/
def Token.opcodeBits : Token → List Bool
  | .zero => [false]
  | .one => [true, false]
  | .two => [true, true, false, false]
  | .three => [true, true, false, true, false]
  | .four => [true, true, false, true, true]
  | .cat1 => [true, true, true, false, false]
  | .cat2 => [true, true, true, false, true]
  | .cat3 => [true, true, true, true, false, false]
  | .cat4 => [true, true, true, true, false, true]
  | .cat5 => [true, true, true, true, true, false]
  | .cat6 => [true, true, true, true, true, true]
  | .eob => []

/-- The byte offset of a CSR word (10_state.md R31 to R38). -/
def CsrReg.offset : CsrReg → Nat
  | .ctrl => 0x00 | .status => 0x04 | .cfg => 0x08 | .blk0 => 0x0C
  | .blkpos => 0x10 | .edge => 0x14 | .count => 0x18 | .finfo => 0x1C

/-- The words of an instruction. An inlined sub-operation has no code of its own: its encoding is the
code of the state it runs in (spec/opcode_table.json; R103). -/
def encode : Instr → Fetched
  | .start => .bus true 4 0 0x00000001
  | .srst b => .bus true 4 0 (if b then 0x00000003 else 0x00000002)
  | .csrrd r => .bus false 4 r.offset 0
  | .csrwr r v => .bus true 4 r.offset v
  | .eob => .eobSlot [eobInd]
  | .zero => .tokenSlot (Token.opcodeBits .zero)
  | .one => .tokenSlot (Token.opcodeBits .one)
  | .two => .tokenSlot (Token.opcodeBits .two)
  | .three => .tokenSlot (Token.opcodeBits .three)
  | .four => .tokenSlot (Token.opcodeBits .four)
  | .cat1 => .tokenSlot (Token.opcodeBits .cat1)
  | .cat2 => .tokenSlot (Token.opcodeBits .cat2)
  | .cat3 => .tokenSlot (Token.opcodeBits .cat3)
  | .cat4 => .tokenSlot (Token.opcodeBits .cat4)
  | .cat5 => .tokenSlot (Token.opcodeBits .cat5)
  | .cat6 => .tokenSlot (Token.opcodeBits .cat6)
  | .blockSetup => .op 1
  | .initCtx => .op 1
  | .bandCtxSelect => .op 2
  | .eobTest => .op 3
  | .zeroTest => .op 4
  | .zeroAdvance => .op 5
  | .oneTest => .op 6
  | .higherToken => .op 7
  | .readCat _ => .op 8
  | .dequantSign => .op 9
  | .rangeClamp => .op 9
  | .writeCache => .op 10
  | .ctxUpdate => .op 5
  | .edgeWrite => .op 11
  | .blockFinish => .op 11

/-- The instruction has a word of its own: it is no sub-operation that runs inside another operation's
state, and no READ_CAT with a sequence (the sequence comes from the token that calls it, not from a
word). -/
def Instr.hasOwnWord : Instr → Bool
  | .initCtx | .rangeClamp | .ctxUpdate | .blockFinish => false
  | .readCat pv => pv.isEmpty
  | .start | .srst _ | .csrrd _ | .csrwr _ _
  | .eob | .zero | .one | .two | .three | .four | .cat1 | .cat2 | .cat3 | .cat4 | .cat5 | .cat6
  | .blockSetup | .bandCtxSelect | .eobTest | .zeroTest | .zeroAdvance | .oneTest | .higherToken
  | .dequantSign | .writeCache | .edgeWrite => true

/-- The bits of a statement in the token slot: opcode, extension most significant bit first, sign
(R94, R96, R98). -/
def TokenStmt.bits (bd : BitVec 4) (s : TokenStmt) : List Bool :=
  s.tok.opcodeBits ++ bitsMsb ((s.tok.extBits bd).getD 0) s.ext
    ++ (if s.tok.signed then [s.neg] else [])

/-- The bit script of a block's statements (R112): the end-of-block test bit is written where R93 puts a
test, that is before the first token and before a token that follows a value token. -/
def encodeBlock (bd : BitVec 4) : Bool → List TokenStmt → List Bool
  | _, [] => []
  | test, s :: r =>
    if s.tok = .eob then [eobInd]
    else (if test then [!eobInd] else []) ++ s.bits bd ++ encodeBlock bd (s.tok ≠ .zero) r

/-- The statements are the tokens of one whole block with `left` positions left (R93): EOB only where a
test is made, and nothing once no position is left. -/
def legalBlock (bd : BitVec 4) : Nat → Bool → List TokenStmt → Bool
  | 0, _, ss => ss.isEmpty
  | _ + 1, _, [] => false
  | left + 1, test, s :: r =>
    if s.tok = .eob then test && s.ext == 0 && !s.neg && r.isEmpty
    else s.wf bd && legalBlock bd left (s.tok ≠ .zero) r

/-- The pseudo-statement `COEF v` (R111): the value token of magnitude |v| with v's sign; `COEF 0` is
`ZERO`. -/
def coefStmt (v : Int) : TokenStmt :=
  let m := v.natAbs
  let neg := decide (v < 0)
  if m = 0 then ⟨.zero, 0, false⟩
  else if m = 1 then ⟨.one, 0, neg⟩
  else if m = 2 then ⟨.two, 0, neg⟩
  else if m = 3 then ⟨.three, 0, neg⟩
  else if m = 4 then ⟨.four, 0, neg⟩
  else if m < catBase 2 then ⟨.cat1, m - catBase 1, neg⟩
  else if m < catBase 3 then ⟨.cat2, m - catBase 2, neg⟩
  else if m < catBase 4 then ⟨.cat3, m - catBase 3, neg⟩
  else if m < catBase 5 then ⟨.cat4, m - catBase 4, neg⟩
  else if m < catBase 6 then ⟨.cat5, m - catBase 5, neg⟩
  else ⟨.cat6, m - catBase 6, neg⟩

/-- The pseudo-statement `ZRUN k` (R111). -/
def zrunStmts (k : Nat) : List TokenStmt := List.replicate k ⟨.zero, 0, false⟩

end Sys2Proof
end

