-- ==== Sys2Proof/Machine/State.lean ====
section
/-! DEFINITION. The state of TD as plain data, the reasons a step can stop, and the state after reset. -/

namespace Sys2Proof.Machine

/-- The sequencer states (10_state.md R25). The codes 13 and 14 are never taken, and the type has no
name for them. -/
inductive St
  | idle | setup | select | eobt | zerot | zadv | onet | htok | catx | dqs | wrc | edge | done | fatal
deriving DecidableEq, Repr

/-- A plane, PLANE ∈ 0, 1, 2 (00_scope.md R10 `N_PLANES`). -/
inductive Plane
  | p0 | p1 | p2
deriving DecidableEq, Repr

/-- One thing per plane. -/
structure PerPlane (α : Type) where
  p0 : α
  p1 : α
  p2 : α
deriving DecidableEq, Repr

/-- An element-addressed space as the elements that hold a value, by strictly rising index. An element
that is not listed holds *no value* (70_reset_and_hazards.md R242; 93_implementation_defined.md U6),
so no entry can equal what an unlisted element reads as. -/
abbrev Cells (α : Type) := List (Nat × α)

/-- One plane's above or left array: its length, `ABOVE_LEN(p)` or `LEFT_LEN(p)` (R10), and its flags
(20_memory.md R61). -/
structure FlagArray where
  len : Nat
  cells : Cells Bool
deriving DecidableEq, Repr

/-- The memory spaces TD writes (20_memory.md R60 to R62). -/
structure Memory where
  coef : PerPlane (Cells (BitVec 36))
  above : PerPlane FlagArray
  left : PerPlane FlagArray
  cnt : Cells (BitVec 32)
  eobbr : Cells (BitVec 32)
deriving DecidableEq, Repr

/-- The working registers x[0] to x[14], in their order, with the widths of 10_state.md R20. DQSEL and
HASNZ, one bit, are Booleans; TOKEN holds a token (its code is `Token.code`). -/
structure Regs where
  c : BitVec 11
  ctx : BitVec 3
  band : BitVec 3
  dqsel : Bool
  token : Token
  val : BitVec 19
  ext : BitVec 18
  biti : BitVec 5
  v : BitVec 35
  coefv : BitVec 36
  p : NodeProbs
  pos : BitVec 10
  hasnz : Bool
  maxeob : BitVec 11
  nunits : BitVec 4
deriving DecidableEq, Repr

/-- The stored fields of the CSR block (10_state.md R33 to R38). Each register keeps its defined bits
only: a reserved bit reads 0 and ignores writes. CTRL stores nothing (R31) and STATUS is computed from
ST and CLAMPED (R32). -/
structure Csrs where
  cfg : BitVec 6
  blk0 : BitVec 13
  blkpos : BitVec 32
  edge : BitVec 32
  count : BitVec 11
  fcode : BitVec 4
  fpos : BitVec 11
deriving DecidableEq, Repr

/-- The table entries that the host has loaded (00_scope.md R11; 10_state.md R40), by their arguments. An
entry that is not listed is the platform's own, the free value of that name in `Config`. -/
structure Tables where
  scan : List ((BitVec 4 × BitVec 2 × Nat) × BitVec 10)
  nb : List ((BitVec 4 × BitVec 2 × Nat × Bool) × BitVec 10)
  band : List ((BitVec 2 × Nat) × Fin Config.nBands)
  prob : List ((BitVec 2 × Bool × Bool × BitVec 3 × BitVec 3) × NodeProbs)
  catp : List ((Nat × Nat) × Prob)
  catp6 : List ((BitVec 4 × Nat) × Prob)
  dq : List ((BitVec 3 × BitVec 2 × Bool) × BitVec 16)
deriving DecidableEq, Repr

/-- What a ZERO token does to DQSEL: the open parameter `ZRUN_DQ` (R10; 92_eei_decisions.md D21). -/
inductive ZrunDq
  | keep | setFirst | setSecond
deriving DecidableEq, Repr

/-- When EOBBR increments: the open parameter `EOBBR_POLICY` (R10; 92_eei_decisions.md D22). -/
inductive EobbrPolicy
  | perEobTest | perPosition
deriving DecidableEq, Repr

/-- The byte order of the CSR words on a byte-addressed bus: the open parameter `CSR_BYTE_ORDER`
(20_memory.md R65; 92_eei_decisions.md D9). -/
inductive ByteOrder
  | little | big
deriving DecidableEq, Repr

/-- The open parameters of TD (00_scope.md R10) and the points at which the collaborators of R12 are known,
by their arguments. A point that is not listed is the free value of that name in `Config`. They are
state only so that the machine can be run on a platform written out as plain data; no step changes
them. -/
structure Params where
  zrunDq : ZrunDq
  eobbrPolicy : EobbrPolicy
  csrByteOrder : ByteOrder
  boolDec : List ((Nat × Prob) × (Bool × Nat))
  initCtx : List ((BitVec 2 × List Bool × List Bool) × Fin Config.nCtx)
  ctxFor : List ((BitVec 3 × BitVec 3) × Fin Config.nCtx)
  higherToken : List (Prob × HTree)
  energyClass : List (Token × BitVec 3)
  rangeLimits : List (BitVec 4 × Limits)
deriving DecidableEq, Repr

/-- A space the host reads and writes between block decodes (10_state.md R40). -/
inductive Store
  | coef (p : Plane) | above (p : Plane) | left (p : Plane) | cnt | eobbr
deriving DecidableEq, Repr

/-- The two sides of a block (20_memory.md R61). -/
inductive Side
  | above | left
deriving DecidableEq, Repr

/-- What the outside world can do to TD. -/
inductive Input
  /-- Nothing: the sequencer takes a step. -/
  | tick
  /-- The platform asserts the `rst` input (70_reset_and_hazards.md R240). -/
  | rst
  /-- A host access of `size` bytes at byte offset `off` of the CSR block (10_state.md R30). -/
  | bus (wr : Bool) (size off : Nat) (data : Word)
  /-- A 32-bit write of a byte-addressed bus: the lanes of addresses off, off + 1, off + 2, off + 3. -/
  | busLanes (off : Nat) (b0 b1 b2 b3 : Byte)
  /-- A 32-bit read of a byte-addressed bus: the lanes of addresses off to off + 3 are `State.rlanes`. -/
  | busLanesRead (off : Nat)
  /-- The host writes one element (R15, R40, R244). -/
  | storeWrite (sp : Store) (i : Nat) (v : Int)
  /-- The host reads one element (R40). -/
  | storeRead (sp : Store) (i : Nat)
  /-- The host writes one value to every element of a space: zeroing a coefficient buffer, clearing the
  counters, resetting the entropy context arrays (R244, R245, R249). -/
  | storeFill (sp : Store) (v : Int)
  /-- The host supplies a plane's above or left array of a length, none of its flags set yet
  (45_block_decode_and_host.md R192 "sized"). -/
  | supplyArray (side : Side) (p : Plane) (len : Nat)
  /-- The host puts tables in place (R244). -/
  | loadTables (t : Tables)
  /-- The host positions the bool decoder (10_state.md R39, R244). -/
  | positionStream (bd : Nat)
  /-- A test bench issues one operation by its word of the opcode table, as the operation vectors of
  95_test_vectors.md do. The hardware has no such port. -/
  | opWord (nbits w : Nat)
deriving DecidableEq, Repr

/-- The state of TD and of what stands around it. -/
structure State where
  /-- ST (10_state.md R25). -/
  st : St
  /-- A reset has been taken since power-up (70_reset_and_hazards.md R243). -/
  resetDone : Bool
  /-- The working registers (10_state.md R20). -/
  x : Regs
  /-- CLAMPED (10_state.md R26). -/
  clamped : Bool
  /-- The token cache TC (10_state.md R27). -/
  tc : Cells (BitVec 3)
  /-- The CSR block (10_state.md R30). -/
  csr : Csrs
  /-- COEF, ABOVE, LEFT, CNT, EOBBR (20_memory.md R60 to R62). -/
  mem : Memory
  /-- The bool decoder state `bd` (10_state.md R39), as an opaque name. -/
  bd : Nat
  /-- The tables the host has loaded (00_scope.md R11). -/
  tab : Tables
  /-- The open parameters and known points of the collaborators (00_scope.md R10, R12). -/
  par : Params
  /-- The word the last CSRRD returned to the host (45_block_decode_and_host.md R198). -/
  rdata : Word
  /-- The value the last host read of a space returned; none is *no value*. -/
  elem : Option Int
  /-- The model's own: what the outside world does next, oldest first. -/
  inputs : List Input
  /-- The model's own: how many free values of `Config.abandonedStream` have been drawn. -/
  draws : Nat
deriving DecidableEq, Repr

/-- The reasons the machine stops with a fault. -/
inductive Fault
  /-- Raised by the sequencer when it is to take a step in state FATAL with no host action pending: the
  block decode has ended in `FATAL(code)` at position `pos` and is never final (60_exceptions.md R214,
  R215). Safe: nothing is claimed to follow it, and a host's SRST or `rst` that is pending is run. -/
  | fatalStop (code : BitVec 4) (pos : BitVec 11)
deriving DecidableEq, Repr

/-- The host preconditions of START that can be false in the model (45_block_decode_and_host.md R192). All
but P8 are decided at START. -/
inductive Precond
  /-- P1: PLANE < 3. -/
  | p1
  /-- P3: the above slice lies inside the array. -/
  | p3
  /-- P4: the left slice lies inside the array. -/
  | p4
  /-- P5: every flag of the two slices holds a value. -/
  | p5
  /-- P6: the scan and neighbour tables are well-formed. -/
  | p6
  /-- P8: with statistics enabled, every counter the block can reach holds a value. Decided at the `INC` of
  each counter that the block reaches. -/
  | p8
deriving DecidableEq, Repr

/-- The reasons the model gives no meaning. -/
inductive Refusal
  /-- Raised by exec's arm of an instruction that has no meaning yet. Safe. -/
  | notModelled (mnemonic : String)
  /-- Raised by START while a host precondition is false, by an operation that needs a plane when
  PLANE = 3, and by the `INC` of a counter without a value: `refuse(PRECONDITION)` (R190, R192; U1, U6).
  Safe. -/
  | precondition (p : Precond)
  /-- Raised by CTX_UPDATE when a neighbour's token cache entry holds no value:
  `refuse(NB_ILLFORMED)` (10_state.md R28; U4). Safe. -/
  | nbIllFormed
  /-- Raised by a host access that is not allowed while STATUS.BUSY = 1: `refuse(HOST_WHILE_BUSY)`
  (70_reset_and_hazards.md R247; U2). Safe. -/
  | hostWhileBusy
  /-- Raised by a CSR access that is not an aligned 32-bit access below 0x20: `refuse(CSR_ACCESS)`
  (20_memory.md R66; U3). Safe. -/
  | csrAccess
  /-- Raised by everything but `rst` before the first reset after power-up: by a host command (R243; U8), and
  by every other step (DEDUCED, notes/assumptions/18.md). Safe. -/
  | beforeReset
  /-- Raised by INIT_CTX, alone or in BLOCK_SETUP, when a flag of a slice holds no value (U6). Safe. -/
  | noValue (sp : Store)
  /-- Raised by an access of an element index outside its space (20_memory.md R66). Safe. -/
  | outsideSpace (sp : Store)
  /-- Raised by the sequencer in state CATX when TOKEN is no category, which no run reaches (U16). Safe. -/
  | notACategory
  /-- Raised by a test bench word that is no row of the opcode table. Safe. -/
  | noSuchWord
deriving DecidableEq, Repr

/-- The outcome of a meaning. -/
abbrev Result := Host.Outcome State Fault Refusal

/-- The working registers after power-up and reset. The spec gives none of them a value (R242); the
model's is 0 (notes/assumptions/1.md). -/
def Regs.zero : Regs where
  c := 0
  ctx := 0
  band := 0
  dqsel := false
  token := .zero
  val := 0
  ext := 0
  biti := 0
  v := 0
  coefv := 0
  p := ⟨0, 0, 0, 0⟩
  pos := 0
  hasnz := false
  maxeob := 0
  nunits := 0

/-- The CSR block after reset (R240, R241). -/
def Csrs.zero : Csrs where
  cfg := 0
  blk0 := 0
  blkpos := 0
  edge := 0
  count := 0
  fcode := 0
  fpos := 0

/-- No table entry loaded by the host. -/
def Tables.none : Tables where
  scan := []
  nb := []
  band := []
  prob := []
  catp := []
  catp6 := []
  dq := []

/-- The open parameters at their defaults (R10), no point of a collaborator known. -/
def Params.default : Params where
  zrunDq := .keep
  eobbrPolicy := .perEobTest
  csrByteOrder := .little
  boolDec := []
  initCtx := []
  ctxFor := []
  higherToken := []
  energyClass := []
  rangeLimits := []

/-- A flag array after power-up: long enough for every block position (X ≤ 65535, n ≤ 8), no flag set
(notes/assumptions/5.md). -/
def FlagArray.empty : FlagArray where
  len := 65543
  cells := []

/-- The memory after power-up and reset: nothing holds a value (R242). -/
def Memory.empty : Memory where
  coef := ⟨[], [], []⟩
  above := ⟨.empty, .empty, .empty⟩
  left := ⟨.empty, .empty, .empty⟩
  cnt := []
  eobbr := []

/-- TD right after the first reset after power-up (R240 to R242). -/
def State.reset : State where
  st := .idle
  resetDone := true
  x := .zero
  clamped := false
  tc := []
  csr := .zero
  mem := .empty
  bd := 0
  tab := .none
  par := .default
  rdata := 0
  elem := Option.none
  inputs := []
  draws := 0

/-- TD after power-up, before any reset: nothing of it may be used (R243). -/
def State.powerUp : State := { State.reset with resetDone := false }

end Sys2Proof.Machine
end

