-- ==== Sys2Proof/Machine/Cells.lean ====
section
/-! DEFINITION. Element-addressed spaces: reading, writing, dropping elements, the canonical form. -/

namespace Sys2Proof.Machine

namespace PerPlane

/-- The thing of one plane. -/
def get {α : Type} (f : PerPlane α) : Plane → α
  | .p0 => f.p0
  | .p1 => f.p1
  | .p2 => f.p2

/-- Replaces the thing of one plane. -/
def set {α : Type} (f : PerPlane α) (p : Plane) (a : α) : PerPlane α :=
  match p with
  | .p0 => { f with p0 := a }
  | .p1 => { f with p1 := a }
  | .p2 => { f with p2 := a }

/-- A check of all three. -/
def all {α : Type} (f : PerPlane α) (q : α → Bool) : Bool := q f.p0 && q f.p1 && q f.p2

end PerPlane

namespace Cells

/-- The element at an index; none where it holds no value (00_scope.md R15 `MemRead`). -/
def read {α : Type} : Cells α → Nat → Option α
  | [], _ => none
  | (k, v) :: m, i => if i = k then some v else read m i

/-- Stores an element at its place (R15 `MemWrite`). -/
def write {α : Type} : Cells α → Nat → α → Cells α
  | [], i, v => [(i, v)]
  | (k, w) :: m, i, v =>
    if i < k then (i, v) :: (k, w) :: m
    else if i = k then (i, v) :: m
    else (k, w) :: write m i v

/-- The elements `lo ≤ i < lo + n` lose their value. -/
def forget {α : Type} (m : Cells α) (lo n : Nat) : Cells α :=
  m.filter (fun e => !(decide (lo ≤ e.1) && decide (e.1 < lo + n)))

/-- Every element of a space of `n` elements holds `v`. -/
def fill {α : Type} (n : Nat) (v : α) : Cells α := (List.range n).map (fun i => (i, v))

/-- Every index is at least `lo` and they rise strictly. -/
def rising {α : Type} : Nat → Cells α → Bool
  | _, [] => true
  | lo, (k, _) :: m => decide (lo ≤ k) && rising (k + 1) m

/-- The canonical form of a space of `size` elements: strictly rising indices, all inside the space. -/
def wf {α : Type} (size : Nat) (m : Cells α) : Bool :=
  rising 0 m && m.all (fun e => decide (e.1 < size))

/-- Whether the elements `lo ≤ i < lo + n` all hold a value. -/
def holdsAll {α : Type} (m : Cells α) (lo n : Nat) : Bool :=
  (List.range n).all (fun i => (read m (lo + i)).isSome)

/-- The values of the elements `lo, lo + 1, …`, n of them; none where one of them holds no value. -/
def readSlice {α : Type} (m : Cells α) : Nat → Nat → Option (List α)
  | _, 0 => some []
  | lo, n + 1 =>
    match read m lo, readSlice m (lo + 1) n with
    | some v, some vs => some (v :: vs)
    | _, _ => none

/-- Stores values at `lo, lo + 1, …`, in this order. -/
def writeSlice {α : Type} (m : Cells α) : Nat → List α → Cells α
  | _, [] => m
  | lo, v :: vs => writeSlice (write m lo v) (lo + 1) vs

end Cells

/-- A flag array is in canonical form. -/
def FlagArray.wf (a : FlagArray) : Bool := Cells.wf a.len a.cells

/-- The memory is in its canonical form: in every space strictly rising indices, none outside the space
(20_memory.md R60 to R62). -/
def Memory.wf (m : Memory) : Bool :=
  m.coef.all (Cells.wf Config.coefSlots) && m.above.all FlagArray.wf && m.left.all FlagArray.wf
    && Cells.wf Config.cntSlots m.cnt && Cells.wf Config.eobbrSlots m.eobbr

end Sys2Proof.Machine
end

