-- ==== Sys2Proof/Machine/Operands.lean ====
section
/-! DEFINITION. The operand forms of TD: the CSR fields, the sizes a transform level gives, the four
addressing forms of 43_token_decoder.md R172, the table and collaborator lookups, the CSR words. -/

namespace Sys2Proof

/-- Whether a register is RW: CFG, BLK0, BLKPOS, EDGE (10_state.md R33 to R36). -/
def CsrReg.rw : CsrReg → Bool
  | .cfg | .blk0 | .blkpos | .edge => true
  | .ctrl | .status | .count | .finfo => false

end Sys2Proof

namespace Sys2Proof.Machine

/-! ## Codes and flags of ST -/

/-- The ST codes (10_state.md R25). -/
def St.code : St → BitVec 4
  | .idle => 0 | .setup => 1 | .select => 2 | .eobt => 3 | .zerot => 4 | .zadv => 5 | .onet => 6
  | .htok => 7 | .catx => 8 | .dqs => 9 | .wrc => 10 | .edge => 11 | .done => 12 | .fatal => 15

/-- STATUS.BUSY: ST is one of SETUP to EDGE (10_state.md R32). -/
def St.busy : St → Bool
  | .idle | .done | .fatal => false
  | .setup | .select | .eobt | .zerot | .zadv | .onet | .htok | .catx | .dqs | .wrc | .edge => true

/-- STATUS.DONE (10_state.md R32). -/
def St.isDone (t : St) : Bool := t = .done

/-- STATUS.FATAL (10_state.md R32). -/
def St.isFatal (t : St) : Bool := t = .fatal

/-! ## CSR fields (10_state.md R33 to R36) -/

namespace Csrs

/-- CFG.BD: the bit depth, the number itself. -/
def bd (r : Csrs) : BitVec 4 := r.cfg.extractLsb' 0 4
/-- CFG.STATS_EN. -/
def statsEn (r : Csrs) : Bool := r.cfg.getLsbD 4
/-- CFG.RANGE_EN. -/
def rangeEn (r : Csrs) : Bool := r.cfg.getLsbD 5
/-- BLK0.TX. -/
def tx (r : Csrs) : BitVec 2 := r.blk0.extractLsb' 0 2
/-- BLK0.PLANE. -/
def plane (r : Csrs) : BitVec 2 := r.blk0.extractLsb' 2 2
/-- BLK0.PTYPE. -/
def ptype (r : Csrs) : Bool := r.blk0.getLsbD 4
/-- BLK0.REF. -/
def ref (r : Csrs) : Bool := r.blk0.getLsbD 5
/-- BLK0.SEG. -/
def seg (r : Csrs) : BitVec 3 := r.blk0.extractLsb' 6 3
/-- BLK0.SCANID. -/
def scanid (r : Csrs) : BitVec 4 := r.blk0.extractLsb' 9 4
/-- BLKPOS.X, unsigned. -/
def posX (r : Csrs) : Nat := (r.blkpos.extractLsb' 0 16).toNat
/-- BLKPOS.Y, unsigned. -/
def posY (r : Csrs) : Nat := (r.blkpos.extractLsb' 16 16).toNat
/-- EDGE.DR, read as `sext_16` (30_encoding.md R99). -/
def dr (r : Csrs) : Int := (r.edge.extractLsb' 0 16).toInt
/-- EDGE.DB, read as `sext_16` (30_encoding.md R99). -/
def db (r : Csrs) : Int := (r.edge.extractLsb' 16 16).toInt

end Csrs

/-- The plane a PLANE field names; the value 3 names none (P1 of R192). -/
def planeOf (f : BitVec 2) : Option Plane :=
  if f = 0 then some .p0 else if f = 1 then some .p1 else if f = 2 then some .p2 else none

/-! ## Sizes of a transform level (00_scope.md R10) -/

/-- `n(TX)`: the units along one edge, 2^TX. -/
def unitsOf (tx : BitVec 2) : Nat := 2 ^ tx.toNat

/-- `max_eob(TX)`: the coefficient positions, 16·4^TX. -/
def maxEobOf (tx : BitVec 2) : Nat := 16 * 4 ^ tx.toNat

/-- `TX_MAX`: the level that gets the extra shift. -/
def txMax : BitVec 2 := 3

/-- `PROB_HALF`: the equiprobable value. -/
def probHalf : Prob := 128

/-! ## Tables and collaborators (00_scope.md R11, R12) -/

/-- The value listed for a key. -/
def assoc {κ α : Type} [DecidableEq κ] (k : κ) : List (κ × α) → Option α
  | [] => none
  | (j, v) :: l => if k = j then some v else assoc k l

/-- `SCAN(id, tx, i)`. -/
def Tables.scanAt (t : Tables) (id : BitVec 4) (tx : BitVec 2) (i : Nat) : BitVec 10 :=
  (assoc (id, tx, i) t.scan).getD (Config.scan id tx i)

/-- `NB(id, tx, c, j)`. -/
def Tables.nbAt (t : Tables) (id : BitVec 4) (tx : BitVec 2) (c : Nat) (j : Bool) : BitVec 10 :=
  (assoc (id, tx, c, j) t.nb).getD (Config.nb id tx c j)

/-- `BAND(tx, i)`, as the 3-bit band. -/
def Tables.bandAt (t : Tables) (tx : BitVec 2) (i : Nat) : BitVec 3 :=
  BitVec.ofNat 3 ((assoc (tx, i) t.band).getD (Config.band tx i)).val

/-- `PROB(tx, ptype, ref, band, ctx)`. -/
def Tables.probAt (t : Tables) (tx : BitVec 2) (ptype ref : Bool) (band ctx : BitVec 3) : NodeProbs :=
  (assoc (tx, ptype, ref, band, ctx) t.prob).getD (Config.prob tx ptype ref band ctx)

/-- `CATP(k, i)`. -/
def Tables.catpAt (t : Tables) (k i : Nat) : Prob :=
  (assoc (k, i) t.catp).getD (Config.catp k i)

/-- `CATP6(bd, i)`. -/
def Tables.catp6At (t : Tables) (bd : BitVec 4) (i : Nat) : Prob :=
  (assoc (bd, i) t.catp6).getD (Config.catp6 bd i)

/-- `DQ(seg, plane, j)`. -/
def Tables.dqAt (t : Tables) (seg : BitVec 3) (plane : BitVec 2) (j : Bool) : BitVec 16 :=
  (assoc (seg, plane, j) t.dq).getD (Config.dq seg plane j)

/-- The vector of CATEGORYk, k = 1..5 (41_category_value_reader.md R122). -/
def Tables.catVector (t : Tables) (k : Nat) : List Prob :=
  (List.range (catBits k)).map (t.catpAt k)

/-- The vector of CATEGORY6 for a bit depth that gives it the width `w` (R122). -/
def Tables.cat6Vector (t : Tables) (bd : BitVec 4) (w : Nat) : List Prob :=
  (List.range w).map (t.catp6At bd)

/-- `BoolDec(bd, p)`. -/
def Params.boolDecAt (q : Params) (bd : Nat) (p : Prob) : Bool × Nat :=
  (assoc (bd, p) q.boolDec).getD (Config.boolDec bd p)

/-- `InitCtx(tx, A, L)`, as the 3-bit context. -/
def Params.initCtxAt (q : Params) (tx : BitVec 2) (a l : List Bool) : BitVec 3 :=
  BitVec.ofNat 3 ((assoc (tx, a, l) q.initCtx).getD (Config.initCtx tx a l)).val

/-- `CtxFor(e0, e1)`, as the 3-bit context. -/
def Params.ctxForAt (q : Params) (e0 e1 : BitVec 3) : BitVec 3 :=
  BitVec.ofNat 3 ((assoc (e0, e1) q.ctxFor).getD (Config.ctxFor e0 e1)).val

/-- `HigherToken(pivot)`. -/
def Params.higherTokenAt (q : Params) (pivot : Prob) : HTree :=
  (assoc pivot q.higherToken).getD (Config.higherToken pivot)

/-- `EnergyClass(tok)`. -/
def Params.energyClassAt (q : Params) (t : Token) : BitVec 3 :=
  (assoc t q.energyClass).getD (Config.energyClass t)

/-- `RangeLimits(bd)`. -/
def Params.rangeLimitsAt (q : Params) (bd : BitVec 4) : Limits :=
  (assoc bd q.rangeLimits).getD (Config.rangeLimits bd)

/-! ## The lookups with the fields of the block -/

/-- `SCAN(SCANID, TX, i)`: the scan-mapped position of decode position `i` (43_token_decoder.md R172 a). -/
def State.scanPos (s : State) (i : Nat) : BitVec 10 := s.tab.scanAt s.csr.scanid s.csr.tx i

/-- `NB(SCANID, TX, c, j)` (R172 b). -/
def State.nbPos (s : State) (c : Nat) (j : Bool) : BitVec 10 := s.tab.nbAt s.csr.scanid s.csr.tx c j

/-- `BAND(TX, C)`. -/
def State.bandHere (s : State) : BitVec 3 := s.tab.bandAt s.csr.tx s.x.c.toNat

/-- `PROB(TX, PTYPE, REF, BAND, CTX)` with the registers BAND and CTX. -/
def State.probsHere (s : State) : NodeProbs :=
  s.tab.probAt s.csr.tx s.csr.ptype s.csr.ref s.x.band s.x.ctx

/-- `DQ(SEG, PLANE, DQSEL)`. -/
def State.quantizer (s : State) : BitVec 16 := s.tab.dqAt s.csr.seg s.csr.plane s.x.dqsel

/-- The kinds of `CNT`'s counters (20_memory.md R62). -/
inductive CntKind
  | zero | one | more | eob
deriving DecidableEq, Repr

/-- The kind's number in the index (20_memory.md R62). -/
def CntKind.num : CntKind → Nat
  | .zero => 0 | .one => 1 | .more => 2 | .eob => 3

/-- `(tx·2 + ptype)·2 + ref`: the part of a counter's index that a block fixes (20_memory.md R62). -/
def cntPrefix (tx : BitVec 2) (ptype ref : Bool) : Nat := (tx.toNat * 2 + ptype.toNat) * 2 + ref.toNat

/-- The linear index of an `EOBBR` counter (20_memory.md R62; R172 d). -/
def eobbrIndex (tx : BitVec 2) (ptype ref : Bool) (band ctx : BitVec 3) : Nat :=
  (cntPrefix tx ptype ref * 6 + band.toNat) * 6 + ctx.toNat

/-- The linear index of a `CNT` counter (20_memory.md R62; R172 d). -/
def cntIndex (tx : BitVec 2) (ptype ref : Bool) (band ctx : BitVec 3) (kind : CntKind) : Nat :=
  eobbrIndex tx ptype ref band ctx * 4 + kind.num

/-- The index of `EOBBR[S]` with the current BAND and CTX. -/
def State.eobbrHere (s : State) : Nat :=
  eobbrIndex s.csr.tx s.csr.ptype s.csr.ref s.x.band s.x.ctx

/-- The index of `CNT[S, kind]` with the current BAND and CTX. -/
def State.cntHere (s : State) (kind : CntKind) : Nat :=
  cntIndex s.csr.tx s.csr.ptype s.csr.ref s.x.band s.x.ctx kind

/-- The part of a counter's index that the block's CSR fields fix. -/
def State.cntPrefixHere (s : State) : Nat := cntPrefix s.csr.tx s.csr.ptype s.csr.ref

/-! ## The edge slices (44_edge_context_writer.md R181; R172 c) -/

/-- The out-of-bounds units of a slice of `n`: `min(n, max(0, -D))`. -/
def clippedUnits (n : Nat) (d : Int) : Nat := min n (max 0 (-d)).toNat

/-- The flags written to a slice of `n` units of which the last `k` are out of bounds. -/
def edgeFlags (n k : Nat) (flag : Bool) : List Bool :=
  (List.range n).map (fun i => decide (i < n - k) && flag)

/-! ## The CSR words (10_state.md R31 to R38) -/

/-- STATUS. -/
def State.statusWord (s : State) : Word :=
  BitVec.ofNat 32
    (s.st.busy.toNat + 2 * s.st.isDone.toNat + 4 * s.st.isFatal.toNat + 8 * s.clamped.toNat)

/-- The word a register reads as. -/
def State.csrWord (s : State) : CsrReg → Word
  | .ctrl => 0
  | .status => s.statusWord
  | .cfg => s.csr.cfg.setWidth 32
  | .blk0 => s.csr.blk0.setWidth 32
  | .blkpos => s.csr.blkpos
  | .edge => s.csr.edge
  | .count => s.csr.count.setWidth 32
  | .finfo => (s.csr.fpos ++ s.csr.fcode).setWidth 32

/-- The register block after the defined fields of `v` are stored in a RW register; a write to another
register stores nothing (45_block_decode_and_host.md R199). -/
def Csrs.store (r : Csrs) (reg : CsrReg) (v : Word) : Csrs :=
  match reg with
  | .cfg => { r with cfg := v.setWidth 6 }
  | .blk0 => { r with blk0 := v.setWidth 13 }
  | .blkpos => { r with blkpos := v }
  | .edge => { r with edge := v }
  | .ctrl | .status | .count | .finfo => r

/-- The word that four byte lanes spell, the lane of the lowest address first (20_memory.md R65). -/
def ByteOrder.word (o : ByteOrder) (b0 b1 b2 b3 : Byte) : Word :=
  match o with
  | .little => b3 ++ b2 ++ b1 ++ b0
  | .big => b0 ++ b1 ++ b2 ++ b3

/-- Byte lane `i` (the address offset) of a word on a byte-addressed bus (20_memory.md R65). -/
def ByteOrder.lane (o : ByteOrder) (w : Word) (i : Nat) : Byte :=
  match o with
  | .little => w.extractLsb' (8 * i) 8
  | .big => w.extractLsb' (8 * (3 - i)) 8

/-- The four byte lanes of a word, the lane of the lowest address first (20_memory.md R65). -/
def ByteOrder.lanes (o : ByteOrder) (w : Word) : List Byte := [o.lane w 0, o.lane w 1, o.lane w 2, o.lane w 3]

/-- What the last CSR read shows on the lanes of a byte-addressed bus (20_memory.md R65): the word it
returned, in the byte order of the platform. -/
def State.rlanes (s : State) : List Byte := s.par.csrByteOrder.lanes s.rdata

end Sys2Proof.Machine
end

