-- ==== Sys2Proof/Machine/Flags.lean ====
section
/-! DEFINITION. The three one-bit flags DQSEL, HASNZ and CLAMPED (10_state.md R26), and the arithmetic of
DEQUANT_SIGN and RANGE_CLAMP (43_token_decoder.md R165 to R167). TD sets no condition codes. -/

namespace Sys2Proof.Machine

/-- DQSEL after a ZERO token, per `ZRUN_DQ` (43_token_decoder.md R150). -/
def ZrunDq.apply (z : ZrunDq) (dqsel : Bool) : Bool :=
  match z with
  | .keep => dqsel
  | .setFirst => false
  | .setSecond => true

/-- HASNZ: true iff the count is positive (44_edge_context_writer.md R181). -/
def hasNonzero (c : BitVec 11) : Bool := decide (0 < c.toNat)

/-- V: the dequantized magnitude, `(VAL * q) >> (1 if TX = TX_MAX else 0)` (43_token_decoder.md R165). The
product of a 19-bit and a 16-bit number is below 2^35 (R167 a). -/
def dequantize (val : BitVec 19) (q : BitVec 16) (tx : BitVec 2) : BitVec 35 :=
  BitVec.ofNat 35 ((val.toNat * q.toNat) >>> (if tx = txMax then 1 else 0))

/-- The signed coefficient: the negation of V if the sign bit is set (43_token_decoder.md R165; R98). -/
def applySign (v : BitVec 35) (sign : Bool) : BitVec 36 :=
  BitVec.ofInt 36 (if sign then -(v.toNat : Int) else (v.toNat : Int))

/-- `min(max(COEFV, lo), hi)` (43_token_decoder.md R166). -/
def clampTo (l : Limits) (x : BitVec 36) : BitVec 36 :=
  BitVec.ofInt 36 (min (max x.toInt (-(l.below : Int))) (l.above : Int))

/-- CLAMPED after a range clamp: set when the clamp changed the value, kept otherwise
(43_token_decoder.md R166). -/
def clampedFlag (old : Bool) (before after : BitVec 36) : Bool := old || decide (after ≠ before)

end Sys2Proof.Machine
end

