-- ==== Sys2Proof/Machine/Ops.lean ====
section
/-! DEFINITION. The named operations over registers, memory, the stream and the outside world that the
meanings share, among them the fatal entry and the reset operation. -/

namespace Sys2Proof.Machine

/-- Goes on from a next state; a fault or a refusal stays. -/
def andThen (r : Result) (f : State → Result) : Result :=
  match r with
  | .next s => f s
  | .fault e => .fault e
  | .refused e => .refused e

/-! ## Named updates -/

namespace State

/-- `ST <- t`, the notation `pc <- t` (00_scope.md R17). -/
def setSt (s : State) (t : St) : State := { s with st := t }
/-- Replaces the working registers. -/
def setX (s : State) (x : Regs) : State := { s with x := x }
/-- Replaces CLAMPED. -/
def setClamped (s : State) (b : Bool) : State := { s with clamped := b }
/-- Replaces the token cache. -/
def setTc (s : State) (tc : Cells (BitVec 3)) : State := { s with tc := tc }
/-- Replaces the CSR block. -/
def setCsr (s : State) (r : Csrs) : State := { s with csr := r }
/-- Replaces the memory spaces. -/
def setMem (s : State) (m : Memory) : State := { s with mem := m }
/-- Replaces the bool decoder state. -/
def setBd (s : State) (bd : Nat) : State := { s with bd := bd }
/-- Replaces the tables. -/
def setTab (s : State) (t : Tables) : State := { s with tab := t }
/-- Replaces the word returned to the host. -/
def setRdata (s : State) (w : Word) : State := { s with rdata := w }
/-- Replaces the element returned to the host. -/
def setElem (s : State) (e : Option Int) : State := { s with elem := e }
/-- Replaces what the outside world does next. -/
def setInputs (s : State) (l : List Input) : State := { s with inputs := l }
/-- Replaces the number of free values drawn. -/
def setDraws (s : State) (n : Nat) : State := { s with draws := n }
/-- Replaces the mark that a reset has been taken. -/
def setResetDone (s : State) (b : Bool) : State := { s with resetDone := b }

end State

/-! ## The stream (00_scope.md R16) -/

/-- `BoolRead(p)`: one binary decode; the bit, and the state with the bool decoder advanced. -/
def boolRead (p : Prob) (s : State) : Bool × State :=
  ((s.par.boolDecAt s.bd p).1, s.setBd (s.par.boolDecAt s.bd p).2)

/-- Runs a `HigherToken` tree on the stream (00_scope.md R12). -/
def runTree (q : Params) : HTree → Nat → HigherTok × Nat
  | .leaf t, bd => (t, bd)
  | .node p a b, bd =>
    if (q.boolDecAt bd p).1 then runTree q b (q.boolDecAt bd p).2
    else runTree q a (q.boolDecAt bd p).2

/-- The loop of READ_CAT: one bool read per probability, EXT shifted left with the bit added, BITI
counted (41_category_value_reader.md R121). -/
def readBits (q : Params) : List Prob → BitVec 18 → BitVec 5 → Nat → BitVec 18 × BitVec 5 × Nat
  | [], ext, biti, bd => (ext, biti, bd)
  | p :: pv, ext, biti, bd =>
    readBits q pv ((ext <<< 1) + (BitVec.ofBool (q.boolDecAt bd p).1).setWidth 18) (biti + 1)
      (q.boolDecAt bd p).2

/-- READ_CAT(pv, N): EXT and BITI start at 0 (R121). -/
def readCat (pv : List Prob) (s : State) : State :=
  let r := readBits s.par pv 0 0 s.bd
  (s.setX { s.x with ext := r.1, biti := r.2.1 }).setBd r.2.2

/-! ## Statistics (00_scope.md R17 `INC`; 20_memory.md R62) -/

/-- `INC(CNT[S, kind])`: nothing with STATS_EN = 0; else the counter goes up by 1 modulo 2^32. A counter that
the block reaches and that holds no value is P8 of R192 found false, as U4 is P6 found late
(93_implementation_defined.md U1, U6; notes/assumptions/24.md). -/
def incCnt (kind : CntKind) (s : State) : Result :=
  if s.csr.statsEn then
    match s.mem.cnt.read (s.cntHere kind) with
    | none => .refused (.precondition .p8)
    | some n => .next (s.setMem { s.mem with cnt := s.mem.cnt.write (s.cntHere kind) (n + 1) })
  else .next s

/-- `INC(EOBBR[S])`, the same of the branch counter. -/
def incEobbr (s : State) : Result :=
  if s.csr.statsEn then
    match s.mem.eobbr.read s.eobbrHere with
    | none => .refused (.precondition .p8)
    | some n => .next (s.setMem { s.mem with eobbr := s.mem.eobbr.write s.eobbrHere (n + 1) })
  else .next s

/-! ## The context tracker (42_context_tracker.md) -/

/-- INIT_CTX: reads the two slices and loads CTX (R131). -/
def initCtx (s : State) : Result :=
  match planeOf s.csr.plane with
  | none => .refused (.precondition .p1)
  | some p =>
    match (s.mem.above.get p).cells.readSlice s.csr.posX s.x.nunits.toNat with
    | none => .refused (.noValue (.above p))
    | some a =>
      match (s.mem.left.get p).cells.readSlice s.csr.posY s.x.nunits.toNat with
      | none => .refused (.noValue (.left p))
      | some l => .next (s.setX { s.x with ctx := s.par.initCtxAt s.csr.tx a l })

/-- CTX_UPDATE(C): reads the token cache at the two neighbours and loads CTX (R133). -/
def ctxUpdate (s : State) : Result :=
  match s.tc.read (s.nbPos s.x.c.toNat false).toNat, s.tc.read (s.nbPos s.x.c.toNat true).toNat with
  | some e0, some e1 => .next (s.setX { s.x with ctx := s.par.ctxForAt e0 e1 })
  | _, _ => .refused .nbIllFormed

/-- `BAND <- BAND(TX, C); P <- PROB(TX, PTYPE, REF, BAND, CTX)` (43_token_decoder.md R141, R150). -/
def latchProbs (s : State) : State :=
  let s := s.setX { s.x with band := s.bandHere }
  s.setX { s.x with p := s.probsHere }

/-! ## Coefficients, cache, edges -/

/-- `COEF[PLANE][POS] <- COEFV` (43_token_decoder.md R170). -/
def writeCoef (s : State) : Result :=
  match planeOf s.csr.plane with
  | none => .refused (.precondition .p1)
  | some p =>
    .next (s.setMem { s.mem with
      coef := s.mem.coef.set p ((s.mem.coef.get p).write s.x.pos.toNat s.x.coefv) })

/-- `POS <- SCAN(SCANID, TX, C)`. -/
def setPos (s : State) : State := s.setX { s.x with pos := s.scanPos s.x.c.toNat }

/-- `TC[POS] <- e`. -/
def writeTc (e : BitVec 3) (s : State) : State := s.setTc (s.tc.write s.x.pos.toNat e)

/-- `C <- C + 1`. -/
def advanceC (s : State) : State := s.setX { s.x with c := s.x.c + 1 }

/-- The effect of a ZERO token (43_token_decoder.md R150). -/
def zeroEffect (s : State) : Result :=
  andThen (incCnt .zero s) fun s =>
    let s := s.setX { s.x with dqsel := s.par.zrunDq.apply s.x.dqsel }
    let s := advanceC (writeTc 0 (setPos s))
    if s.x.c = s.x.maxeob then .next (s.setSt .edge)
    else
      andThen (ctxUpdate s) fun s =>
        let s := latchProbs s
        match s.par.eobbrPolicy with
        | .perPosition => andThen (incEobbr s) fun s => .next (s.setSt .zerot)
        | .perEobTest => .next (s.setSt .zerot)

/-- RANGE_CLAMP (43_token_decoder.md R166). -/
def rangeClamp (s : State) : State :=
  let c := clampTo (s.par.rangeLimitsAt s.csr.bd) s.x.coefv
  (s.setClamped (clampedFlag s.clamped s.x.coefv c)).setX { s.x with coefv := c }

/-- `VAL <- v; pc <- DQS` (43_token_decoder.md R151 to R160). -/
def setVal (v : BitVec 19) (s : State) : State := (s.setX { s.x with val := v }).setSt .dqs

/-- `VAL <- CAT_BASE(k) + READ_CAT(pv, N); pc <- DQS` (43_token_decoder.md R155 to R160). -/
def readCategory (k : Nat) (pv : List Prob) (s : State) : State :=
  let s := readCat pv s
  setVal (BitVec.ofNat 19 (catBase k) + s.x.ext.setWidth 19) s

/-- EDGE_WRITE without what continues it (44_edge_context_writer.md R181). -/
def edgeWrite (s : State) : Result :=
  let flag := hasNonzero s.x.c
  let n := s.x.nunits.toNat
  match planeOf s.csr.plane with
  | none => .refused (.precondition .p1)
  | some p =>
    let a := s.mem.above.get p
    let l := s.mem.left.get p
    if a.len < s.csr.posX + n then .refused (.outsideSpace (.above p))
    else if l.len < s.csr.posY + n then .refused (.outsideSpace (.left p))
    else
      let a := { a with cells := a.cells.writeSlice s.csr.posX (edgeFlags n (clippedUnits n s.csr.dr) flag) }
      let l := { l with cells := l.cells.writeSlice s.csr.posY (edgeFlags n (clippedUnits n s.csr.db) flag) }
      .next ((s.setX { s.x with hasnz := flag }).setMem
        { s.mem with above := s.mem.above.set p a, left := s.mem.left.set p l })

/-- BLOCK_FINISH (45_block_decode_and_host.md R195). -/
def blockFinish (s : State) : State := (s.setCsr { s.csr with count := s.x.c }).setSt .done

/-! ## The fatal entry (60_exceptions.md R214) and reset, the only way out of it (R215, R240) -/

/-- `raise FATAL(code)`: FINFO records the cause and the position, ST becomes FATAL, nothing else
changes. -/
def raiseFatal (code : BitVec 4) (s : State) : State :=
  (s.setCsr { s.csr with fcode := code, fpos := s.x.c }).setSt .fatal

/-- The cause code of CAT6_BITDEPTH (60_exceptions.md R210). -/
def cat6BitDepth : BitVec 4 := 1

/-- What a reset that abandons a block decode does to the stores: the elements the decode can reach hold
no value afterwards, and the bool decoder stands at a place nobody knows
(93_implementation_defined.md U7). -/
def abandon (s : State) : State :=
  let n := unitsOf s.csr.tx
  let pre := s.cntPrefixHere
  let m := s.mem
  let m := match planeOf s.csr.plane with
    | none => m
    | some p =>
      let a := m.above.get p
      let l := m.left.get p
      { m with
        coef := m.coef.set p ((m.coef.get p).forget 0 (maxEobOf s.csr.tx))
        above := m.above.set p { a with cells := a.cells.forget s.csr.posX n }
        left := m.left.set p { l with cells := l.cells.forget s.csr.posY n } }
  let m := if s.csr.statsEn then
      { m with cnt := m.cnt.forget (pre * 144) 144, eobbr := m.eobbr.forget (pre * 36) 36 }
    else m
  ((s.setMem m).setBd (Config.abandonedStream s.draws)).setDraws (s.draws + 1)

/-- The reset operation (70_reset_and_hazards.md R240), accepted in every state. -/
def resetOp (s : State) : State :=
  let s := if s.st.busy then abandon s else s
  (((s.setCsr .zero).setClamped false).setSt .idle).setResetDone true

/-! ## START (45_block_decode_and_host.md R190, R192) -/

/-- P6: SCAN(SCANID, TX, ·) is a permutation of the block's positions, and both neighbours of a decode
position c ≥ 1 are positions decoded before it. -/
def State.scanWellFormed (s : State) : Bool :=
  let n := maxEobOf s.csr.tx
  let order := (List.range n).map s.scanPos
  order.all (fun q => decide (q.toNat < n)) && decide order.Nodup
    && (List.range n).all (fun c => c == 0 ||
      ((order.take c).contains (s.nbPos c false) && (order.take c).contains (s.nbPos c true)))

/-- The first host precondition of START that does not hold (R192). P2's ranges hold by the types of the
tables; P7 and P9 are not visible to TD. P8 is about the counters that the block reaches, which depends
on its stream: it is decided where each is reached (`incCnt`, `incEobbr`; notes/assumptions/24.md). -/
def violatedPrecond (s : State) : Option Precond :=
  match planeOf s.csr.plane with
  | none => some .p1
  | some p =>
    let n := unitsOf s.csr.tx
    let a := s.mem.above.get p
    let l := s.mem.left.get p
    if a.len < s.csr.posX + n then some .p3
    else if l.len < s.csr.posY + n then some .p4
    else if !(a.cells.holdsAll s.csr.posX n && l.cells.holdsAll s.csr.posY n) then some .p5
    else if !s.scanWellFormed then some .p6
    else none

/-- The START command: begins a block decode from IDLE or DONE with BUSY = 1, DONE = 0, CLAMPED = 0
(92_eei_decisions.md D3), and is ignored in every other state. BLOCK_SETUP clears CLAMPED as well (R193;
notes/assumptions/23.md). -/
def startOp (s : State) : Result :=
  match s.st with
  | .idle | .done =>
    match violatedPrecond s with
    | some p => .refused (.precondition p)
    | none => .next ((s.setClamped false).setSt .setup)
  | .setup | .select | .eobt | .zerot | .zadv | .onet | .htok | .catx | .dqs | .wrc | .edge
  | .fatal => .next s

end Sys2Proof.Machine
end

