-- ==== Sys2Proof/Machine/Block.lean ====
section
/-! DEFINITION. The edge context writer (44_edge_context_writer.md) and the two ends of a block decode
(45_block_decode_and_host.md R193, R195). -/

namespace Sys2Proof.Machine

/-- BLOCK_SETUP (R193): the registers of the block, an empty token cache, INIT_CTX. -/
def execBlockSetup (s : State) : Result :=
  let s := s.setX { s.x with
    nunits := BitVec.ofNat 4 (unitsOf s.csr.tx)
    maxeob := BitVec.ofNat 11 (maxEobOf s.csr.tx)
    c := 0
    dqsel := false }
  let s := (s.setClamped false).setTc []
  andThen (initCtx s) fun s => .next (s.setSt .select)

/-- BLOCK_FINISH (R195). -/
def execBlockFinish (s : State) : Result := .next (blockFinish s)

/-- EDGE_WRITE (R181), which continues with BLOCK_FINISH. -/
def execEdgeWrite (s : State) : Result := andThen (edgeWrite s) fun s => .next (blockFinish s)

end Sys2Proof.Machine
end

