-- ==== Sys2Proof/Machine/Category.lean ====
section
/-! DEFINITION. The category value reader (41_category_value_reader.md). -/

namespace Sys2Proof.Machine

/-- READ_CAT(pv, N) (R121): exactly N bool reads with the probabilities in order; EXT and BITI hold the
value and N. It returns to the token that called it. -/
def execReadCat (pv : List Prob) (s : State) : Result := .next (readCat pv s)

end Sys2Proof.Machine
end

