-- ==== Sys2Proof/Machine/Context.lean ====
section
/-! DEFINITION. The context tracker (42_context_tracker.md). -/

namespace Sys2Proof.Machine

/-- INIT_CTX (R131). -/
def execInitCtx (s : State) : Result := initCtx s

/-- CTX_UPDATE(c) for the position c that C holds (R133). -/
def execCtxUpdate (s : State) : Result := ctxUpdate s

end Sys2Proof.Machine
end

