-- ==== Sys2Proof/Machine/Tokens.lean ====
section
/-! DEFINITION. The twelve tokens, one meaning each (43_token_decoder.md R149 to R160): what the token's
rule does inside the state that has identified it. Its sign is read by DEQUANT_SIGN. -/

namespace Sys2Proof.Machine

/-- EOB (R149): counted; C is unchanged and is the count. -/
def execEob (s : State) : Result := andThen (incCnt .eob s) fun s => .next (s.setSt .edge)

/-- ZERO (R150). -/
def execZero (s : State) : Result := zeroEffect s

/-- ONE (R151). -/
def execOne (s : State) : Result :=
  andThen (incCnt .one s) fun s => .next (setVal 1 (s.setX { s.x with token := .one }))

/-- TWO (R152): TOKEN was written by HIGHER_TOKEN. -/
def execTwo (s : State) : Result := .next (setVal 2 s)

/-- THREE (R153). -/
def execThree (s : State) : Result := .next (setVal 3 s)

/-- FOUR (R154). -/
def execFour (s : State) : Result := .next (setVal 4 s)

/-- CAT1 (R155). -/
def execCat1 (s : State) : Result := .next (readCategory 1 (s.tab.catVector 1) s)

/-- CAT2 (R156). -/
def execCat2 (s : State) : Result := .next (readCategory 2 (s.tab.catVector 2) s)

/-- CAT3 (R157). -/
def execCat3 (s : State) : Result := .next (readCategory 3 (s.tab.catVector 3) s)

/-- CAT4 (R158). -/
def execCat4 (s : State) : Result := .next (readCategory 4 (s.tab.catVector 4) s)

/-- CAT5 (R159). -/
def execCat5 (s : State) : Result := .next (readCategory 5 (s.tab.catVector 5) s)

/-- CAT6 (R160): a bit depth that gives it no width raises FATAL(CAT6_BITDEPTH) before any extension bit
is read. -/
def execCat6 (s : State) : Result :=
  match cat6Bits s.csr.bd with
  | none => .next (raiseFatal cat6BitDepth s)
  | some w => .next (readCategory 6 (s.tab.cat6Vector s.csr.bd w) s)

end Sys2Proof.Machine
end

