-- ==== Sys2Proof/Machine/Decoder.lean ====
section
/-! DEFINITION. The operations of the decoder states (43_token_decoder.md R141 to R145, R150, R165, R166,
R170). -/

namespace Sys2Proof.Machine

/-- BAND_CTX_SELECT (R141). -/
def execBandCtxSelect (s : State) : Result := .next ((latchProbs s).setSt .eobt)

/-- EOB_TEST (R142). -/
def execEobTest (s : State) : Result :=
  andThen (incEobbr s) fun s =>
    let r := boolRead s.x.p.eob s
    if r.1 = eobInd then execEob r.2 else .next (r.2.setSt .zerot)

/-- ZERO_TEST (R143). -/
def execZeroTest (s : State) : Result :=
  let r := boolRead s.x.p.zero s
  if r.1 = zeroInd then .next (r.2.setSt .zadv) else .next (r.2.setSt .onet)

/-- ZERO_ADVANCE: the operation of state ZADV, token ZERO's effect (R150). -/
def execZeroAdvance (s : State) : Result := zeroEffect s

/-- ONE_TEST (R144). -/
def execOneTest (s : State) : Result :=
  let r := boolRead s.x.p.one s
  if r.1 = oneInd then execOne r.2
  else andThen (incCnt .more r.2) fun s => .next (s.setSt .htok)

/-- HIGHER_TOKEN (R145): TWO, THREE and FOUR execute their rule at once; a category goes on in CATX. -/
def execHigherToken (s : State) : Result :=
  let r := runTree s.par (s.par.higherTokenAt s.x.p.pivot) s.bd
  let s := (s.setBd r.2).setX { s.x with token := r.1.token }
  match r.1 with
  | .two => execTwo s
  | .three => execThree s
  | .four => execFour s
  | .cat1 | .cat2 | .cat3 | .cat4 | .cat5 | .cat6 => .next (s.setSt .catx)

/-- DEQUANT_SIGN (R165): the shift precedes the sign, the sign is read with PROB_HALF, and RANGE_CLAMP
follows if CFG.RANGE_EN is set. -/
def execDequantSign (s : State) : Result :=
  let v := dequantize s.x.val s.quantizer s.csr.tx
  let r := boolRead probHalf s
  let s := r.2.setX { r.2.x with v := v, coefv := applySign v r.1 }
  let s := if s.csr.rangeEn then rangeClamp s else s
  .next (s.setSt .wrc)

/-- RANGE_CLAMP (R166), as DEQUANT_SIGN invokes it. -/
def execRangeClamp (s : State) : Result := .next (rangeClamp s)

/-- WRITE_CACHE (R170): the context is not recomputed when C reaches MAXEOB. -/
def execWriteCache (s : State) : Result :=
  andThen (writeCoef (setPos s)) fun s =>
    let s := advanceC (writeTc (s.par.energyClassAt s.x.token) s)
    andThen (if s.x.c.toNat < s.x.maxeob.toNat then ctxUpdate s else .next s) fun s =>
      let s := s.setX { s.x with dqsel := true }
      .next (s.setSt (if s.x.c = s.x.maxeob then .edge else .select))

end Sys2Proof.Machine
end

