-- ==== Sys2Proof/Machine/HostCommands.lean ====
section
/-! DEFINITION. The host commands START, SRST, CSRRD, CSRWR (45_block_decode_and_host.md). -/

namespace Sys2Proof.Machine

/-- START (R190). -/
def execStart (s : State) : Result := startOp s

/-- SRST (R197): the reset operation, in every state; the START bit of the word has no effect. -/
def execSrst (_startBit : Bool) (s : State) : Result := .next (resetOp s)

/-- CSRRD off (R198): the word of the register is returned. "while BUSY only STATUS may be read": a read of
any other register is then refused (R247, U2; notes/assumptions/7.md). -/
def execCsrrd (r : CsrReg) (s : State) : Result :=
  match r with
  | .status => .next (s.setRdata s.statusWord)
  | .ctrl | .cfg | .blk0 | .blkpos | .edge | .count | .finfo =>
    if s.st.busy then .refused .hostWhileBusy else .next (s.setRdata (s.csrWord r))

/-- CSRWR off, v (R199): CTRL decodes `v` as a command (R91), and a word with a reserved bit set is ignored;
a RW register stores the defined fields; a write to a read-only register does nothing. While BUSY the
writes that no rule gives an effect, of a RW register and of 0 to CTRL, are refused (R247, U2;
notes/assumptions/7.md). -/
def execCsrwr (r : CsrReg) (v : Word) (s : State) : Result :=
  match r with
  | .ctrl =>
    match decodeCtrl v with
    | some .start => startOp s
    | some (.srst _) => .next (resetOp s)
    | _ => if s.st.busy ∧ v = 0 then .refused .hostWhileBusy else .next s
  | .cfg | .blk0 | .blkpos | .edge =>
    if s.st.busy then .refused .hostWhileBusy else .next (s.setCsr (s.csr.store r v))
  | .status | .count | .finfo => .next s

end Sys2Proof.Machine
end

