-- ==== Sys2Proof/Machine/Dispatch.lean ====
section
/-! DEFINITION. The dispatch of an instruction to its meaning, one arm per row of spec/opcode_table.json. -/

namespace Sys2Proof.Machine

def exec (i : Instr) (s : State) : Host.Outcome State Fault Refusal :=
  match i with
  -- format HC
  | .start => Sys2Proof.Machine.execStart s
  | .srst startBit => Sys2Proof.Machine.execSrst startBit s
  | .csrrd r => Sys2Proof.Machine.execCsrrd r s
  | .csrwr r v => Sys2Proof.Machine.execCsrwr r v s
  -- format TK
  | .eob => Sys2Proof.Machine.execEob s
  | .zero => Sys2Proof.Machine.execZero s
  | .one => Sys2Proof.Machine.execOne s
  | .two => Sys2Proof.Machine.execTwo s
  | .three => Sys2Proof.Machine.execThree s
  | .four => Sys2Proof.Machine.execFour s
  | .cat1 => Sys2Proof.Machine.execCat1 s
  | .cat2 => Sys2Proof.Machine.execCat2 s
  | .cat3 => Sys2Proof.Machine.execCat3 s
  | .cat4 => Sys2Proof.Machine.execCat4 s
  | .cat5 => Sys2Proof.Machine.execCat5 s
  | .cat6 => Sys2Proof.Machine.execCat6 s
  -- format OP
  | .blockSetup => Sys2Proof.Machine.execBlockSetup s
  | .initCtx => Sys2Proof.Machine.execInitCtx s
  | .bandCtxSelect => Sys2Proof.Machine.execBandCtxSelect s
  | .eobTest => Sys2Proof.Machine.execEobTest s
  | .zeroTest => Sys2Proof.Machine.execZeroTest s
  | .zeroAdvance => Sys2Proof.Machine.execZeroAdvance s
  | .oneTest => Sys2Proof.Machine.execOneTest s
  | .higherToken => Sys2Proof.Machine.execHigherToken s
  | .readCat pv => Sys2Proof.Machine.execReadCat pv s
  | .dequantSign => Sys2Proof.Machine.execDequantSign s
  | .rangeClamp => Sys2Proof.Machine.execRangeClamp s
  | .writeCache => Sys2Proof.Machine.execWriteCache s
  | .ctxUpdate => Sys2Proof.Machine.execCtxUpdate s
  | .edgeWrite => Sys2Proof.Machine.execEdgeWrite s
  | .blockFinish => Sys2Proof.Machine.execBlockFinish s

end Sys2Proof.Machine
end

