-- ==== Sys2Proof/Machine/Fetch.lean ====
section
/-! DEFINITION. What the next step is: the operation that ST names, or what the outside world does. -/

namespace Sys2Proof.Machine

/-- What a step does. -/
inductive Work
  /-- It runs an instruction in a state. -/
  | run (i : Instr) (s : State)
  /-- It does something that is no instruction. -/
  | settle (r : Result)

/-- The instruction of the sequencer's state (10_state.md R25): the operation of the ST code, and in CATX
the category token that TOKEN holds. -/
def sequencerInstr (t : St) (tok : Token) : Option Instr :=
  match t with
  | .catx =>
    match tok with
    | .cat1 | .cat2 | .cat3 | .cat4 | .cat5 | .cat6 => some tok.instr
    | .zero | .one | .two | .three | .four | .eob => none
  | _ =>
    match decode (.op t.code) with
    | .ok i => some i
    | .error _ => none

/-- The sequencer takes a step. In IDLE and DONE it waits: nothing changes. In FATAL the block decode has
ended in a fault, which is never final (60_exceptions.md R214). -/
def fetchOp (s : State) : Work :=
  if !s.resetDone then .settle (.refused .beforeReset)
  else
    match s.st with
    | .idle | .done => .settle (.next s)
    | .fatal => .settle (.fault (.fatalStop s.csr.fcode s.csr.fpos))
    | .setup | .select | .eobt | .zerot | .zadv | .onet | .htok | .catx | .dqs | .wrc | .edge =>
      match sequencerInstr s.st s.x.token with
      | some i => .run i s
      | none => .settle (.refused .notACategory)

/-- The host makes an access of the CSR block. -/
def fetchBus (wr : Bool) (size off : Nat) (data : Word) (s : State) : Work :=
  match decode (.bus wr size off data) with
  | .ok i => .run i s
  | .error _ => .settle (.refused .csrAccess)

/-- The number of elements of a space. -/
def Store.size (sp : Store) (m : Memory) : Nat :=
  match sp with
  | .coef _ => Config.coefSlots
  | .above p => (m.above.get p).len
  | .left p => (m.left.get p).len
  | .cnt => Config.cntSlots
  | .eobbr => Config.eobbrSlots

/-- The value of an element; none where it holds no value. -/
def Store.read (sp : Store) (m : Memory) (i : Nat) : Option Int :=
  match sp with
  | .coef p => ((m.coef.get p).read i).map BitVec.toInt
  | .above p => ((m.above.get p).cells.read i).map (fun b => (b.toNat : Int))
  | .left p => ((m.left.get p).cells.read i).map (fun b => (b.toNat : Int))
  | .cnt => (m.cnt.read i).map (fun n => (n.toNat : Int))
  | .eobbr => (m.eobbr.read i).map (fun n => (n.toNat : Int))

/-- The host's write of an element, cut to the element's width; a flag is set by any value but 0. -/
def Store.write (sp : Store) (m : Memory) (i : Nat) (v : Int) : Memory :=
  match sp with
  | .coef p => { m with coef := m.coef.set p ((m.coef.get p).write i (BitVec.ofInt 36 v)) }
  | .above p =>
    let a := m.above.get p
    { m with above := m.above.set p { a with cells := a.cells.write i (decide (v ≠ 0)) } }
  | .left p =>
    let a := m.left.get p
    { m with left := m.left.set p { a with cells := a.cells.write i (decide (v ≠ 0)) } }
  | .cnt => { m with cnt := m.cnt.write i (BitVec.ofInt 32 v) }
  | .eobbr => { m with eobbr := m.eobbr.write i (BitVec.ofInt 32 v) }

/-- The host's write of one value to every element of a space. -/
def Store.fill (sp : Store) (m : Memory) (v : Int) : Memory :=
  match sp with
  | .coef p => { m with coef := m.coef.set p (Cells.fill Config.coefSlots (BitVec.ofInt 36 v)) }
  | .above p =>
    let a := m.above.get p
    { m with above := m.above.set p { a with cells := Cells.fill a.len (decide (v ≠ 0)) } }
  | .left p =>
    let a := m.left.get p
    { m with left := m.left.set p { a with cells := Cells.fill a.len (decide (v ≠ 0)) } }
  | .cnt => { m with cnt := Cells.fill Config.cntSlots (BitVec.ofInt 32 v) }
  | .eobbr => { m with eobbr := Cells.fill Config.eobbrSlots (BitVec.ofInt 32 v) }

/-- The memory with a fresh array of a length. -/
def Memory.supply (m : Memory) (side : Side) (p : Plane) (len : Nat) : Memory :=
  match side with
  | .above => { m with above := m.above.set p ⟨len, []⟩ }
  | .left => { m with left := m.left.set p ⟨len, []⟩ }

/-- A host action on anything but the CSR block: only between block decodes (70_reset_and_hazards.md
R247). -/
def hostAction (s : State) (r : Result) : Work :=
  if s.st.busy then .settle (.refused .hostWhileBusy) else .settle r

/-- A host access of one element: inside its space (20_memory.md R66). -/
def hostElement (s : State) (sp : Store) (i : Nat) (r : Result) : Work :=
  hostAction s (if i < sp.size s.mem then r else .refused (.outsideSpace sp))

/-- What the outside world does, in the state without the action. Before the first reset after power-up
host commands are refused (70_reset_and_hazards.md R243), and so is every other action but `rst` (DEDUCED,
notes/assumptions/18.md). -/
def fetchInput (inp : Input) (s : State) : Work :=
  match inp with
  | .rst => .settle (.next (resetOp s))
  | .tick => fetchOp s
  | .bus wr size off data =>
    if s.resetDone then fetchBus wr size off data s else .settle (.refused .beforeReset)
  | .busLanes off b0 b1 b2 b3 =>
    if s.resetDone then fetchBus true 4 off (s.par.csrByteOrder.word b0 b1 b2 b3) s
    else .settle (.refused .beforeReset)
  | .busLanesRead off => if s.resetDone then fetchBus false 4 off 0 s else .settle (.refused .beforeReset)
  | .opWord nbits w =>
    if s.resetDone then
      match decodeTableWord nbits w with
      | some i => .run i s
      | none => .settle (.refused .noSuchWord)
    else .settle (.refused .beforeReset)
  | .storeWrite sp i v =>
    if s.resetDone then hostElement s sp i (.next (s.setMem (sp.write s.mem i v)))
    else .settle (.refused .beforeReset)
  | .storeRead sp i =>
    if s.resetDone then hostElement s sp i (.next (s.setElem (sp.read s.mem i)))
    else .settle (.refused .beforeReset)
  | .storeFill sp v =>
    if s.resetDone then hostAction s (.next (s.setMem (sp.fill s.mem v)))
    else .settle (.refused .beforeReset)
  | .supplyArray side p len =>
    if s.resetDone then hostAction s (.next (s.setMem (s.mem.supply side p len)))
    else .settle (.refused .beforeReset)
  | .loadTables t =>
    if s.resetDone then hostAction s (.next (s.setTab t)) else .settle (.refused .beforeReset)
  | .positionStream bd =>
    if s.resetDone then hostAction s (.next (s.setBd bd)) else .settle (.refused .beforeReset)

/-- What the next step is: the oldest pending input, or the sequencer's operation where none is
pending. -/
def fetch (s : State) : Work :=
  match s.inputs with
  | [] => fetchOp s
  | inp :: rest => fetchInput inp (s.setInputs rest)

/-- The state in which the next step runs the instruction of an opcode-table word: a command word is
written to CTRL by the host; every other word is issued as an operation. -/
def placeWord (s : State) (nbits w : Nat) : State :=
  if nbits = 32 then s.setInputs (.bus true 4 0 (BitVec.ofNat 32 w) :: s.inputs)
  else s.setInputs (.opWord nbits w :: s.inputs)

end Sys2Proof.Machine
end

