-- ==== Sys2Proof/Safety.lean ====
section
/-! DEFINITION. What counts as a safe run of TD, in the terms the statements use: how a block decode ends,
the invariants, the host preconditions as the spec words them, and what a run reads from the stream. -/

namespace Sys2Proof

/-- The tokens with an extension (30_encoding.md R92). -/
def Token.isCategory (t : Token) : Prop :=
  t = .cat1 ∨ t = .cat2 ∨ t = .cat3 ∨ t = .cat4 ∨ t = .cat5 ∨ t = .cat6

/-- The magnitude of a value token with extension value `e` (30_encoding.md R92). -/
def Token.magnitude (e : Nat) : Token → Nat
  | .zero => 0 | .one => 1 | .two => 2 | .three => 3 | .four => 4
  | .cat1 => 5 + e | .cat2 => 7 + e | .cat3 => 11 + e | .cat4 => 19 + e | .cat5 => 35 + e
  | .cat6 => 67 + e | .eob => 0

end Sys2Proof

namespace Sys2Proof.Machine

/-! ## How a block decode ends (00_scope.md R9) -/

/-- DONE: the block decode has completed. -/
def State.final (s : State) : Prop := s.st = .done

/-- FATAL: the block decode has ended in a fault; never final (60_exceptions.md R214). -/
def State.faulted (s : State) : Prop := s.st = .fatal

/-! ## Invariants -/

/-- What every step keeps: canonical memory and token cache, CTX and BAND in the range of the
probability table (10_state.md R22; 42_context_tracker.md R134). -/
structure State.Inv (s : State) : Prop where
  mem : s.mem.wf = true
  tc : s.tc.wf Config.coefSlots = true
  ctx : s.x.ctx.toNat < Config.nCtx
  band : s.x.band.toNat < Config.nBands

/-- P6 of 45_block_decode_and_host.md R192 in the words of the spec: SCAN is a permutation of
`0 .. max_eob - 1`, and each neighbour of c is a position decoded before c. -/
structure State.ScanOrder (s : State) : Prop where
  inRange : ∀ i, i < maxEobOf s.csr.tx → (s.scanPos i).toNat < maxEobOf s.csr.tx
  injective : ∀ i j, i < maxEobOf s.csr.tx → j < maxEobOf s.csr.tx → s.scanPos i = s.scanPos j → i = j
  neighbours : ∀ c j, 1 ≤ c → c < maxEobOf s.csr.tx → ∃ i, i < c ∧ s.nbPos c j = s.scanPos i

/-- Every element `lo ≤ i < lo + n` holds a value. -/
def Cells.Filled {α : Type} (m : Cells α) (lo n : Nat) : Prop :=
  ∀ i, lo ≤ i → i < lo + n → ∃ v, m.read i = some v

/-- With statistics enabled every counter of the block's TX, PTYPE and REF holds a value. It implies P8 of
R192, which asks it of the counters that the block can reach. -/
def State.CountersFilled (s : State) : Prop :=
  s.csr.statsEn = true → ∀ band ctx : BitVec 3, band.toNat < Config.nBands → ctx.toNat < Config.nCtx →
    (∀ k, ∃ v, s.mem.cnt.read (cntIndex s.csr.tx s.csr.ptype s.csr.ref band ctx k) = some v) ∧
    (∃ v, s.mem.eobbr.read (eobbrIndex s.csr.tx s.csr.ptype s.csr.ref band ctx) = some v)

/-- The host preconditions of START that START decides (R192: P1, P3, P4, P5, P6). -/
structure State.Ready (s : State) (p : Plane) : Prop where
  p1 : planeOf s.csr.plane = some p
  p3 : s.csr.posX + unitsOf s.csr.tx ≤ (s.mem.above.get p).len
  p4 : s.csr.posY + unitsOf s.csr.tx ≤ (s.mem.left.get p).len
  p5a : (s.mem.above.get p).cells.Filled s.csr.posX (unitsOf s.csr.tx)
  p5l : (s.mem.left.get p).cells.Filled s.csr.posY (unitsOf s.csr.tx)
  p6 : s.ScanOrder

/-- What holds while a block decode runs, from the START that was accepted on. -/
structure State.Decoding (s : State) : Prop where
  inv : s.Inv
  up : s.resetDone = true
  busy : s.st.busy = true
  plane : ∃ p, planeOf s.csr.plane = some p ∧
    s.csr.posX + unitsOf s.csr.tx ≤ (s.mem.above.get p).len ∧
    s.csr.posY + unitsOf s.csr.tx ≤ (s.mem.left.get p).len ∧
    (s.st = .setup → (s.mem.above.get p).cells.Filled s.csr.posX (unitsOf s.csr.tx) ∧
      (s.mem.left.get p).cells.Filled s.csr.posY (unitsOf s.csr.tx))
  order : s.ScanOrder
  /-- The sizes of the block (10_state.md R20, R22). -/
  sizes : s.st ≠ .setup → s.x.nunits.toNat = unitsOf s.csr.tx ∧ s.x.maxeob.toNat = maxEobOf s.csr.tx
  /-- `C ≤ MAXEOB`, and below it wherever a token is still to be written (10_state.md R22, R24). -/
  position : s.st ≠ .setup → s.x.c.toNat ≤ s.x.maxeob.toNat ∧ (s.st ≠ .edge → s.x.c.toNat < s.x.maxeob.toNat)
  /-- The token cache holds the class of every position decoded (42_context_tracker.md R133). -/
  cache : s.st ≠ .setup → ∀ i, i < s.x.c.toNat → ∃ e, s.tc.read (s.scanPos i).toNat = some e
  /-- The node probabilities in force are those of the position and its context (30_encoding.md R95). -/
  latched : s.st = .eobt ∨ s.st = .zerot ∨ s.st = .onet ∨ s.st = .htok →
    s.x.band = s.bandHere ∧ s.x.p = s.probsHere
  token : s.st = .catx → s.x.token.isCategory

/-! ## Termination (43_token_decoder.md R176) -/

/-- How far a state stands before the end of a pass. -/
def St.rank : St → Nat
  | .select => 7 | .eobt => 6 | .zerot => 5 | .zadv => 4 | .onet => 4 | .htok => 3 | .catx => 2
  | .dqs => 1 | .wrc => 0 | .edge => 0 | .setup => 0 | .idle => 0 | .done => 0 | .fatal => 0

/-- A bound on the sequencer steps that are left in a block decode: eight a position. -/
def State.stepsLeft (s : State) : Nat :=
  if s.st.busy then
    if s.st = .setup then 8 * maxEobOf s.csr.tx + 9
    else 8 * (s.x.maxeob.toNat - s.x.c.toNat) + s.st.rank + 1
  else 0

/-! ## What is read from the stream -/

/-- The bits that reading with the probabilities `pv` in order delivers, and the bool decoder state
afterwards: one bool read per probability (00_scope.md R16). -/
def Params.bitsRead (q : Params) : List Prob → Nat → List Bool × Nat
  | [], bd => ([], bd)
  | p :: pv, bd =>
    let r := q.bitsRead pv (q.boolDecAt bd p).2
    ((q.boolDecAt bd p).1 :: r.1, r.2)

/-- The stream at `bd` delivers the listed bits for the listed probabilities, in order, and stands at
`bd'` afterwards: a stretch of the symbol trace (00_scope.md R16). -/
def Params.Delivers (q : Params) : List (Prob × Bool) → Nat → Nat → Prop
  | [], bd, bd' => bd = bd'
  | (p, b) :: l, bd, bd' => (q.boolDecAt bd p).1 = b ∧ q.Delivers l (q.boolDecAt bd p).2 bd'

/-- The bool reads by which a `HigherToken` tree arrives at a token. -/
inductive HTree.Path : HTree → List (Prob × Bool) → HigherTok → Prop
  | leaf (t : HigherTok) : HTree.Path (.leaf t) [] t
  | left (p : Prob) (a b : HTree) (l : List (Prob × Bool)) (t : HigherTok) :
      HTree.Path a l t → HTree.Path (.node p a b) ((p, false) :: l) t
  | right (p : Prob) (a b : HTree) (l : List (Prob × Bool)) (t : HigherTok) :
      HTree.Path b l t → HTree.Path (.node p a b) ((p, true) :: l) t

/-- The extension probabilities of a token under a bit depth; none for CATEGORY6 without a width
(41_category_value_reader.md R122). -/
def Tables.extVector (t : Tables) (bd : BitVec 4) : Token → Option (List Prob)
  | .cat1 => some (t.catVector 1) | .cat2 => some (t.catVector 2) | .cat3 => some (t.catVector 3)
  | .cat4 => some (t.catVector 4) | .cat5 => some (t.catVector 5)
  | .cat6 => (cat6Bits bd).map (t.cat6Vector bd)
  | .zero | .one | .two | .three | .four | .eob => some []

/-! ## Frames -/

/-- The two states agree on everything but ST, the working registers, CLAMPED, the token cache, the
memory spaces, the bool decoder and COUNT/FINFO: what no operation of the sequencer writes. -/
structure SameSurroundings (s t : State) : Prop where
  resetDone : t.resetDone = s.resetDone
  cfg : t.csr.cfg = s.csr.cfg
  blk0 : t.csr.blk0 = s.csr.blk0
  blkpos : t.csr.blkpos = s.csr.blkpos
  edge : t.csr.edge = s.csr.edge
  tab : t.tab = s.tab
  par : t.par = s.par
  rdata : t.rdata = s.rdata
  elem : t.elem = s.elem
  inputs : t.inputs = s.inputs
  draws : t.draws = s.draws

/-- A counter space after `INC` of the counters `idx`, at most one each: with STATS_EN they went up by 1
modulo 2^32, and every other element is as before (00_scope.md R17). -/
def Counted (en : Bool) (m m' : Cells (BitVec 32)) (idx : List Nat) : Prop :=
  ∀ i, m'.read i = if en = true ∧ i ∈ idx then (m.read i).map (· + 1) else m.read i

/-- No element of a memory space changed but the counters `INC` was performed on: `cnt` and `eobbr` list
their indices. -/
structure OnlyCounted (s t : State) (cnt eobbr : List Nat) : Prop where
  coef : t.mem.coef = s.mem.coef
  above : t.mem.above = s.mem.above
  left : t.mem.left = s.mem.left
  cnt : Counted s.csr.statsEn s.mem.cnt t.mem.cnt cnt
  eobbr : Counted s.csr.statsEn s.mem.eobbr t.mem.eobbr eobbr

/-- With statistics enabled, the counter holds a value (P8 of R192). -/
def CounterReady (s : State) (m : Cells (BitVec 32)) (idx : Nat) : Prop :=
  s.csr.statsEn = true → ∃ n, m.read idx = some n

end Sys2Proof.Machine
end

