-- ==== Sys2Proof/Certificates/Slice0/Obligations.lean ====
section
/-! DEFINITION. The statements about TD, for the provers. -/

open Sys2Proof Sys2Proof.Machine

/-! ## Encodings -/

/-- 30_encoding.md R91: what a word written to CTRL commands, by its bits and in match/mask form; CSRRD
and CSRWR are bus accesses of the offsets and have no command word (so a write of CTRL without a command
is a CSRWR that does nothing, `CsrWriteStoresTheDefinedFields`). -/
def Obligations.CtrlWordsDecodeByTheirLowBits : Prop :=
  (∀ w : Word,
    (w.extractLsb' 2 30 ≠ 0 → decodeCtrl w = none) ∧
    (w.extractLsb' 2 30 = 0 → w.getLsbD 1 = true → decodeCtrl w = some (.srst (w.getLsbD 0))) ∧
    (w.extractLsb' 2 30 = 0 → w.getLsbD 1 = false → w.getLsbD 0 = true → decodeCtrl w = some .start) ∧
    (w = 0 → decodeCtrl w = none) ∧
    ((∃ b, decodeCtrl w = some (.srst b)) ↔ w &&& 0xFFFFFFFE#32 = 0x00000002#32) ∧
    (decodeCtrl w = some .start ↔ w &&& 0xFFFFFFFF#32 = 0x00000001#32) ∧
    decode (.bus true 4 0x00 w) = .ok ((decodeCtrl w).getD (.csrwr .ctrl w))) ∧
  (∀ (r : CsrReg) (d : Word), decode (.bus false 4 r.offset d) = .ok (.csrrd r)) ∧
  (∀ (r : CsrReg) (v : Word), r ≠ .ctrl → decode (.bus true 4 r.offset v) = .ok (.csrwr r v))

/-- Every well-formed instruction that has a word of its own is decoded from it, with every operand at
every value (R90, R91, R94, R103). -/
def Obligations.DecodeInvertsEncode : Prop :=
  ∀ i : Instr, WellFormed i → i.hasOwnWord = true → decode (encode i) = .ok i

/-- An inlined sub-operation has no code of its own: its word is the code of the state it runs in, which
names that state's operation (R103 and the table's `inlined` notes). -/
def Obligations.SubOperationsStandUnderTheirState : Prop :=
  decode (encode .initCtx) = .ok .blockSetup ∧
  decode (encode .ctxUpdate) = .ok .zeroAdvance ∧
  decode (encode .rangeClamp) = .ok .dequantSign ∧
  decode (encode .blockFinish) = .ok .edgeWrite ∧
  ∀ pv, decode (encode (.readCat pv)) = .ok (.readCat [])

/-- R94, R96 to R98, R110: a token with its extension bits and sign is read back from its bits, whatever
bits follow. -/
def Obligations.StatementDecodingInvertsItsBits : Prop :=
  ∀ (bd : BitVec 4) (s : TokenStmt) (rest : List Bool), s.tok ≠ .eob → s.wf bd = true →
    decodeStmt bd (s.bits bd ++ rest) = some (s, rest)

/-- R93, R112: the tokens of a whole block are read back from their bit script, the end-of-block tests at
their places, whatever bits follow; none of those is read. -/
def Obligations.BlockDecodingInvertsItsBits : Prop :=
  ∀ (bd : BitVec 4) (left : Nat) (test : Bool) (ss : List TokenStmt) (rest : List Bool),
    legalBlock bd left test ss = true →
    decodeBlock bd left test (encodeBlock bd test ss ++ rest) = some (ss, rest)

/-- R93, R100: what is read from any bits as the tokens of a block is a legal block, and the bits it was
read from are exactly its bit script. -/
def Obligations.BlockDecodingIsUnambiguous : Prop :=
  ∀ (bd : BitVec 4) (left : Nat) (test : Bool) (bits : List Bool) (ss : List TokenStmt) (rest : List Bool),
    decodeBlock bd left test bits = some (ss, rest) →
    legalBlock bd left test ss = true ∧ bits = encodeBlock bd test ss ++ rest

/-- Words of the opcode table, written out bit by bit, decode to their rows (R91, R94, R103). -/
def Obligations.WrittenOutWordsDecode : Prop :=
  decode (.bus true 4 0x00 0x00000001#32) = .ok .start ∧
  decode (.bus true 4 0x00 0x00000003#32) = .ok (.srst true) ∧
  decode (.bus false 4 0x18 0#32) = .ok (.csrrd .count) ∧
  decode (.bus true 4 0x0C 0x00000025#32) = .ok (.csrwr .blk0 0x00000025#32) ∧
  decode (.eobSlot [false]) = .ok .eob ∧
  decode (.tokenSlot [true, true, false, true, false, true]) = .ok .three ∧
  decode (.tokenSlot [true, true, true, true, false, true, true, true, true, true, false]) = .ok .cat4 ∧
  decode (.op 0b1011#4) = .ok .edgeWrite

/-- 10_state.md R25: the codes 0, 12 and 15 name no operation, the codes 13 and 14 are reserved. -/
def Obligations.StateCodesWithoutOperation : Prop :=
  ∀ c : BitVec 4, (∃ e, decode (.op c) = .error e) ↔ (c = 0 ∨ c = 12 ∨ c = 13 ∨ c = 14 ∨ c = 15)

/-! ## A step -/

/-- 10_state.md R25: while a block decode runs, the operation that runs next is that of ST's code; in CATX it
is the category token that TOKEN holds. That a step with nothing pending, or with an idle tick pending,
runs exactly one such operation is the model's choice (DESIGN CHOICE, notes/assumptions/10.md). -/
def Obligations.StepRunsTheOperationOfST : Prop :=
  (∀ (s : State) (i : Instr), s.resetDone = true → s.st.busy = true →
    (if s.st = .catx then s.x.token.isCategory ∧ i = s.x.token.instr
      else decode (.op s.st.code) = .ok i) →
    (s.inputs = [] → step s = exec i s) ∧
    (∀ rest, s.inputs = .tick :: rest → step s = exec i (s.setInputs rest)))

/-- A host access of the CSR block, word-wide or by byte lanes, runs the instruction it decodes to; an
opcode-table word placed by `withFetchWord` runs its row's instruction. How accesses are queued and
words are placed is the model's choice (notes/assumptions/10.md, 11.md). -/
def Obligations.StepRunsTheDecodedAccess : Prop :=
  ∀ (s : State) (i : Instr), s.resetDone = true →
    (∀ wr size off data rest, s.inputs = .bus wr size off data :: rest →
      decode (.bus wr size off data) = .ok i → step s = exec i (s.setInputs rest)) ∧
    (∀ off b0 b1 b2 b3 rest, s.inputs = .busLanes off b0 b1 b2 b3 :: rest →
      s.par.csrByteOrder = .little → decode (.bus true 4 off (b3 ++ b2 ++ b1 ++ b0)) = .ok i →
      step s = exec i (s.setInputs rest)) ∧
    (∀ off rest, s.inputs = .busLanesRead off :: rest → decode (.bus false 4 off 0) = .ok i →
      step s = exec i (s.setInputs rest)) ∧
    (∀ nbits w, decodeTableWord nbits w = some i → step (s.withFetchWord nbits w) = exec i s)

/-- 20_memory.md R66: an access that is not an aligned 32-bit access of one of the eight words is refused,
word-wide or by byte lanes. -/
def Obligations.UndefinedCsrAccessIsRefused : Prop :=
  ∀ (s : State) (rest : List Input), s.resetDone = true →
    (∀ wr size off data, s.inputs = .bus wr size off data :: rest → (size ≠ 4 ∨ off % 4 ≠ 0 ∨ 0x20 ≤ off) →
      step s = .refused .csrAccess) ∧
    (∀ off b0 b1 b2 b3, s.inputs = .busLanes off b0 b1 b2 b3 :: rest → (off % 4 ≠ 0 ∨ 0x20 ≤ off) →
      step s = .refused .csrAccess) ∧
    (∀ off, s.inputs = .busLanesRead off :: rest → (off % 4 ≠ 0 ∨ 0x20 ≤ off) → step s = .refused .csrAccess)

/-- 10_state.md R25, 60_exceptions.md R214: with nothing pending IDLE and DONE wait, and FATAL is a fault
(that the fault is the outcome of the step is the model's choice, notes/assumptions/9.md). -/
def Obligations.SequencerRestsOutsideADecode : Prop :=
  ∀ s : State, s.resetDone = true → s.inputs = [] →
    ((s.st = .idle ∨ s.st = .done) → step s = .next s) ∧
    (s.st = .fatal → step s = .fault (.fatalStop s.csr.fcode s.csr.fpos))

/-- 70_reset_and_hazards.md R243, 93_implementation_defined.md U8: before the first reset after power-up a
host command (R201 lists them) is refused. That a step with nothing pending, an idle tick, an operation
word, an undefined CSR access, an element access, a fill, a supplied array, a table load and a stream positioning are
refused there too is the model's inference from "nothing of TD has a defined value, ST included" (DEDUCED,
notes/assumptions/18.md). -/
def Obligations.NothingBeforeTheFirstReset : Prop :=
  ∀ s : State, s.resetDone = false →
    (s.inputs = [] → step s = .refused .beforeReset) ∧
    (∀ inp rest, s.inputs = inp :: rest → inp ≠ .rst → step s = .refused .beforeReset) ∧
    (∀ rest, s.inputs = .rst :: rest → ∃ t, step s = .next t ∧ t.resetDone = true ∧ t.st = .idle)

/-! ## Reset -/

/-- 70_reset_and_hazards.md R241: the control state after reset. -/
def Obligations.ControlStateAfterReset : Prop :=
  State.reset.st = .idle ∧ State.reset.clamped = false ∧ (∀ r, State.reset.csrWord r = 0x00000000#32) ∧
  (∀ s : State, s.csrWord .ctrl = 0x00000000#32) ∧
  State.reset.csr.bd = 0 ∧ State.reset.csr.statsEn = false ∧ State.reset.csr.rangeEn = false ∧
  State.reset.csr.tx = 0 ∧ State.reset.csr.plane = 0 ∧ State.reset.csr.ptype = false ∧
  State.reset.csr.ref = false ∧ State.reset.csr.seg = 0 ∧ State.reset.csr.scanid = 0 ∧
  State.reset.csr.dr = 0 ∧ State.reset.csr.db = 0 ∧ State.reset.csr.fcode = 0

/-- 70_reset_and_hazards.md R240: the two sources of the reset operation have the same effect, in every
state; CTRL with START and SRST performs SRST. -/
def Obligations.ResetOperationWritesTheControlState : Prop :=
  ∀ s : State, ∃ t, (∀ b, exec (.srst b) s = .next t) ∧
    (∀ u rest, u.inputs = .rst :: rest → u.setInputs rest = s → step u = .next t) ∧
    (∀ u v rest, u.resetDone = true → u.inputs = .bus true 4 0x00 v :: rest → u.setInputs rest = s →
      (v = 0x00000002#32 ∨ v = 0x00000003#32) → step u = .next t) ∧
    t.st = .idle ∧ t.clamped = false ∧ t.statusWord = 0x00000000#32 ∧ t.csr.cfg = 0 ∧ t.csr.blk0 = 0 ∧
    t.csr.blkpos = 0 ∧ t.csr.edge = 0 ∧ t.csr.count = 0 ∧ t.csr.fcode = 0 ∧ t.csr.fpos = 0

/-- 70_reset_and_hazards.md R242: what reset does not write. After a reset that abandons a block decode
the elements the decode could reach hold no value and all others are as before (the choice of U7 that
the model takes, notes/assumptions/8.md). -/
def Obligations.ResetKeepsWhatItDoesNotWrite : Prop :=
  ∀ (s : State) (b : Bool), ∃ t, exec (.srst b) s = .next t ∧
    t.x = s.x ∧ t.tc = s.tc ∧ t.tab = s.tab ∧ t.par = s.par ∧ t.rdata = s.rdata ∧ t.elem = s.elem ∧
    t.inputs = s.inputs ∧
    (s.st.busy = false → t.mem = s.mem ∧ t.bd = s.bd) ∧
    (s.st.busy = true → ∀ q : Plane,
      (∀ i, (t.mem.coef.get q).read i =
        if planeOf s.csr.plane = some q ∧ i < maxEobOf s.csr.tx then none
        else (s.mem.coef.get q).read i) ∧
      (∀ i, (t.mem.above.get q).cells.read i =
        if planeOf s.csr.plane = some q ∧ s.csr.posX ≤ i ∧ i < s.csr.posX + unitsOf s.csr.tx then none
        else (s.mem.above.get q).cells.read i) ∧
      (∀ i, (t.mem.left.get q).cells.read i =
        if planeOf s.csr.plane = some q ∧ s.csr.posY ≤ i ∧ i < s.csr.posY + unitsOf s.csr.tx then none
        else (s.mem.left.get q).cells.read i) ∧
      (t.mem.above.get q).len = (s.mem.above.get q).len ∧ (t.mem.left.get q).len = (s.mem.left.get q).len) ∧
    (s.st.busy = true → ∀ i,
      (t.mem.cnt.read i =
        if s.csr.statsEn = true ∧ s.cntPrefixHere * 144 ≤ i ∧ i < (s.cntPrefixHere + 1) * 144 then none
        else s.mem.cnt.read i) ∧
      (t.mem.eobbr.read i =
        if s.csr.statsEn = true ∧ s.cntPrefixHere * 36 ≤ i ∧ i < (s.cntPrefixHere + 1) * 36 then none
        else s.mem.eobbr.read i))

/-! ## Host commands -/

/-- 45_block_decode_and_host.md R190, R192, 92_eei_decisions.md D3: from IDLE or DONE, START begins a block
decode, with BUSY = 1, DONE = 0 and CLAMPED = 0, when the host preconditions P1, P3, P4, P5, P6 hold, and is
refused otherwise. That P2, P7 and P9 are not checked, that P8 is decided where a counter is reached
(`CounterWithoutValueIsRefused`), and that the step of START ends before SETUP, which runs in the next one,
are the model's choices (notes/assumptions/3.md, 6.md, 10.md, 24.md); that CLAMPED is cleared in both of
these steps is DEDUCED (23.md). -/
def Obligations.StartRunsExactlyWhenReady : Prop :=
  ∀ s : State, (s.st = .idle ∨ s.st = .done) →
    (∀ p, s.Ready p → ∃ t, exec .start s = .next t ∧ t = { s with clamped := false, st := .setup } ∧
      t.statusWord = 0x00000001#32) ∧
    ((¬ ∃ p, s.Ready p) → ∃ q, exec .start s = .refused (.precondition q))

/-- R190: a START while busy or in FATAL is ignored. -/
def Obligations.StartIsIgnoredWhileBusyOrFatal : Prop :=
  ∀ s : State, (s.st.busy = true ∨ s.st = .fatal) → exec .start s = .next s

/-- 10_state.md R32: STATUS, read-only at offset 0x04, is a function of ST and CLAMPED. -/
def Obligations.StatusIsAFunctionOfStAndClamped : Prop :=
  ∀ s : State,
    (s.statusWord.getLsbD 0 = true ↔ 1 ≤ s.st.code.toNat ∧ s.st.code.toNat ≤ 11) ∧
    (s.statusWord.getLsbD 1 = true ↔ s.st = .done) ∧
    (s.statusWord.getLsbD 2 = true ↔ s.st = .fatal) ∧
    (s.statusWord.getLsbD 3 = s.clamped) ∧
    s.statusWord.extractLsb' 4 28 = 0 ∧
    (s.statusWord.extractLsb' 0 3 = 0 ∨ s.statusWord.extractLsb' 0 3 = 1 ∨
      s.statusWord.extractLsb' 0 3 = 2 ∨ s.statusWord.extractLsb' 0 3 = 4) ∧
    State.reset.statusWord = 0#32 ∧
    (∀ d, decode (.bus false 4 0x04 d) = .ok (.csrrd .status)) ∧
    (exec (.csrrd .status) s = .next { s with rdata := s.statusWord }) ∧
    (∀ v, exec (.csrwr .status v) s = .next s)

/-- 45_block_decode_and_host.md R198: a read returns the register's word, its reserved bits 0, and
changes nothing; CTRL reads 0. While BUSY only STATUS can be read. -/
def Obligations.CsrReadReturnsTheWord : Prop :=
  ∀ (s : State) (r : CsrReg), (s.st.busy = false ∨ r = .status) →
    ∃ w : Word, exec (.csrrd r) s = .next { s with rdata := w } ∧
      (r = .ctrl → w = 0) ∧
      (r = .status → w = s.statusWord) ∧
      (r = .cfg → w.extractLsb' 0 4 = s.csr.bd ∧ w.getLsbD 4 = s.csr.statsEn ∧
        w.getLsbD 5 = s.csr.rangeEn ∧ w.extractLsb' 6 26 = 0) ∧
      (r = .blk0 → w.extractLsb' 0 2 = s.csr.tx ∧ w.extractLsb' 2 2 = s.csr.plane ∧
        w.getLsbD 4 = s.csr.ptype ∧ w.getLsbD 5 = s.csr.ref ∧ w.extractLsb' 6 3 = s.csr.seg ∧
        w.extractLsb' 9 4 = s.csr.scanid ∧ w.extractLsb' 13 19 = 0) ∧
      (r = .blkpos → (w.extractLsb' 0 16).toNat = s.csr.posX ∧ (w.extractLsb' 16 16).toNat = s.csr.posY) ∧
      (r = .edge → (w.extractLsb' 0 16).toInt = s.csr.dr ∧ (w.extractLsb' 16 16).toInt = s.csr.db) ∧
      (r = .count → w.toNat = s.csr.count.toNat) ∧
      (r = .finfo → w.toNat = s.csr.fcode.toNat + 16 * s.csr.fpos.toNat)

/-- The bits of a RW register that are defined (10_state.md R33 to R36). -/
def definedBits : CsrReg → Word
  | .cfg => 0x0000003F | .blk0 => 0x00001FFF | .blkpos => 0xFFFFFFFF | .edge => 0xFFFFFFFF
  | .ctrl => 0 | .status => 0 | .count => 0 | .finfo => 0

/-- 45_block_decode_and_host.md R199: a write of a RW register with BUSY = 0 stores its defined fields,
drops the reserved bits and changes no other register; a write of a read-only register does nothing; a
write of CTRL is START, SRST or nothing (the write of 0 with BUSY = 0; while BUSY it is refused,
`HostAccessWhileBusyIsRefused`). -/
def Obligations.CsrWriteStoresTheDefinedFields : Prop :=
  (∀ (s : State) (r : CsrReg) (v : Word), r.rw = true → s.st.busy = false →
    ∃ c : Csrs, exec (.csrwr r v) s = .next { s with csr := c } ∧
      State.csrWord { s with csr := c } r = v &&& definedBits r ∧
      ∀ r', r' ≠ r → State.csrWord { s with csr := c } r' = s.csrWord r') ∧
  (∀ (s : State) (r : CsrReg) (v : Word), (r = .status ∨ r = .count ∨ r = .finfo) →
    exec (.csrwr r v) s = .next s) ∧
  (∀ (s : State) (v : Word),
    (v = 1 → exec (.csrwr .ctrl v) s = exec .start s) ∧
    ((v = 2 ∨ v = 3) → ∀ b, exec (.csrwr .ctrl v) s = exec (.srst b) s) ∧
    (v ≠ 1 → v ≠ 2 → v ≠ 3 → (v ≠ 0 ∨ s.st.busy = false) → exec (.csrwr .ctrl v) s = .next s))

/-- 10_state.md R33 to R36, 30_encoding.md R99: where each field stands in the word that is written. -/
def Obligations.CsrFieldsAreTheBitsWritten : Prop :=
  ∀ (s : State) (v : Word), s.st.busy = false →
    (∃ t, exec (.csrwr .cfg v) s = .next t ∧ t.csr.bd = v.extractLsb' 0 4 ∧
      t.csr.statsEn = v.getLsbD 4 ∧ t.csr.rangeEn = v.getLsbD 5) ∧
    (∃ t, exec (.csrwr .blk0 v) s = .next t ∧ t.csr.tx = v.extractLsb' 0 2 ∧
      t.csr.plane = v.extractLsb' 2 2 ∧ t.csr.ptype = v.getLsbD 4 ∧ t.csr.ref = v.getLsbD 5 ∧
      t.csr.seg = v.extractLsb' 6 3 ∧ t.csr.scanid = v.extractLsb' 9 4) ∧
    (∃ t, exec (.csrwr .blkpos v) s = .next t ∧ t.csr.posX = v.toNat % 65536 ∧
      t.csr.posY = v.toNat / 65536) ∧
    (∃ t, exec (.csrwr .edge v) s = .next t ∧
      t.csr.dr = (if v.toNat % 65536 < 32768 then (v.toNat % 65536 : Int) else v.toNat % 65536 - 65536) ∧
      t.csr.db = (if v.toNat / 65536 < 32768 then (v.toNat / 65536 : Int) else v.toNat / 65536 - 65536))

/-- 70_reset_and_hazards.md R247: while BUSY a host access other than reading STATUS and writing CTRL with
SRST is refused, but for the writes to which another rule gives an effect: START and a CTRL word with a
reserved bit set are ignored (R190, R91), a read-only register ignores writes (R199). That these are not
refused is DEDUCED (notes/assumptions/7.md). -/
def Obligations.HostAccessWhileBusyIsRefused : Prop :=
  (∀ (s : State) (r : CsrReg), s.st.busy = true → r ≠ .status →
    exec (.csrrd r) s = .refused .hostWhileBusy) ∧
  (∀ s : State, s.st.busy = true → exec (.csrwr .ctrl 0) s = .refused .hostWhileBusy) ∧
  (∀ (s : State) (r : CsrReg) (v : Word), s.st.busy = true → r.rw = true →
    exec (.csrwr r v) s = .refused .hostWhileBusy) ∧
  (∀ (s : State) (inp : Input) (rest : List Input), s.resetDone = true → s.st.busy = true →
    s.inputs = inp :: rest →
    ((∃ sp i v, inp = .storeWrite sp i v) ∨ (∃ sp i, inp = .storeRead sp i) ∨
      (∃ sp v, inp = .storeFill sp v) ∨ (∃ d p n, inp = .supplyArray d p n) ∨
      (∃ t, inp = .loadTables t) ∨ (∃ bd, inp = .positionStream bd)) →
    step s = .refused .hostWhileBusy)

/-- 10_state.md R40, 00_scope.md R15: between block decodes the host writes one element of a space and reads
it back; every other element of every space is as before. That a written integer is cut to the
element's width, that a flag is set by any value but 0, and that an index outside the space is refused
(R66 refuses the slices of a START) are the model's choices (DESIGN CHOICE, notes/assumptions/22.md). -/
def Obligations.HostElementAccess : Prop :=
  ∀ (s : State) (sp : Store) (i : Nat), s.resetDone = true → s.st.busy = false →
    (i < sp.size s.mem →
      (∀ v rest, s.inputs = .storeWrite sp i v :: rest →
        ∃ m, step s = .next { s with mem := m, inputs := rest } ∧
          sp.read m i = some (match sp with
            | .coef _ => (BitVec.ofInt 36 v).toInt
            | .above _ | .left _ => if v = 0 then 0 else 1
            | .cnt | .eobbr => v % 4294967296) ∧
          (∀ sp' j, (sp' ≠ sp ∨ j ≠ i) → sp'.read m j = sp'.read s.mem j) ∧
          ∀ q, (m.above.get q).len = (s.mem.above.get q).len ∧ (m.left.get q).len = (s.mem.left.get q).len) ∧
      (∀ rest, s.inputs = .storeRead sp i :: rest →
        step s = .next { s with elem := sp.read s.mem i, inputs := rest })) ∧
    (sp.size s.mem ≤ i → ∀ inp rest, s.inputs = inp :: rest →
      (inp = .storeRead sp i ∨ ∃ v, inp = .storeWrite sp i v) → step s = .refused (.outsideSpace sp))

/-! ## Tokens -/

/-- 43_token_decoder.md R149: EOB is counted and ends the block; C and everything else stay. -/
def Obligations.EobEndsTheBlock : Prop :=
  ∀ s : State,
    CounterReady s s.mem.cnt (cntIndex s.csr.tx s.csr.ptype s.csr.ref s.x.band s.x.ctx .eob) →
    ∃ t, exec .eob s = .next t ∧ t.st = .edge ∧ t.x = s.x ∧ t.tc = s.tc ∧ t.csr = s.csr ∧ t.bd = s.bd ∧
      t.clamped = s.clamped ∧ SameSurroundings s t ∧
      OnlyCounted s t [cntIndex s.csr.tx s.csr.ptype s.csr.ref s.x.band s.x.ctx .eob] []

/-- R151: ONE is counted, TOKEN and VAL become 1. -/
def Obligations.OneHasMagnitudeOne : Prop :=
  ∀ s : State,
    CounterReady s s.mem.cnt (cntIndex s.csr.tx s.csr.ptype s.csr.ref s.x.band s.x.ctx .one) →
    ∃ t, exec .one s = .next t ∧ t.st = .dqs ∧ t.x = { s.x with token := .one, val := 1 } ∧ t.tc = s.tc ∧
      t.csr = s.csr ∧ t.bd = s.bd ∧ t.clamped = s.clamped ∧ SameSurroundings s t ∧
      OnlyCounted s t [cntIndex s.csr.tx s.csr.ptype s.csr.ref s.x.band s.x.ctx .one] []

/-- R152, R153, R154: TWO, THREE and FOUR load their ordinal and change nothing else. -/
def Obligations.SmallTokensLoadTheirOrdinal : Prop :=
  ∀ s : State,
    exec .two s = .next { s with x := { s.x with val := 2 }, st := .dqs } ∧
    exec .three s = .next { s with x := { s.x with val := 3 }, st := .dqs } ∧
    exec .four s = .next { s with x := { s.x with val := 4 }, st := .dqs }

/-- R150: a ZERO token at the last position of the block (as token ZERO and as operation ZERO_ADVANCE):
counted, its cache entry 0, C advanced, nothing re-latched, no coefficient written, to EDGE. -/
def Obligations.ZeroAtTheLastPosition : Prop :=
  ∀ (s : State) (i : Instr), (i = .zero ∨ i = .zeroAdvance) → s.x.c + 1 = s.x.maxeob →
    CounterReady s s.mem.cnt (cntIndex s.csr.tx s.csr.ptype s.csr.ref s.x.band s.x.ctx .zero) →
    ∃ t, exec i s = .next t ∧ t.st = .edge ∧
      t.x = { s.x with
        dqsel := match s.par.zrunDq with
          | .keep => s.x.dqsel
          | .setFirst => false
          | .setSecond => true
        pos := s.scanPos s.x.c.toNat
        c := s.x.c + 1 } ∧
      (∀ q, t.tc.read q = if q = (s.scanPos s.x.c.toNat).toNat then some 0 else s.tc.read q) ∧
      t.csr = s.csr ∧ t.bd = s.bd ∧ t.clamped = s.clamped ∧ SameSurroundings s t ∧
      OnlyCounted s t [cntIndex s.csr.tx s.csr.ptype s.csr.ref s.x.band s.x.ctx .zero] []

/-- R150, R133: a ZERO token before the last position: counted at its own band and context, its cache entry
0, C advanced; then the context, the band and the node probabilities of the new position, and under
PER_POSITION the branch counter of that position; to ZEROT. A neighbour without a value is refused. -/
def Obligations.ZeroBeforeTheLastPosition : Prop :=
  ∀ (s : State) (i : Instr) (ctx' band' : BitVec 3), (i = .zero ∨ i = .zeroAdvance) →
    s.x.c + 1 ≠ s.x.maxeob →
    CounterReady s s.mem.cnt (cntIndex s.csr.tx s.csr.ptype s.csr.ref s.x.band s.x.ctx .zero) →
    let pos := s.scanPos s.x.c.toNat
    let n0 := s.nbPos (s.x.c + 1).toNat false
    let n1 := s.nbPos (s.x.c + 1).toNat true
    let cache := fun q : Nat => if q = pos.toNat then some 0 else s.tc.read q
    (∀ e0 e1 : BitVec 3, cache n0.toNat = some e0 → cache n1.toNat = some e1 →
      ctx' = s.par.ctxForAt e0 e1 → band' = s.tab.bandAt s.csr.tx (s.x.c + 1).toNat →
      (s.par.eobbrPolicy = .perPosition →
        CounterReady s s.mem.eobbr (eobbrIndex s.csr.tx s.csr.ptype s.csr.ref band' ctx')) →
      ∃ t, exec i s = .next t ∧ t.st = .zerot ∧
        t.x = { s.x with
          dqsel := match s.par.zrunDq with
            | .keep => s.x.dqsel
            | .setFirst => false
            | .setSecond => true
          pos := pos
          c := s.x.c + 1
          ctx := ctx'
          band := band'
          p := s.tab.probAt s.csr.tx s.csr.ptype s.csr.ref band' ctx' } ∧
        (∀ q, t.tc.read q = cache q) ∧
        t.csr = s.csr ∧ t.bd = s.bd ∧ t.clamped = s.clamped ∧ SameSurroundings s t ∧
        OnlyCounted s t [cntIndex s.csr.tx s.csr.ptype s.csr.ref s.x.band s.x.ctx .zero]
          (match s.par.eobbrPolicy with
            | .perPosition => [eobbrIndex s.csr.tx s.csr.ptype s.csr.ref band' ctx']
            | .perEobTest => [])) ∧
    ((cache n0.toNat = none ∨ cache n1.toNat = none) → exec i s = .refused .nbIllFormed)

/-- 41_category_value_reader.md R121 (and R120, R123): READ_CAT makes exactly one bool read per
probability, in order, whatever the bits are; EXT is their number, most significant bit first, and BITI
their count; nothing else changes. -/
def Obligations.ReadCatReadsExactlyItsVector : Prop :=
  ∀ (s : State) (pv : List Prob), pv.length ≤ 18 →
    ∃ (t : State) (bits : List Bool), exec (.readCat pv) s = .next t ∧ bits.length = pv.length ∧
      s.par.Delivers (pv.zip bits) s.bd t.bd ∧
      t.x.ext.toNat = ofBitsMsb bits ∧ t.x.ext.toNat < 2 ^ pv.length ∧ t.x.biti.toNat = pv.length ∧
      t = { s with x := { s.x with ext := t.x.ext, biti := t.x.biti }, bd := t.bd }

/-- R155 to R159, 30_encoding.md R96: CATEGORY1 to CATEGORY5 read their extension bits with their own
vector and load base plus extension. -/
def Obligations.CategoriesLoadBasePlusExtension : Prop :=
  ∀ (s : State) (i : Instr) (k base : Nat),
    ((i, k, base) = (.cat1, 1, 5) ∨ (i, k, base) = (.cat2, 2, 7) ∨ (i, k, base) = (.cat3, 3, 11) ∨
      (i, k, base) = (.cat4, 4, 19) ∨ (i, k, base) = (.cat5, 5, 35)) →
    ∃ (t : State) (bits : List Bool), exec i s = .next t ∧ bits.length = k ∧
      s.par.Delivers (((List.range k).map (s.tab.catpAt k)).zip bits) s.bd t.bd ∧
      t.x.val.toNat = base + ofBitsMsb bits ∧ t.x.ext.toNat = ofBitsMsb bits ∧ t.x.biti.toNat = k ∧
      t = { s with
        x := { s.x with ext := t.x.ext, biti := t.x.biti, val := t.x.val }, bd := t.bd, st := .dqs }

/-- R160, R97, R123: CATEGORY6 reads exactly 14, 16 or 18 extension bits at bit depth 8, 10 or 12, with the
vector of that depth, and loads 67 plus the extension. -/
def Obligations.Category6WidthFollowsTheBitDepth : Prop :=
  ∀ (s : State) (w : Nat),
    ((s.csr.bd = 8 ∧ w = 14) ∨ (s.csr.bd = 10 ∧ w = 16) ∨ (s.csr.bd = 12 ∧ w = 18)) →
    ∃ (t : State) (bits : List Bool), exec .cat6 s = .next t ∧ bits.length = w ∧
      s.par.Delivers (((List.range w).map (s.tab.catp6At s.csr.bd)).zip bits) s.bd t.bd ∧
      t.x.val.toNat = 67 + ofBitsMsb bits ∧ t.x.ext.toNat = ofBitsMsb bits ∧ t.x.biti.toNat = w ∧
      t = { s with
        x := { s.x with ext := t.x.ext, biti := t.x.biti, val := t.x.val }, bd := t.bd, st := .dqs }

/-- 60_exceptions.md R214 (and R210): CATEGORY6 at any other bit depth takes the fatal entry: FINFO records
the cause and C, ST becomes FATAL, nothing else changes; no bit is read. -/
def Obligations.Category6BitDepthIsFatal : Prop :=
  ∀ s : State, s.csr.bd ≠ 8 → s.csr.bd ≠ 10 → s.csr.bd ≠ 12 →
    ∃ t, exec .cat6 s = .next t ∧
      t = { s with csr := { s.csr with fcode := 1, fpos := s.x.c }, st := .fatal } ∧
      t.statusWord.getLsbD 2 = true ∧ t.statusWord.getLsbD 0 = false ∧ t.statusWord.getLsbD 1 = false

/-! ## Operations of the decoder -/

/-- R141: BAND of the decode position and the node probabilities of (BAND, CTX). -/
def Obligations.BandSelectLatchesTheRow : Prop :=
  ∀ s : State, exec .bandCtxSelect s = .next { s with
    x := { s.x with
      band := s.tab.bandAt s.csr.tx s.x.c.toNat
      p := s.tab.probAt s.csr.tx s.csr.ptype s.csr.ref (s.tab.bandAt s.csr.tx s.x.c.toNat) s.x.ctx }
    st := .eobt }

/-- R142, R149: the end-of-block test counts the branch counter, makes one bool read with `P.eob`; bit 0 is
the EOB token, bit 1 goes on to ZEROT. Of the EOB counter a value is asked only on bit 0, which reaches it
(notes/assumptions/24.md). -/
def Obligations.EobTestReadsOneBit : Prop :=
  ∀ (s : State) (b : Bool) (bd' : Nat), s.par.Delivers [(s.x.p.eob, b)] s.bd bd' →
    CounterReady s s.mem.eobbr (eobbrIndex s.csr.tx s.csr.ptype s.csr.ref s.x.band s.x.ctx) →
    (b = false →
      CounterReady s s.mem.cnt (cntIndex s.csr.tx s.csr.ptype s.csr.ref s.x.band s.x.ctx .eob)) →
    ∃ t, exec .eobTest s = .next t ∧ t.bd = bd' ∧
      t.st = (if b = false then .edge else .zerot) ∧ t.x = s.x ∧ t.tc = s.tc ∧ t.csr = s.csr ∧
      t.clamped = s.clamped ∧ SameSurroundings s t ∧
      OnlyCounted s t
        (if b = false then [cntIndex s.csr.tx s.csr.ptype s.csr.ref s.x.band s.x.ctx .eob] else [])
        [eobbrIndex s.csr.tx s.csr.ptype s.csr.ref s.x.band s.x.ctx]

/-- R143: the zero test makes one bool read with `P.zero`: bit 0 to ZADV, bit 1 to ONET. -/
def Obligations.ZeroTestReadsOneBit : Prop :=
  ∀ s : State, ∃ t b, exec .zeroTest s = .next t ∧ s.par.Delivers [(s.x.p.zero, b)] s.bd t.bd ∧
    t = { s with bd := t.bd, st := if b = false then .zadv else .onet }

/-- R144, R151: the one test makes one bool read with `P.one`; bit 0 is the ONE token, bit 1 counts MORE
and goes on to HTOK. Exactly one of the two counters goes up, and only of that one a value is asked
(notes/assumptions/24.md). -/
def Obligations.OneTestReadsOneBit : Prop :=
  ∀ (s : State) (b : Bool) (bd' : Nat), s.par.Delivers [(s.x.p.one, b)] s.bd bd' →
    CounterReady s s.mem.cnt
      (cntIndex s.csr.tx s.csr.ptype s.csr.ref s.x.band s.x.ctx (if b = false then .one else .more)) →
    ∃ t, exec .oneTest s = .next t ∧ t.bd = bd' ∧
      t.st = (if b = false then .dqs else .htok) ∧
      t.x = (if b = false then { s.x with token := .one, val := 1 } else s.x) ∧ t.tc = s.tc ∧
      t.csr = s.csr ∧ t.clamped = s.clamped ∧ SameSurroundings s t ∧
      OnlyCounted s t
        [cntIndex s.csr.tx s.csr.ptype s.csr.ref s.x.band s.x.ctx (if b = false then .one else .more)] []

/-- R145, R152 to R154: HIGHER_TOKEN makes the bool reads of the pivot's distribution, in order; TOKEN is
the token they arrive at; TWO, THREE, FOUR load VAL and go to DQS, a category goes to CATX. -/
def Obligations.HigherTokenFollowsThePivot : Prop :=
  ∀ s : State, ∃ t path tok, exec .higherToken s = .next t ∧
    HTree.Path (s.par.higherTokenAt s.x.p.pivot) path tok ∧ s.par.Delivers path s.bd t.bd ∧
    t = { s with
      x := { s.x with
        token := tok.token
        val := match tok with
          | .two => 2
          | .three => 3
          | .four => 4
          | .cat1 | .cat2 | .cat3 | .cat4 | .cat5 | .cat6 => s.x.val }
      bd := t.bd
      st := match tok with
        | .two | .three | .four => .dqs
        | .cat1 | .cat2 | .cat3 | .cat4 | .cat5 | .cat6 => .catx }

/-- R165, R166, R167, 30_encoding.md R98: the product is exact and shifted once at the largest size, the
sign is one bool read with PROB_HALF after it, bit 1 negates; with RANGE_EN the signed value is clamped
to the limits and CLAMPED is set if that changed it. -/
def Obligations.DequantSignIsExact : Prop :=
  ∀ s : State, ∃ t b, exec .dequantSign s = .next t ∧ s.par.Delivers [(128#8, b)] s.bd t.bd ∧
    t.x.v.toNat =
      (if s.csr.tx = 3 then s.x.val.toNat * (s.tab.dqAt s.csr.seg s.csr.plane s.x.dqsel).toNat / 2
        else s.x.val.toNat * (s.tab.dqAt s.csr.seg s.csr.plane s.x.dqsel).toNat) ∧
    (let signed : Int := if b then -(t.x.v.toNat : Int) else t.x.v.toNat
     let lim := s.par.rangeLimitsAt s.csr.bd
     let clamped : Int := min (max signed (-(lim.below : Int))) lim.above
     t.x.coefv.toInt = (if s.csr.rangeEn then clamped else signed) ∧
     t.clamped = (s.clamped || (s.csr.rangeEn && decide (clamped ≠ signed)))) ∧
    t = { s with
      x := { s.x with v := t.x.v, coefv := t.x.coefv }, bd := t.bd, clamped := t.clamped, st := .wrc }

/-- R166: RANGE_CLAMP by itself: clamped, never rejected, and CLAMPED set only by a change. -/
def Obligations.RangeClampKeepsTheLimits : Prop :=
  ∀ s : State, ∃ t, exec .rangeClamp s = .next t ∧
    (let lim := s.par.rangeLimitsAt s.csr.bd
     t.x.coefv.toInt = min (max s.x.coefv.toInt (-(lim.below : Int))) lim.above ∧
     -(lim.below : Int) ≤ t.x.coefv.toInt ∧ t.x.coefv.toInt ≤ lim.above) ∧
    t.clamped = (s.clamped || decide (t.x.coefv.toInt ≠ s.x.coefv.toInt)) ∧
    t = { s with x := { s.x with coefv := t.x.coefv }, clamped := t.clamped }

/-- R170, R133: WRITE_CACHE stores COEFV at the scan-mapped position of the plane's buffer and nowhere
else, records the energy class of the token there, advances C, sets DQSEL; before the last position the
context of the new position is loaded and SELECT follows, at the last one EDGE. Before the last position
a neighbour without a value is refused. -/
def Obligations.WriteCacheStoresOneCoefficient : Prop :=
  ∀ (s : State) (p : Plane), planeOf s.csr.plane = some p →
    let pos := s.scanPos s.x.c.toNat
    let cache := fun q : Nat =>
      if q = pos.toNat then some (s.par.energyClassAt s.x.token) else s.tc.read q
    let n0 := s.nbPos (s.x.c + 1).toNat false
    let n1 := s.nbPos (s.x.c + 1).toNat true
    ((s.x.c + 1).toNat < s.x.maxeob.toNat → (cache n0.toNat = none ∨ cache n1.toNat = none) →
      exec .writeCache s = .refused .nbIllFormed) ∧
    ∀ ctx' : BitVec 3,
    ((s.x.c + 1 = s.x.maxeob ∧ ctx' = s.x.ctx) ∨
      ((s.x.c + 1).toNat < s.x.maxeob.toNat ∧ ∃ e0 e1, cache n0.toNat = some e0 ∧
        cache n1.toNat = some e1 ∧ ctx' = s.par.ctxForAt e0 e1)) →
    ∃ t, exec .writeCache s = .next t ∧
      t.st = (if s.x.c + 1 = s.x.maxeob then .edge else .select) ∧
      t.x = { s.x with pos := pos, c := s.x.c + 1, ctx := ctx', dqsel := true } ∧
      (∀ q, t.tc.read q = cache q) ∧
      (∀ (q : Plane) (a : Nat), (t.mem.coef.get q).read a =
        if q = p ∧ a = pos.toNat then some s.x.coefv else (s.mem.coef.get q).read a) ∧
      t.mem = { s.mem with coef := t.mem.coef } ∧
      t.csr = s.csr ∧ t.bd = s.bd ∧ t.clamped = s.clamped ∧ SameSurroundings s t

/-- 42_context_tracker.md R133: CTX_UPDATE loads the context of the two neighbours' classes and changes
nothing else; a neighbour without a value is refused. -/
def Obligations.CtxUpdateReadsTwoNeighbours : Prop :=
  ∀ s : State,
    let e := fun j => s.tc.read (s.tab.nbAt s.csr.scanid s.csr.tx s.x.c.toNat j).toNat
    (∀ e0 e1, e false = some e0 → e true = some e1 →
      exec .ctxUpdate s = .next { s with x := { s.x with ctx := s.par.ctxForAt e0 e1 } }) ∧
    ((e false = none ∨ e true = none) → exec .ctxUpdate s = .refused .nbIllFormed)

/-! ## The two ends of a block decode -/

/-- 42_context_tracker.md R131: INIT_CTX loads the context of the two slices of NUNITS flags and changes
nothing else. -/
def Obligations.InitCtxReadsTheTwoSlices : Prop :=
  ∀ (s : State) (p : Plane) (a l : List Bool), planeOf s.csr.plane = some p →
    a.length = s.x.nunits.toNat → l.length = s.x.nunits.toNat →
    (∀ i, i < s.x.nunits.toNat → a[i]? = (s.mem.above.get p).cells.read (s.csr.posX + i)) →
    (∀ i, i < s.x.nunits.toNat → l[i]? = (s.mem.left.get p).cells.read (s.csr.posY + i)) →
    exec .initCtx s = .next { s with x := { s.x with ctx := s.par.initCtxAt s.csr.tx a l } }

/-- 45_block_decode_and_host.md R193: the sizes of the block, C and DQSEL and CLAMPED cleared, an empty
token cache, the initial context; COUNT, FINFO, the memories and the stream untouched. -/
def Obligations.BlockSetupPreparesTheBlock : Prop :=
  ∀ (s : State) (p : Plane) (a l : List Bool), planeOf s.csr.plane = some p →
    a.length = 2 ^ s.csr.tx.toNat → l.length = 2 ^ s.csr.tx.toNat →
    (∀ i, i < a.length → a[i]? = (s.mem.above.get p).cells.read (s.csr.posX + i)) →
    (∀ i, i < l.length → l[i]? = (s.mem.left.get p).cells.read (s.csr.posY + i)) →
    ∃ t, exec .blockSetup s = .next t ∧ t.x.nunits.toNat = 2 ^ s.csr.tx.toNat ∧
      t.x.maxeob.toNat = 16 * 4 ^ s.csr.tx.toNat ∧ (∀ q, t.tc.read q = none) ∧
      t = { s with
        x := { s.x with
          nunits := t.x.nunits, maxeob := t.x.maxeob, c := 0, dqsel := false
          ctx := s.par.initCtxAt s.csr.tx a l }
        clamped := false, tc := t.tc, st := .select }

/-- 44_edge_context_writer.md R181, R195: EDGE_WRITE writes exactly the NUNITS units of the two slices: the
flag C > 0 into those in bounds, 0 into the `min(n, max(0, -D))` out of bounds, the right distance for
the above slice and the bottom distance for the left slice; then COUNT is C and ST is DONE. -/
def Obligations.EdgeWriteClipsToTheFrame : Prop :=
  ∀ (s : State) (p : Plane), planeOf s.csr.plane = some p →
    let n := s.x.nunits.toNat
    let flag := decide (0 < s.x.c.toNat)
    s.csr.posX + n ≤ (s.mem.above.get p).len → s.csr.posY + n ≤ (s.mem.left.get p).len →
    ∃ t, exec .edgeWrite s = .next t ∧ t.st = .done ∧
      t.x = { s.x with hasnz := flag } ∧
      (∀ q i, (t.mem.above.get q).cells.read i =
        if q = p ∧ s.csr.posX ≤ i ∧ i < s.csr.posX + n then
          some (flag && decide ((i : Int) - s.csr.posX < (n : Int) - min (n : Int) (max 0 (-s.csr.dr))))
        else (s.mem.above.get q).cells.read i) ∧
      (∀ q i, (t.mem.left.get q).cells.read i =
        if q = p ∧ s.csr.posY ≤ i ∧ i < s.csr.posY + n then
          some (flag && decide ((i : Int) - s.csr.posY < (n : Int) - min (n : Int) (max 0 (-s.csr.db))))
        else (s.mem.left.get q).cells.read i) ∧
      (∀ q, (t.mem.above.get q).len = (s.mem.above.get q).len ∧
        (t.mem.left.get q).len = (s.mem.left.get q).len) ∧
      t.mem = { s.mem with above := t.mem.above, left := t.mem.left } ∧
      t.csr = { s.csr with count := s.x.c } ∧ t.tc = s.tc ∧ t.bd = s.bd ∧ t.clamped = s.clamped ∧
      SameSurroundings s t

/-- 45_block_decode_and_host.md R195: BLOCK_FINISH returns the count; nothing else changes. -/
def Obligations.BlockFinishReturnsTheCount : Prop :=
  ∀ s : State, exec .blockFinish s =
    .next { s with csr := { s.csr with count := s.x.c }, st := .done }

/-! ## Statistics -/

/-- 20_memory.md R62: the linear indices are inside their spaces and no two counters share an element. -/
def Obligations.CounterIndicesAreInSpaceAndDistinct : Prop :=
  ∀ (tx tx' : BitVec 2) (pt pt' rf rf' : Bool) (band band' ctx ctx' : BitVec 3) (k k' : CntKind),
    band.toNat < 6 → band'.toNat < 6 → ctx.toNat < 6 → ctx'.toNat < 6 →
    cntIndex tx pt rf band ctx k =
      ((((tx.toNat * 2 + pt.toNat) * 2 + rf.toNat) * 6 + band.toNat) * 6 + ctx.toNat) * 4 +
        (match k with | .zero => 0 | .one => 1 | .more => 2 | .eob => 3) ∧
    eobbrIndex tx pt rf band ctx =
      (((tx.toNat * 2 + pt.toNat) * 2 + rf.toNat) * 6 + band.toNat) * 6 + ctx.toNat ∧
    cntIndex tx pt rf band ctx k < 2304 ∧ eobbrIndex tx pt rf band ctx < 576 ∧
    (cntIndex tx pt rf band ctx k = cntIndex tx' pt' rf' band' ctx' k' →
      tx = tx' ∧ pt = pt' ∧ rf = rf' ∧ band = band' ∧ ctx = ctx' ∧ k = k') ∧
    (eobbrIndex tx pt rf band ctx = eobbrIndex tx' pt' rf' band' ctx' →
      tx = tx' ∧ pt = pt' ∧ rf = rf' ∧ band = band' ∧ ctx = ctx')

/-! ## Whole-machine rules -/

/-- 00_scope.md R6, 20_memory.md R63: no step changes the open parameters or a collaborator, and only the
host's loading of tables changes a table: probabilities are never mutated by the decoder. -/
def Obligations.TablesAreNeverMutatedByTheDecoder : Prop :=
  ∀ s t : State, step s = .next t →
    t.par = s.par ∧ ((∀ tab rest, s.inputs ≠ .loadTables tab :: rest) → t.tab = s.tab)

/-- 20_memory.md R60, R61, R62, 42_context_tracker.md R130, 45_block_decode_and_host.md R195: which
instructions write which state, over all of them (a reset aside). -/
def Obligations.OnlyTheNamedInstructionsWrite : Prop :=
  ∀ (i : Instr) (s t : State), exec i s = .next t → (∀ b, i ≠ .srst b) → (∀ v, i ≠ .csrwr .ctrl v) →
    (i ≠ .writeCache → t.mem.coef = s.mem.coef) ∧
    (i ≠ .edgeWrite → t.mem.above = s.mem.above ∧ t.mem.left = s.mem.left) ∧
    (s.csr.statsEn = false → t.mem.cnt = s.mem.cnt ∧ t.mem.eobbr = s.mem.eobbr) ∧
    (i ≠ .eob → i ≠ .eobTest → i ≠ .one → i ≠ .oneTest → i ≠ .zero → i ≠ .zeroAdvance →
      t.mem.cnt = s.mem.cnt) ∧
    (i ≠ .eobTest → ((i ≠ .zero ∧ i ≠ .zeroAdvance) ∨ s.par.eobbrPolicy = .perEobTest) →
      t.mem.eobbr = s.mem.eobbr) ∧
    (i ≠ .writeCache → i ≠ .zero → i ≠ .zeroAdvance → i ≠ .blockSetup → t.tc = s.tc ∧ t.x.c = s.x.c) ∧
    (i ≠ .writeCache → i ≠ .zero → i ≠ .zeroAdvance → i ≠ .blockSetup → i ≠ .initCtx → i ≠ .ctxUpdate →
      t.x.ctx = s.x.ctx) ∧
    (i ≠ .edgeWrite → i ≠ .blockFinish → t.csr.count = s.csr.count) ∧
    (i ≠ .cat6 → t.csr.fcode = s.csr.fcode ∧ t.csr.fpos = s.csr.fpos) ∧
    ((∀ r v, i ≠ .csrwr r v) → t.csr.cfg = s.csr.cfg ∧ t.csr.blk0 = s.csr.blk0 ∧
      t.csr.blkpos = s.csr.blkpos ∧ t.csr.edge = s.csr.edge)

/-- 60_exceptions.md R215: there is no return from FATAL but reset. (An operation word of a test bench,
which the hardware has no port for, is left aside.) -/
def Obligations.OnlyResetLeavesFatal : Prop :=
  ∀ s t : State, s.st = .fatal → step s = .next t → (∀ n w rest, s.inputs ≠ .opWord n w :: rest) →
    (t.st = .fatal ∧ t.csr.fcode = s.csr.fcode ∧ t.csr.fpos = s.csr.fpos) ∨
    (t.st = .idle ∧ ∃ rest, s.inputs = .rst :: rest ∨
      (∃ v : Word, (v = 2 ∨ v = 3) ∧ s.inputs = .bus true 4 0 v :: rest) ∨
      (∃ b0 b1 b2 b3, s.inputs = .busLanes 0 b0 b1 b2 b3 :: rest ∧
        (s.par.csrByteOrder.word b0 b1 b2 b3 = 2 ∨ s.par.csrByteOrder.word b0 b1 b2 b3 = 3)))

/-- 44_edge_context_writer.md R183, 20_memory.md R60: the coefficient buffers influence no instruction: what
differs after one is a coefficient buffer and nothing else. -/
def Obligations.CoefficientsInfluenceNothing : Prop :=
  ∀ (i : Instr) (s : State) (c : PerPlane (Cells (BitVec 36))),
    match exec i s with
    | .next t => ∃ c', exec i { s with mem := { s.mem with coef := c } } =
        .next { t with mem := { t.mem with coef := c' } }
    | .fault e => exec i { s with mem := { s.mem with coef := c } } = .fault e
    | .refused e => exec i { s with mem := { s.mem with coef := c } } = .refused e

/-! ## Invariants and headlines -/

/-- The invariant holds after reset. -/
def Obligations.ResetSatisfiesTheInvariant : Prop := State.reset.Inv

/-- 10_state.md R22, 42_context_tracker.md R134: every step keeps the canonical memory and token cache and
the ranges of CTX and BAND, from every state in which they hold. -/
def Obligations.EveryStepKeepsTheInvariant : Prop :=
  ∀ s t : State, s.Inv → step s = .next t → t.Inv

/-- An accepted START enters a block decode in which the decoding invariant holds, and takes no counter its
value (R190, R192). `Ready` is P1, P3, P4, P5 and P6: that START answers a next state without P2, P7 and P8
is the model's choice (notes/assumptions/3.md, 6.md, 24.md). -/
def Obligations.StartEntersADecode : Prop :=
  ∀ (s : State) (p : Plane), s.Inv → s.resetDone = true → (s.st = .idle ∨ s.st = .done) → s.Ready p →
    ∃ t, exec .start s = .next t ∧ t.Decoding ∧ (s.CountersFilled → t.CountersFilled)

/-- 00_scope.md R8, 10_state.md R22, R24, 30_encoding.md R95, 42_context_tracker.md R133: while a block
decode runs no step is stuck or faulted; each keeps the decoding invariant until the decode ends, and
brings the end nearer. The one refusal is that of a counter without a value, which cannot happen while the
block's counters are filled, and they stay filled. That P8 of R192 is decided there, in the middle of a
decode, is the model's choice (DESIGN CHOICE, notes/assumptions/24.md). -/
def Obligations.DecodingStepsCompleteAndKeepTheInvariant : Prop :=
  ∀ s : State, s.Decoding → s.inputs = [] →
    (∃ t, step s = .next t ∧ t.inputs = [] ∧ t.stepsLeft < s.stepsLeft ∧
      (s.st ≠ .setup → s.x.c.toNat ≤ t.x.c.toNat ∧ t.x.c.toNat ≤ s.x.c.toNat + 1) ∧
      (s.CountersFilled → t.CountersFilled) ∧
      (t.Decoding ∨ (t.st = .done ∧ t.csr.count = s.x.c ∧ t.csr.count.toNat ≤ maxEobOf s.csr.tx) ∨
        (t.st = .fatal ∧ t.csr.fcode = 1 ∧ t.csr.fpos = s.x.c))) ∨
    (step s = .refused (.precondition .p8) ∧ ¬ s.CountersFilled)

/-- 43_token_decoder.md R176: a block decode always runs to completion or signals the fatal error: after at
most eight sequencer steps a position and ten more, whatever the stream delivers; and COUNT is at most
`max_eob`. Where not all counters of the block hold a value it may instead be refused at one that it
reaches: that P8 of R192 is decided there is the model's choice (DESIGN CHOICE,
notes/assumptions/24.md). -/
def Obligations.BlockDecodeRunsToTheEnd : Prop :=
  ∀ s : State, s.Decoding → s.inputs = [] →
    ∃ k, k ≤ 8 * maxEobOf s.csr.tx + 10 ∧
      ((∃ t, Host.Core.run Sys2Proof.core k s = .next t ∧
        (t.final ∧ t.csr.count.toNat ≤ maxEobOf s.csr.tx ∨ t.faulted)) ∨
      (Host.Core.run Sys2Proof.core k s = .refused (.precondition .p8) ∧ ¬ s.CountersFilled))

/-- 30_encoding.md R93 to R98, 43_token_decoder.md R143 to R165: a value token greater than ONE is decoded
from its bits. From ZEROT, if the stream delivers not-zero, not-one, the bits of a path of the pivot's
distribution to the token, the token's extension bits and the sign, each under its own probability,
then after at most five sequencer steps the decoder stands in WRC with TOKEN, VAL and the signed
dequantized coefficient of that token, exactly those bits read, and nothing stored yet. -/
def Obligations.ValueTokenIsDecodedFromItsBits : Prop :=
  ∀ (s : State) (path : List (Prob × Bool)) (tok : HigherTok) (vec : List Prob) (ext : List Bool)
    (neg : Bool) (bd' : Nat),
    s.resetDone = true → s.inputs = [] → s.st = .zerot → s.csr.rangeEn = false →
    CounterReady s s.mem.cnt (cntIndex s.csr.tx s.csr.ptype s.csr.ref s.x.band s.x.ctx .more) →
    HTree.Path (s.par.higherTokenAt s.x.p.pivot) path tok →
    s.tab.extVector s.csr.bd tok.token = some vec → ext.length = vec.length →
    s.par.Delivers
      ([(s.x.p.zero, true), (s.x.p.one, true)] ++ path ++ vec.zip ext ++ [(128#8, neg)]) s.bd bd' →
    ∃ k t, k ≤ 5 ∧ Host.Core.run Sys2Proof.core k s = .next t ∧ t.st = .wrc ∧ t.bd = bd' ∧
      t.x.token = tok.token ∧ t.x.val.toNat = tok.token.magnitude (ofBitsMsb ext) ∧
      (let q := (s.tab.dqAt s.csr.seg s.csr.plane s.x.dqsel).toNat
       let v : Int := (t.x.val.toNat * q / if s.csr.tx = 3 then 2 else 1 : Nat)
       t.x.coefv.toInt = if neg then -v else v) ∧
      t.x.c = s.x.c ∧ t.tc = s.tc ∧ t.mem.coef = s.mem.coef ∧ t.mem.above = s.mem.above ∧
      t.mem.left = s.mem.left ∧ t.csr = s.csr

/-! ## The byte-addressed bus -/

/-- 20_memory.md R65: a read by byte lanes runs CSRRD and shows the register's word in the platform's byte
order, bits 7:0 at the lowest address for little; four bytes written by lanes to a register that has no
reserved bits are read back at the same addresses in either order. -/
def Obligations.ByteLanesFollowTheByteOrder : Prop :=
  (∀ (s : State) (r : CsrReg) (rest : List Input), s.resetDone = true → (s.st.busy = false ∨ r = .status) →
    s.inputs = .busLanesRead r.offset :: rest →
    step s = .next { s with rdata := s.csrWord r, inputs := rest } ∧
    ∀ t, step s = .next t →
      (s.par.csrByteOrder = .little → t.rlanes = [(s.csrWord r).extractLsb' 0 8, (s.csrWord r).extractLsb' 8 8,
        (s.csrWord r).extractLsb' 16 8, (s.csrWord r).extractLsb' 24 8]) ∧
      (s.par.csrByteOrder = .big → t.rlanes = [(s.csrWord r).extractLsb' 24 8, (s.csrWord r).extractLsb' 16 8,
        (s.csrWord r).extractLsb' 8 8, (s.csrWord r).extractLsb' 0 8])) ∧
  (∀ (s : State) (r : CsrReg) (b0 b1 b2 b3 : Byte) (rest : List Input), s.resetDone = true →
    s.st.busy = false → (r = .blkpos ∨ r = .edge) →
    s.inputs = .busLanes r.offset b0 b1 b2 b3 :: .busLanesRead r.offset :: rest →
    ∃ t, Host.Core.run Sys2Proof.core 2 s = .next t ∧ t.inputs = rest ∧ t.rlanes = [b0, b1, b2, b3])

/-! ## Counters without a value -/

/-- 45_block_decode_and_host.md R190, R192 P8, 93_implementation_defined.md U1, U6: with statistics enabled an
operation whose counter holds no value is refused with PRECONDITION, the tests on the bit that reaches
the counter, a ZERO under PER_POSITION also for the branch counter of the position it enters. That P8 is
decided where a counter is reached is the model's choice (DESIGN CHOICE, notes/assumptions/24.md). -/
def Obligations.CounterWithoutValueIsRefused : Prop :=
  ∀ s : State, s.csr.statsEn = true →
    let cnt := fun k => s.mem.cnt.read (cntIndex s.csr.tx s.csr.ptype s.csr.ref s.x.band s.x.ctx k)
    let eobbr := s.mem.eobbr.read (eobbrIndex s.csr.tx s.csr.ptype s.csr.ref s.x.band s.x.ctx)
    (cnt .eob = none → exec .eob s = .refused (.precondition .p8)) ∧
    (cnt .zero = none → exec .zero s = .refused (.precondition .p8) ∧
      exec .zeroAdvance s = .refused (.precondition .p8)) ∧
    (cnt .one = none → exec .one s = .refused (.precondition .p8)) ∧
    (eobbr = none → exec .eobTest s = .refused (.precondition .p8)) ∧
    (∀ n bd', eobbr = some n → cnt .eob = none → s.par.Delivers [(s.x.p.eob, false)] s.bd bd' →
      exec .eobTest s = .refused (.precondition .p8)) ∧
    (∀ bd', cnt .one = none → s.par.Delivers [(s.x.p.one, false)] s.bd bd' →
      exec .oneTest s = .refused (.precondition .p8)) ∧
    (∀ bd', cnt .more = none → s.par.Delivers [(s.x.p.one, true)] s.bd bd' →
      exec .oneTest s = .refused (.precondition .p8)) ∧
    (∀ (i : Instr) (n : BitVec 32) (e0 e1 : BitVec 3), (i = .zero ∨ i = .zeroAdvance) →
      s.par.eobbrPolicy = .perPosition → s.x.c + 1 ≠ s.x.maxeob → cnt .zero = some n →
      let cache := fun q : Nat => if q = (s.scanPos s.x.c.toNat).toNat then some 0 else s.tc.read q
      cache (s.nbPos (s.x.c + 1).toNat false).toNat = some e0 →
      cache (s.nbPos (s.x.c + 1).toNat true).toNat = some e1 →
      s.mem.eobbr.read (eobbrIndex s.csr.tx s.csr.ptype s.csr.ref
        (s.tab.bandAt s.csr.tx (s.x.c + 1).toNat) (s.par.ctxForAt e0 e1)) = none →
      exec i s = .refused (.precondition .p8))
end

