-- ==== Sys2Proof/Laws/Cells.lean ====
section
/-! SUPPORT. The laws of element-addressed spaces: read after write, what a write leaves alone, and that
every operation keeps the canonical form. -/

namespace Sys2Proof.Machine

namespace PerPlane

variable {α : Type}

@[simp] theorem get_set_same (f : PerPlane α) (p : Plane) (a : α) : (f.set p a).get p = a := by
  cases p <;> rfl

theorem get_set_other (f : PerPlane α) (p q : Plane) (a : α) (h : q ≠ p) :
    (f.set p a).get q = f.get q := by
  cases p <;> cases q <;> first | rfl | exact absurd rfl h

theorem get_set (f : PerPlane α) (p q : Plane) (a : α) :
    (f.set p a).get q = if q = p then a else f.get q := by
  cases p <;> cases q <;> rfl

theorem all_iff (f : PerPlane α) (q : α → Bool) : f.all q = true ↔ ∀ p, q (f.get p) = true := by
  constructor
  · intro h p
    simp only [all, Bool.and_eq_true] at h
    cases p
    · exact h.1.1
    · exact h.1.2
    · exact h.2
  · intro h
    simp only [all, Bool.and_eq_true]
    exact ⟨⟨h .p0, h .p1⟩, h .p2⟩

theorem all_set (f : PerPlane α) (q : α → Bool) (p : Plane) (a : α) (h : f.all q = true)
    (ha : q a = true) : (f.set p a).all q = true := by
  rw [all_iff] at h ⊢
  intro r
  rw [get_set]
  split
  · exact ha
  · exact h r

end PerPlane

namespace Cells

variable {α : Type}

/-! ## Reading after writing -/

theorem read_write (m : Cells α) (i j : Nat) (v : α) :
    (m.write i v).read j = if j = i then some v else m.read j := by
  induction m with
  | nil => simp [write, read]
  | cons e m ih =>
    obtain ⟨k, w⟩ := e
    simp only [write]
    split
    · simp [read]
    · split
      · rename_i h
        subst h
        simp only [read]
        split <;> rfl
      · simp only [read]
        split
        · rename_i h1 h2 h3
          subst h3
          rw [if_neg (by omega)]
        · exact ih

@[simp] theorem read_write_same (m : Cells α) (i : Nat) (v : α) : (m.write i v).read i = some v := by
  simp [read_write]

theorem read_write_other (m : Cells α) (i j : Nat) (v : α) (h : j ≠ i) :
    (m.write i v).read j = m.read j := by
  simp [read_write, h]

theorem read_writeSlice (m : Cells α) (lo j : Nat) (vs : List α) :
    (m.writeSlice lo vs).read j =
      if lo ≤ j ∧ j < lo + vs.length then vs[j - lo]? else m.read j := by
  induction vs generalizing m lo with
  | nil => simp [writeSlice]
  | cons v vs ih =>
    simp only [writeSlice, ih, read_write, List.length_cons]
    by_cases h : j = lo
    · subst h
      simp
    · by_cases h2 : lo + 1 ≤ j ∧ j < lo + 1 + vs.length
      · rw [if_pos h2, if_pos (by omega)]
        obtain ⟨d, hd⟩ : ∃ d, j - lo = d + 1 := ⟨j - lo - 1, by omega⟩
        rw [hd, List.getElem?_cons_succ]
        congr 1
        omega
      · rw [if_neg h2, if_neg h, if_neg (by omega)]

theorem read_forget (m : Cells α) (lo n j : Nat) :
    (m.forget lo n).read j = if lo ≤ j ∧ j < lo + n then none else m.read j := by
  induction m with
  | nil => simp [forget, read]
  | cons e m ih =>
    obtain ⟨k, w⟩ := e
    simp only [forget, List.filter_cons] at ih ⊢
    by_cases hk : lo ≤ k ∧ k < lo + n
    · rw [if_neg (by simp [hk])]
      rw [ih]
      simp only [read]
      split
      · rfl
      · rename_i h
        rw [if_neg]
        rintro rfl
        exact h hk
    · rw [if_pos (by simp; omega)]
      simp only [read]
      by_cases hj : j = k
      · subst hj
        simp [hk]
      · simp only [hj, if_false]
        exact ih

theorem readSlice_eq_some (m : Cells α) (lo n : Nat) (h : ∀ i, lo ≤ i → i < lo + n → ∃ v, m.read i = some v) :
    ∃ vs, m.readSlice lo n = some vs ∧ vs.length = n := by
  induction n generalizing lo with
  | zero => exact ⟨[], rfl, rfl⟩
  | succ n ih =>
    obtain ⟨v, hv⟩ := h lo (by omega) (by omega)
    obtain ⟨vs, h1, h2⟩ := ih (lo + 1) (fun i _ _ => h i (by omega) (by omega))
    exact ⟨v :: vs, by simp [readSlice, hv, h1], by simp [h2]⟩

/-- A slice that was read holds the elements in order. -/
theorem getElem?_readSlice (m : Cells α) (lo n : Nat) (vs : List α) (h : m.readSlice lo n = some vs) :
    vs.length = n ∧ ∀ i, i < n → vs[i]? = m.read (lo + i) := by
  induction n generalizing lo vs with
  | zero =>
    simp only [readSlice, Option.some.injEq] at h
    subst h
    exact ⟨rfl, fun i hi => absurd hi (by omega)⟩
  | succ n ih =>
    simp only [readSlice] at h
    split at h
    · rename_i v vs' h1 h2
      simp only [Option.some.injEq] at h
      subst h
      obtain ⟨h3, h4⟩ := ih _ _ h2
      refine ⟨by simp [h3], fun i hi => ?_⟩
      cases i with
      | zero => simp [h1]
      | succ i =>
        rw [List.getElem?_cons_succ, h4 i (by omega)]
        congr 1
        omega
    · simp at h

theorem holdsAll_iff (m : Cells α) (lo n : Nat) :
    m.holdsAll lo n = true ↔ ∀ i, lo ≤ i → i < lo + n → ∃ v, m.read i = some v := by
  simp only [holdsAll, List.all_eq_true, List.mem_range, Option.isSome_iff_exists]
  constructor
  · intro h i h1 h2
    have := h (i - lo) (by omega)
    rwa [show lo + (i - lo) = i by omega] at this
  · intro h i hi
    exact h _ (by omega) (by omega)

theorem read_fill (n j : Nat) (v : α) : (fill n v).read j = if j < n then some v else none := by
  have key : ∀ (l : List Nat), Cells.read (l.map (fun i => (i, v))) j = if j ∈ l then some v else none := by
    intro l
    induction l with
    | nil => simp [read]
    | cons a l ih =>
      simp only [List.map_cons, read, ih, List.mem_cons]
      by_cases h : j = a <;> simp [h]
  simp [fill, key]

/-! ## The canonical form -/

theorem rising_mono (m : Cells α) (lo lo' : Nat) (h : lo' ≤ lo) (hr : rising lo m = true) :
    rising lo' m = true := by
  cases m with
  | nil => rfl
  | cons e m =>
    simp only [rising, Bool.and_eq_true, decide_eq_true_eq] at hr ⊢
    exact ⟨by omega, hr.2⟩

theorem rising_write (m : Cells α) (lo i : Nat) (v : α) (h : lo ≤ i) (hr : rising lo m = true) :
    rising lo (m.write i v) = true := by
  induction m generalizing lo with
  | nil => simp [write, rising, h]
  | cons e m ih =>
    obtain ⟨k, w⟩ := e
    simp only [rising, Bool.and_eq_true, decide_eq_true_eq] at hr
    simp only [write]
    split
    · simp only [rising, Bool.and_eq_true, decide_eq_true_eq]
      exact ⟨h, by omega, hr.2⟩
    · split
      · rename_i h1 h2
        subst h2
        simp only [rising, Bool.and_eq_true, decide_eq_true_eq]
        exact ⟨h, hr.2⟩
      · simp only [rising, Bool.and_eq_true, decide_eq_true_eq]
        exact ⟨hr.1, ih (k + 1) (by omega) hr.2⟩

theorem rising_filter (m : Cells α) (q : Nat × α → Bool) (lo : Nat) (hr : rising lo m = true) :
    rising lo (m.filter q) = true := by
  induction m generalizing lo with
  | nil => rfl
  | cons e m ih =>
    obtain ⟨k, w⟩ := e
    simp only [rising, Bool.and_eq_true, decide_eq_true_eq] at hr
    simp only [List.filter_cons]
    split
    · simp only [rising, Bool.and_eq_true, decide_eq_true_eq]
      exact ⟨hr.1, ih _ hr.2⟩
    · exact rising_mono _ (k + 1) lo (by omega) (ih _ hr.2)

theorem mem_write (m : Cells α) (i : Nat) (v : α) (e : Nat × α) (h : e ∈ m.write i v) :
    e = (i, v) ∨ e ∈ m := by
  induction m with
  | nil => simpa [write] using h
  | cons f m ih =>
    obtain ⟨k, w⟩ := f
    simp only [write] at h
    split at h
    · simpa using h
    · split at h
      · simp only [List.mem_cons] at h ⊢
        tauto
      · simp only [List.mem_cons] at h ⊢
        rcases h with h | h
        · exact .inr (.inl h)
        · rcases ih h with h | h
          · exact .inl h
          · exact .inr (.inr h)

theorem mem_of_read (m : Cells α) (i : Nat) (v : α) (h : m.read i = some v) : (i, v) ∈ m := by
  induction m with
  | nil => simp [read] at h
  | cons e m ih =>
    obtain ⟨k, w⟩ := e
    simp only [read] at h
    split at h
    · rename_i hk
      simp only [Option.some.injEq] at h
      subst hk h
      exact List.mem_cons_self
    · exact List.mem_cons_of_mem _ (ih h)

theorem lt_of_read (m : Cells α) (size i : Nat) (v : α) (hw : m.wf size = true) (h : m.read i = some v) :
    i < size := by
  simp only [wf, Bool.and_eq_true, List.all_eq_true, decide_eq_true_eq] at hw
  exact hw.2 _ (mem_of_read m i v h)

theorem wf_nil (size : Nat) : wf size ([] : Cells α) = true := rfl

theorem wf_write (m : Cells α) (size i : Nat) (v : α) (hw : m.wf size = true) (hi : i < size) :
    (m.write i v).wf size = true := by
  simp only [wf, Bool.and_eq_true, List.all_eq_true, decide_eq_true_eq] at hw ⊢
  refine ⟨rising_write m 0 i v (Nat.zero_le _) hw.1, fun e he => ?_⟩
  rcases mem_write m i v e he with h | h
  · subst h
    exact hi
  · exact hw.2 e h

theorem wf_forget (m : Cells α) (size lo n : Nat) (hw : m.wf size = true) :
    (m.forget lo n).wf size = true := by
  simp only [wf, Bool.and_eq_true, List.all_eq_true, decide_eq_true_eq] at hw ⊢
  exact ⟨rising_filter m _ 0 hw.1, fun e he => hw.2 e (List.mem_of_mem_filter he)⟩

theorem wf_writeSlice (m : Cells α) (size lo : Nat) (vs : List α) (hw : m.wf size = true)
    (h : lo + vs.length ≤ size) : (m.writeSlice lo vs).wf size = true := by
  induction vs generalizing m lo with
  | nil => exact hw
  | cons v vs ih =>
    simp only [List.length_cons] at h
    exact ih _ _ (wf_write m size lo v hw (by omega)) (by omega)

theorem wf_fill (n : Nat) (v : α) : wf n (fill n v) = true := by
  have key : ∀ (k lo : Nat), rising lo ((List.range' lo k).map (fun i => (i, v))) = true := by
    intro k
    induction k with
    | zero => intro lo; rfl
    | succ k ih =>
      intro lo
      simp only [List.range'_succ, List.map_cons, rising, Bool.and_eq_true, decide_eq_true_eq]
      exact ⟨Nat.le_refl _, ih (lo + 1)⟩
  simp only [wf, fill, Bool.and_eq_true, List.all_eq_true, decide_eq_true_eq]
  refine ⟨?_, ?_⟩
  · rw [List.range_eq_range']
    exact key n 0
  · intro e he
    simp only [List.mem_map, List.mem_range] at he
    obtain ⟨i, hi, rfl⟩ := he
    exact hi

end Cells

theorem FlagArray.wf_writeSlice (a : FlagArray) (lo : Nat) (vs : List Bool) (hw : a.wf = true)
    (h : lo + vs.length ≤ a.len) :
    FlagArray.wf { a with cells := a.cells.writeSlice lo vs } = true :=
  Cells.wf_writeSlice a.cells a.len lo vs hw h

theorem FlagArray.wf_forget (a : FlagArray) (lo n : Nat) (hw : a.wf = true) :
    FlagArray.wf { a with cells := a.cells.forget lo n } = true :=
  Cells.wf_forget a.cells a.len lo n hw

theorem Memory.wf_iff (m : Memory) : m.wf = true ↔
    m.coef.all (Cells.wf Config.coefSlots) = true ∧ m.above.all FlagArray.wf = true ∧
    m.left.all FlagArray.wf = true ∧ m.cnt.wf Config.cntSlots = true ∧
    m.eobbr.wf Config.eobbrSlots = true := by
  simp only [Memory.wf, Bool.and_eq_true]
  tauto

end Sys2Proof.Machine
end

