-- ==== Sys2Proof/Laws/State.lean ====
section
/-! SUPPORT. One lemma per field per update of the state, so that no proof unfolds a record update. -/

namespace Sys2Proof.Machine.State

@[simp] theorem setSt_st (s : State) (v : St) : (s.setSt v).st = v := rfl
@[simp] theorem setSt_resetDone (s : State) (v : St) : (s.setSt v).resetDone = s.resetDone := rfl
@[simp] theorem setSt_x (s : State) (v : St) : (s.setSt v).x = s.x := rfl
@[simp] theorem setSt_clamped (s : State) (v : St) : (s.setSt v).clamped = s.clamped := rfl
@[simp] theorem setSt_tc (s : State) (v : St) : (s.setSt v).tc = s.tc := rfl
@[simp] theorem setSt_csr (s : State) (v : St) : (s.setSt v).csr = s.csr := rfl
@[simp] theorem setSt_mem (s : State) (v : St) : (s.setSt v).mem = s.mem := rfl
@[simp] theorem setSt_bd (s : State) (v : St) : (s.setSt v).bd = s.bd := rfl
@[simp] theorem setSt_tab (s : State) (v : St) : (s.setSt v).tab = s.tab := rfl
@[simp] theorem setSt_par (s : State) (v : St) : (s.setSt v).par = s.par := rfl
@[simp] theorem setSt_rdata (s : State) (v : St) : (s.setSt v).rdata = s.rdata := rfl
@[simp] theorem setSt_elem (s : State) (v : St) : (s.setSt v).elem = s.elem := rfl
@[simp] theorem setSt_inputs (s : State) (v : St) : (s.setSt v).inputs = s.inputs := rfl
@[simp] theorem setSt_draws (s : State) (v : St) : (s.setSt v).draws = s.draws := rfl

@[simp] theorem setX_st (s : State) (v : Regs) : (s.setX v).st = s.st := rfl
@[simp] theorem setX_resetDone (s : State) (v : Regs) : (s.setX v).resetDone = s.resetDone := rfl
@[simp] theorem setX_x (s : State) (v : Regs) : (s.setX v).x = v := rfl
@[simp] theorem setX_clamped (s : State) (v : Regs) : (s.setX v).clamped = s.clamped := rfl
@[simp] theorem setX_tc (s : State) (v : Regs) : (s.setX v).tc = s.tc := rfl
@[simp] theorem setX_csr (s : State) (v : Regs) : (s.setX v).csr = s.csr := rfl
@[simp] theorem setX_mem (s : State) (v : Regs) : (s.setX v).mem = s.mem := rfl
@[simp] theorem setX_bd (s : State) (v : Regs) : (s.setX v).bd = s.bd := rfl
@[simp] theorem setX_tab (s : State) (v : Regs) : (s.setX v).tab = s.tab := rfl
@[simp] theorem setX_par (s : State) (v : Regs) : (s.setX v).par = s.par := rfl
@[simp] theorem setX_rdata (s : State) (v : Regs) : (s.setX v).rdata = s.rdata := rfl
@[simp] theorem setX_elem (s : State) (v : Regs) : (s.setX v).elem = s.elem := rfl
@[simp] theorem setX_inputs (s : State) (v : Regs) : (s.setX v).inputs = s.inputs := rfl
@[simp] theorem setX_draws (s : State) (v : Regs) : (s.setX v).draws = s.draws := rfl

@[simp] theorem setClamped_st (s : State) (v : Bool) : (s.setClamped v).st = s.st := rfl
@[simp] theorem setClamped_resetDone (s : State) (v : Bool) : (s.setClamped v).resetDone = s.resetDone := rfl
@[simp] theorem setClamped_x (s : State) (v : Bool) : (s.setClamped v).x = s.x := rfl
@[simp] theorem setClamped_clamped (s : State) (v : Bool) : (s.setClamped v).clamped = v := rfl
@[simp] theorem setClamped_tc (s : State) (v : Bool) : (s.setClamped v).tc = s.tc := rfl
@[simp] theorem setClamped_csr (s : State) (v : Bool) : (s.setClamped v).csr = s.csr := rfl
@[simp] theorem setClamped_mem (s : State) (v : Bool) : (s.setClamped v).mem = s.mem := rfl
@[simp] theorem setClamped_bd (s : State) (v : Bool) : (s.setClamped v).bd = s.bd := rfl
@[simp] theorem setClamped_tab (s : State) (v : Bool) : (s.setClamped v).tab = s.tab := rfl
@[simp] theorem setClamped_par (s : State) (v : Bool) : (s.setClamped v).par = s.par := rfl
@[simp] theorem setClamped_rdata (s : State) (v : Bool) : (s.setClamped v).rdata = s.rdata := rfl
@[simp] theorem setClamped_elem (s : State) (v : Bool) : (s.setClamped v).elem = s.elem := rfl
@[simp] theorem setClamped_inputs (s : State) (v : Bool) : (s.setClamped v).inputs = s.inputs := rfl
@[simp] theorem setClamped_draws (s : State) (v : Bool) : (s.setClamped v).draws = s.draws := rfl

@[simp] theorem setTc_st (s : State) (v : Cells (BitVec 3)) : (s.setTc v).st = s.st := rfl
@[simp] theorem setTc_resetDone (s : State) (v : Cells (BitVec 3)) : (s.setTc v).resetDone = s.resetDone := rfl
@[simp] theorem setTc_x (s : State) (v : Cells (BitVec 3)) : (s.setTc v).x = s.x := rfl
@[simp] theorem setTc_clamped (s : State) (v : Cells (BitVec 3)) : (s.setTc v).clamped = s.clamped := rfl
@[simp] theorem setTc_tc (s : State) (v : Cells (BitVec 3)) : (s.setTc v).tc = v := rfl
@[simp] theorem setTc_csr (s : State) (v : Cells (BitVec 3)) : (s.setTc v).csr = s.csr := rfl
@[simp] theorem setTc_mem (s : State) (v : Cells (BitVec 3)) : (s.setTc v).mem = s.mem := rfl
@[simp] theorem setTc_bd (s : State) (v : Cells (BitVec 3)) : (s.setTc v).bd = s.bd := rfl
@[simp] theorem setTc_tab (s : State) (v : Cells (BitVec 3)) : (s.setTc v).tab = s.tab := rfl
@[simp] theorem setTc_par (s : State) (v : Cells (BitVec 3)) : (s.setTc v).par = s.par := rfl
@[simp] theorem setTc_rdata (s : State) (v : Cells (BitVec 3)) : (s.setTc v).rdata = s.rdata := rfl
@[simp] theorem setTc_elem (s : State) (v : Cells (BitVec 3)) : (s.setTc v).elem = s.elem := rfl
@[simp] theorem setTc_inputs (s : State) (v : Cells (BitVec 3)) : (s.setTc v).inputs = s.inputs := rfl
@[simp] theorem setTc_draws (s : State) (v : Cells (BitVec 3)) : (s.setTc v).draws = s.draws := rfl

@[simp] theorem setCsr_st (s : State) (v : Csrs) : (s.setCsr v).st = s.st := rfl
@[simp] theorem setCsr_resetDone (s : State) (v : Csrs) : (s.setCsr v).resetDone = s.resetDone := rfl
@[simp] theorem setCsr_x (s : State) (v : Csrs) : (s.setCsr v).x = s.x := rfl
@[simp] theorem setCsr_clamped (s : State) (v : Csrs) : (s.setCsr v).clamped = s.clamped := rfl
@[simp] theorem setCsr_tc (s : State) (v : Csrs) : (s.setCsr v).tc = s.tc := rfl
@[simp] theorem setCsr_csr (s : State) (v : Csrs) : (s.setCsr v).csr = v := rfl
@[simp] theorem setCsr_mem (s : State) (v : Csrs) : (s.setCsr v).mem = s.mem := rfl
@[simp] theorem setCsr_bd (s : State) (v : Csrs) : (s.setCsr v).bd = s.bd := rfl
@[simp] theorem setCsr_tab (s : State) (v : Csrs) : (s.setCsr v).tab = s.tab := rfl
@[simp] theorem setCsr_par (s : State) (v : Csrs) : (s.setCsr v).par = s.par := rfl
@[simp] theorem setCsr_rdata (s : State) (v : Csrs) : (s.setCsr v).rdata = s.rdata := rfl
@[simp] theorem setCsr_elem (s : State) (v : Csrs) : (s.setCsr v).elem = s.elem := rfl
@[simp] theorem setCsr_inputs (s : State) (v : Csrs) : (s.setCsr v).inputs = s.inputs := rfl
@[simp] theorem setCsr_draws (s : State) (v : Csrs) : (s.setCsr v).draws = s.draws := rfl

@[simp] theorem setMem_st (s : State) (v : Memory) : (s.setMem v).st = s.st := rfl
@[simp] theorem setMem_resetDone (s : State) (v : Memory) : (s.setMem v).resetDone = s.resetDone := rfl
@[simp] theorem setMem_x (s : State) (v : Memory) : (s.setMem v).x = s.x := rfl
@[simp] theorem setMem_clamped (s : State) (v : Memory) : (s.setMem v).clamped = s.clamped := rfl
@[simp] theorem setMem_tc (s : State) (v : Memory) : (s.setMem v).tc = s.tc := rfl
@[simp] theorem setMem_csr (s : State) (v : Memory) : (s.setMem v).csr = s.csr := rfl
@[simp] theorem setMem_mem (s : State) (v : Memory) : (s.setMem v).mem = v := rfl
@[simp] theorem setMem_bd (s : State) (v : Memory) : (s.setMem v).bd = s.bd := rfl
@[simp] theorem setMem_tab (s : State) (v : Memory) : (s.setMem v).tab = s.tab := rfl
@[simp] theorem setMem_par (s : State) (v : Memory) : (s.setMem v).par = s.par := rfl
@[simp] theorem setMem_rdata (s : State) (v : Memory) : (s.setMem v).rdata = s.rdata := rfl
@[simp] theorem setMem_elem (s : State) (v : Memory) : (s.setMem v).elem = s.elem := rfl
@[simp] theorem setMem_inputs (s : State) (v : Memory) : (s.setMem v).inputs = s.inputs := rfl
@[simp] theorem setMem_draws (s : State) (v : Memory) : (s.setMem v).draws = s.draws := rfl

@[simp] theorem setBd_st (s : State) (v : Nat) : (s.setBd v).st = s.st := rfl
@[simp] theorem setBd_resetDone (s : State) (v : Nat) : (s.setBd v).resetDone = s.resetDone := rfl
@[simp] theorem setBd_x (s : State) (v : Nat) : (s.setBd v).x = s.x := rfl
@[simp] theorem setBd_clamped (s : State) (v : Nat) : (s.setBd v).clamped = s.clamped := rfl
@[simp] theorem setBd_tc (s : State) (v : Nat) : (s.setBd v).tc = s.tc := rfl
@[simp] theorem setBd_csr (s : State) (v : Nat) : (s.setBd v).csr = s.csr := rfl
@[simp] theorem setBd_mem (s : State) (v : Nat) : (s.setBd v).mem = s.mem := rfl
@[simp] theorem setBd_bd (s : State) (v : Nat) : (s.setBd v).bd = v := rfl
@[simp] theorem setBd_tab (s : State) (v : Nat) : (s.setBd v).tab = s.tab := rfl
@[simp] theorem setBd_par (s : State) (v : Nat) : (s.setBd v).par = s.par := rfl
@[simp] theorem setBd_rdata (s : State) (v : Nat) : (s.setBd v).rdata = s.rdata := rfl
@[simp] theorem setBd_elem (s : State) (v : Nat) : (s.setBd v).elem = s.elem := rfl
@[simp] theorem setBd_inputs (s : State) (v : Nat) : (s.setBd v).inputs = s.inputs := rfl
@[simp] theorem setBd_draws (s : State) (v : Nat) : (s.setBd v).draws = s.draws := rfl

@[simp] theorem setTab_st (s : State) (v : Tables) : (s.setTab v).st = s.st := rfl
@[simp] theorem setTab_resetDone (s : State) (v : Tables) : (s.setTab v).resetDone = s.resetDone := rfl
@[simp] theorem setTab_x (s : State) (v : Tables) : (s.setTab v).x = s.x := rfl
@[simp] theorem setTab_clamped (s : State) (v : Tables) : (s.setTab v).clamped = s.clamped := rfl
@[simp] theorem setTab_tc (s : State) (v : Tables) : (s.setTab v).tc = s.tc := rfl
@[simp] theorem setTab_csr (s : State) (v : Tables) : (s.setTab v).csr = s.csr := rfl
@[simp] theorem setTab_mem (s : State) (v : Tables) : (s.setTab v).mem = s.mem := rfl
@[simp] theorem setTab_bd (s : State) (v : Tables) : (s.setTab v).bd = s.bd := rfl
@[simp] theorem setTab_tab (s : State) (v : Tables) : (s.setTab v).tab = v := rfl
@[simp] theorem setTab_par (s : State) (v : Tables) : (s.setTab v).par = s.par := rfl
@[simp] theorem setTab_rdata (s : State) (v : Tables) : (s.setTab v).rdata = s.rdata := rfl
@[simp] theorem setTab_elem (s : State) (v : Tables) : (s.setTab v).elem = s.elem := rfl
@[simp] theorem setTab_inputs (s : State) (v : Tables) : (s.setTab v).inputs = s.inputs := rfl
@[simp] theorem setTab_draws (s : State) (v : Tables) : (s.setTab v).draws = s.draws := rfl

@[simp] theorem setRdata_st (s : State) (v : Word) : (s.setRdata v).st = s.st := rfl
@[simp] theorem setRdata_resetDone (s : State) (v : Word) : (s.setRdata v).resetDone = s.resetDone := rfl
@[simp] theorem setRdata_x (s : State) (v : Word) : (s.setRdata v).x = s.x := rfl
@[simp] theorem setRdata_clamped (s : State) (v : Word) : (s.setRdata v).clamped = s.clamped := rfl
@[simp] theorem setRdata_tc (s : State) (v : Word) : (s.setRdata v).tc = s.tc := rfl
@[simp] theorem setRdata_csr (s : State) (v : Word) : (s.setRdata v).csr = s.csr := rfl
@[simp] theorem setRdata_mem (s : State) (v : Word) : (s.setRdata v).mem = s.mem := rfl
@[simp] theorem setRdata_bd (s : State) (v : Word) : (s.setRdata v).bd = s.bd := rfl
@[simp] theorem setRdata_tab (s : State) (v : Word) : (s.setRdata v).tab = s.tab := rfl
@[simp] theorem setRdata_par (s : State) (v : Word) : (s.setRdata v).par = s.par := rfl
@[simp] theorem setRdata_rdata (s : State) (v : Word) : (s.setRdata v).rdata = v := rfl
@[simp] theorem setRdata_rlanes (s : State) (v : Word) :
    (s.setRdata v).rlanes = s.par.csrByteOrder.lanes v := rfl
@[simp] theorem setRdata_elem (s : State) (v : Word) : (s.setRdata v).elem = s.elem := rfl
@[simp] theorem setRdata_inputs (s : State) (v : Word) : (s.setRdata v).inputs = s.inputs := rfl
@[simp] theorem setRdata_draws (s : State) (v : Word) : (s.setRdata v).draws = s.draws := rfl

@[simp] theorem setElem_st (s : State) (v : Option Int) : (s.setElem v).st = s.st := rfl
@[simp] theorem setElem_resetDone (s : State) (v : Option Int) : (s.setElem v).resetDone = s.resetDone := rfl
@[simp] theorem setElem_x (s : State) (v : Option Int) : (s.setElem v).x = s.x := rfl
@[simp] theorem setElem_clamped (s : State) (v : Option Int) : (s.setElem v).clamped = s.clamped := rfl
@[simp] theorem setElem_tc (s : State) (v : Option Int) : (s.setElem v).tc = s.tc := rfl
@[simp] theorem setElem_csr (s : State) (v : Option Int) : (s.setElem v).csr = s.csr := rfl
@[simp] theorem setElem_mem (s : State) (v : Option Int) : (s.setElem v).mem = s.mem := rfl
@[simp] theorem setElem_bd (s : State) (v : Option Int) : (s.setElem v).bd = s.bd := rfl
@[simp] theorem setElem_tab (s : State) (v : Option Int) : (s.setElem v).tab = s.tab := rfl
@[simp] theorem setElem_par (s : State) (v : Option Int) : (s.setElem v).par = s.par := rfl
@[simp] theorem setElem_rdata (s : State) (v : Option Int) : (s.setElem v).rdata = s.rdata := rfl
@[simp] theorem setElem_elem (s : State) (v : Option Int) : (s.setElem v).elem = v := rfl
@[simp] theorem setElem_inputs (s : State) (v : Option Int) : (s.setElem v).inputs = s.inputs := rfl
@[simp] theorem setElem_draws (s : State) (v : Option Int) : (s.setElem v).draws = s.draws := rfl

@[simp] theorem setInputs_st (s : State) (v : List Input) : (s.setInputs v).st = s.st := rfl
@[simp] theorem setInputs_resetDone (s : State) (v : List Input) : (s.setInputs v).resetDone = s.resetDone := rfl
@[simp] theorem setInputs_x (s : State) (v : List Input) : (s.setInputs v).x = s.x := rfl
@[simp] theorem setInputs_clamped (s : State) (v : List Input) : (s.setInputs v).clamped = s.clamped := rfl
@[simp] theorem setInputs_tc (s : State) (v : List Input) : (s.setInputs v).tc = s.tc := rfl
@[simp] theorem setInputs_csr (s : State) (v : List Input) : (s.setInputs v).csr = s.csr := rfl
@[simp] theorem setInputs_mem (s : State) (v : List Input) : (s.setInputs v).mem = s.mem := rfl
@[simp] theorem setInputs_bd (s : State) (v : List Input) : (s.setInputs v).bd = s.bd := rfl
@[simp] theorem setInputs_tab (s : State) (v : List Input) : (s.setInputs v).tab = s.tab := rfl
@[simp] theorem setInputs_par (s : State) (v : List Input) : (s.setInputs v).par = s.par := rfl
@[simp] theorem setInputs_rdata (s : State) (v : List Input) : (s.setInputs v).rdata = s.rdata := rfl
@[simp] theorem setInputs_elem (s : State) (v : List Input) : (s.setInputs v).elem = s.elem := rfl
@[simp] theorem setInputs_inputs (s : State) (v : List Input) : (s.setInputs v).inputs = v := rfl
@[simp] theorem setInputs_draws (s : State) (v : List Input) : (s.setInputs v).draws = s.draws := rfl

@[simp] theorem setDraws_st (s : State) (v : Nat) : (s.setDraws v).st = s.st := rfl
@[simp] theorem setDraws_resetDone (s : State) (v : Nat) : (s.setDraws v).resetDone = s.resetDone := rfl
@[simp] theorem setDraws_x (s : State) (v : Nat) : (s.setDraws v).x = s.x := rfl
@[simp] theorem setDraws_clamped (s : State) (v : Nat) : (s.setDraws v).clamped = s.clamped := rfl
@[simp] theorem setDraws_tc (s : State) (v : Nat) : (s.setDraws v).tc = s.tc := rfl
@[simp] theorem setDraws_csr (s : State) (v : Nat) : (s.setDraws v).csr = s.csr := rfl
@[simp] theorem setDraws_mem (s : State) (v : Nat) : (s.setDraws v).mem = s.mem := rfl
@[simp] theorem setDraws_bd (s : State) (v : Nat) : (s.setDraws v).bd = s.bd := rfl
@[simp] theorem setDraws_tab (s : State) (v : Nat) : (s.setDraws v).tab = s.tab := rfl
@[simp] theorem setDraws_par (s : State) (v : Nat) : (s.setDraws v).par = s.par := rfl
@[simp] theorem setDraws_rdata (s : State) (v : Nat) : (s.setDraws v).rdata = s.rdata := rfl
@[simp] theorem setDraws_elem (s : State) (v : Nat) : (s.setDraws v).elem = s.elem := rfl
@[simp] theorem setDraws_inputs (s : State) (v : Nat) : (s.setDraws v).inputs = s.inputs := rfl
@[simp] theorem setDraws_draws (s : State) (v : Nat) : (s.setDraws v).draws = v := rfl

@[simp] theorem setResetDone_st (s : State) (v : Bool) : (s.setResetDone v).st = s.st := rfl
@[simp] theorem setResetDone_resetDone (s : State) (v : Bool) : (s.setResetDone v).resetDone = v := rfl
@[simp] theorem setResetDone_x (s : State) (v : Bool) : (s.setResetDone v).x = s.x := rfl
@[simp] theorem setResetDone_clamped (s : State) (v : Bool) : (s.setResetDone v).clamped = s.clamped := rfl
@[simp] theorem setResetDone_tc (s : State) (v : Bool) : (s.setResetDone v).tc = s.tc := rfl
@[simp] theorem setResetDone_csr (s : State) (v : Bool) : (s.setResetDone v).csr = s.csr := rfl
@[simp] theorem setResetDone_mem (s : State) (v : Bool) : (s.setResetDone v).mem = s.mem := rfl
@[simp] theorem setResetDone_bd (s : State) (v : Bool) : (s.setResetDone v).bd = s.bd := rfl
@[simp] theorem setResetDone_tab (s : State) (v : Bool) : (s.setResetDone v).tab = s.tab := rfl
@[simp] theorem setResetDone_par (s : State) (v : Bool) : (s.setResetDone v).par = s.par := rfl
@[simp] theorem setResetDone_rdata (s : State) (v : Bool) : (s.setResetDone v).rdata = s.rdata := rfl
@[simp] theorem setResetDone_elem (s : State) (v : Bool) : (s.setResetDone v).elem = s.elem := rfl
@[simp] theorem setResetDone_inputs (s : State) (v : Bool) : (s.setResetDone v).inputs = s.inputs := rfl
@[simp] theorem setResetDone_draws (s : State) (v : Bool) : (s.setResetDone v).draws = s.draws := rfl

/-! The lookups with the block's fields depend on the CSR block and the tables only. -/

@[simp] theorem scanPos_setSt (s : State) (v : St) (i : Nat) : (s.setSt v).scanPos i = s.scanPos i := rfl
@[simp] theorem nbPos_setSt (s : State) (v : St) (c : Nat) (j : Bool) : (s.setSt v).nbPos c j = s.nbPos c j := rfl
@[simp] theorem scanPos_setX (s : State) (v : Regs) (i : Nat) : (s.setX v).scanPos i = s.scanPos i := rfl
@[simp] theorem nbPos_setX (s : State) (v : Regs) (c : Nat) (j : Bool) : (s.setX v).nbPos c j = s.nbPos c j := rfl
@[simp] theorem scanPos_setClamped (s : State) (v : Bool) (i : Nat) : (s.setClamped v).scanPos i = s.scanPos i := rfl
@[simp] theorem nbPos_setClamped (s : State) (v : Bool) (c : Nat) (j : Bool) : (s.setClamped v).nbPos c j = s.nbPos c j := rfl
@[simp] theorem scanPos_setTc (s : State) (v : Cells (BitVec 3)) (i : Nat) : (s.setTc v).scanPos i = s.scanPos i := rfl
@[simp] theorem nbPos_setTc (s : State) (v : Cells (BitVec 3)) (c : Nat) (j : Bool) : (s.setTc v).nbPos c j = s.nbPos c j := rfl
@[simp] theorem scanPos_setMem (s : State) (v : Memory) (i : Nat) : (s.setMem v).scanPos i = s.scanPos i := rfl
@[simp] theorem nbPos_setMem (s : State) (v : Memory) (c : Nat) (j : Bool) : (s.setMem v).nbPos c j = s.nbPos c j := rfl
@[simp] theorem scanPos_setBd (s : State) (v : Nat) (i : Nat) : (s.setBd v).scanPos i = s.scanPos i := rfl
@[simp] theorem nbPos_setBd (s : State) (v : Nat) (c : Nat) (j : Bool) : (s.setBd v).nbPos c j = s.nbPos c j := rfl
@[simp] theorem scanPos_setRdata (s : State) (v : Word) (i : Nat) : (s.setRdata v).scanPos i = s.scanPos i := rfl
@[simp] theorem nbPos_setRdata (s : State) (v : Word) (c : Nat) (j : Bool) : (s.setRdata v).nbPos c j = s.nbPos c j := rfl
@[simp] theorem scanPos_setElem (s : State) (v : Option Int) (i : Nat) : (s.setElem v).scanPos i = s.scanPos i := rfl
@[simp] theorem nbPos_setElem (s : State) (v : Option Int) (c : Nat) (j : Bool) : (s.setElem v).nbPos c j = s.nbPos c j := rfl
@[simp] theorem scanPos_setInputs (s : State) (v : List Input) (i : Nat) : (s.setInputs v).scanPos i = s.scanPos i := rfl
@[simp] theorem nbPos_setInputs (s : State) (v : List Input) (c : Nat) (j : Bool) : (s.setInputs v).nbPos c j = s.nbPos c j := rfl
@[simp] theorem scanPos_setDraws (s : State) (v : Nat) (i : Nat) : (s.setDraws v).scanPos i = s.scanPos i := rfl
@[simp] theorem nbPos_setDraws (s : State) (v : Nat) (c : Nat) (j : Bool) : (s.setDraws v).nbPos c j = s.nbPos c j := rfl
@[simp] theorem scanPos_setResetDone (s : State) (v : Bool) (i : Nat) : (s.setResetDone v).scanPos i = s.scanPos i := rfl
@[simp] theorem nbPos_setResetDone (s : State) (v : Bool) (c : Nat) (j : Bool) : (s.setResetDone v).nbPos c j = s.nbPos c j := rfl
@[simp] theorem bandHere_setSt (s : State) (v : St) : (s.setSt v).bandHere = s.bandHere := rfl
@[simp] theorem probsHere_setSt (s : State) (v : St) : (s.setSt v).probsHere = s.probsHere := rfl
@[simp] theorem bandHere_setClamped (s : State) (v : Bool) : (s.setClamped v).bandHere = s.bandHere := rfl
@[simp] theorem probsHere_setClamped (s : State) (v : Bool) : (s.setClamped v).probsHere = s.probsHere := rfl
@[simp] theorem bandHere_setTc (s : State) (v : Cells (BitVec 3)) : (s.setTc v).bandHere = s.bandHere := rfl
@[simp] theorem probsHere_setTc (s : State) (v : Cells (BitVec 3)) : (s.setTc v).probsHere = s.probsHere := rfl
@[simp] theorem bandHere_setMem (s : State) (v : Memory) : (s.setMem v).bandHere = s.bandHere := rfl
@[simp] theorem probsHere_setMem (s : State) (v : Memory) : (s.setMem v).probsHere = s.probsHere := rfl
@[simp] theorem bandHere_setBd (s : State) (v : Nat) : (s.setBd v).bandHere = s.bandHere := rfl
@[simp] theorem probsHere_setBd (s : State) (v : Nat) : (s.setBd v).probsHere = s.probsHere := rfl
@[simp] theorem bandHere_setRdata (s : State) (v : Word) : (s.setRdata v).bandHere = s.bandHere := rfl
@[simp] theorem probsHere_setRdata (s : State) (v : Word) : (s.setRdata v).probsHere = s.probsHere := rfl
@[simp] theorem bandHere_setElem (s : State) (v : Option Int) : (s.setElem v).bandHere = s.bandHere := rfl
@[simp] theorem probsHere_setElem (s : State) (v : Option Int) : (s.setElem v).probsHere = s.probsHere := rfl
@[simp] theorem bandHere_setInputs (s : State) (v : List Input) : (s.setInputs v).bandHere = s.bandHere := rfl
@[simp] theorem probsHere_setInputs (s : State) (v : List Input) : (s.setInputs v).probsHere = s.probsHere := rfl
@[simp] theorem bandHere_setDraws (s : State) (v : Nat) : (s.setDraws v).bandHere = s.bandHere := rfl
@[simp] theorem probsHere_setDraws (s : State) (v : Nat) : (s.setDraws v).probsHere = s.probsHere := rfl
@[simp] theorem bandHere_setResetDone (s : State) (v : Bool) : (s.setResetDone v).bandHere = s.bandHere := rfl
@[simp] theorem probsHere_setResetDone (s : State) (v : Bool) : (s.setResetDone v).probsHere = s.probsHere := rfl

end Sys2Proof.Machine.State
end

