-- ==== Sys2Proof/Laws/Ops.lean ====
section
/-! SUPPORT. One lemma per shared operation that says everything it can do, which proofs cite instead of
unfolding the operation; and that every operation keeps the canonical form of the memory. -/

namespace Sys2Proof.Machine

/-! ## Sequencing -/

theorem andThen_eq_next (r : Result) (f : State → Result) (t : State) :
    andThen r f = .next t ↔ ∃ s, r = .next s ∧ f s = .next t := by
  cases r <;> simp [andThen]

@[simp] theorem andThen_next (s : State) (f : State → Result) : andThen (.next s) f = f s := rfl

/-! ## Field values and sizes -/

theorem planeOf_eq_some (f : BitVec 2) (p : Plane) :
    planeOf f = some p ↔ f.toNat = (match p with | .p0 => 0 | .p1 => 1 | .p2 => 2) := by
  unfold planeOf
  have h := f.isLt
  simp only [BitVec.toNat_eq]
  cases p <;> (repeat' split) <;> simp_all

theorem unitsOf_le (tx : BitVec 2) : 1 ≤ unitsOf tx ∧ unitsOf tx ≤ 8 := by
  revert tx
  decide

theorem maxEobOf_le (tx : BitVec 2) : 16 ≤ maxEobOf tx ∧ maxEobOf tx ≤ 1024 := by
  revert tx
  decide

theorem cntPrefix_lt (tx : BitVec 2) (a b : Bool) : cntPrefix tx a b < 16 := by
  revert tx a b
  decide

theorem bandAt_lt (t : Tables) (tx : BitVec 2) (i : Nat) : (t.bandAt tx i).toNat < Config.nBands := by
  unfold Tables.bandAt
  generalize (assoc (tx, i) t.band).getD (Config.band tx i) = b
  have := b.isLt
  simp only [BitVec.toNat_ofNat]
  omega

theorem initCtxAt_lt (q : Params) (tx : BitVec 2) (a l : List Bool) :
    (q.initCtxAt tx a l).toNat < Config.nCtx := by
  unfold Params.initCtxAt
  generalize (assoc (tx, a, l) q.initCtx).getD (Config.initCtx tx a l) = b
  have := b.isLt
  simp only [BitVec.toNat_ofNat]
  omega

theorem ctxForAt_lt (q : Params) (e0 e1 : BitVec 3) : (q.ctxForAt e0 e1).toNat < Config.nCtx := by
  unfold Params.ctxForAt
  generalize (assoc (e0, e1) q.ctxFor).getD (Config.ctxFor e0 e1) = b
  have := b.isLt
  simp only [BitVec.toNat_ofNat]
  omega

@[simp] theorem length_edgeFlags (n k : Nat) (b : Bool) : (edgeFlags n k b).length = n := by
  simp [edgeFlags]

theorem getElem?_edgeFlags (n k i : Nat) (b : Bool) (h : i < n) :
    (edgeFlags n k b)[i]? = some (decide (i < n - k) && b) := by
  simp [edgeFlags, h]

/-! ## The stream -/

/-- One bool read delivers one bit for its probability and changes the bool decoder only. -/
theorem boolRead_cases (p : Prob) (s : State) :
    ∃ b bd, boolRead p s = (b, s.setBd bd) ∧ s.par.Delivers [(p, b)] s.bd bd :=
  ⟨_, _, rfl, rfl, rfl⟩

theorem length_bitsRead (q : Params) (pv : List Prob) (bd : Nat) : (q.bitsRead pv bd).1.length = pv.length := by
  induction pv generalizing bd with
  | nil => rfl
  | cons p pv ih => simp [Params.bitsRead, ih]

/-- The loop of READ_CAT assembles the bits read, as far as they fit EXT and BITI. -/
theorem readBits_eq (q : Params) (pv : List Prob) (ext : BitVec 18) (biti : BitVec 5) (bd : Nat) :
    readBits q pv ext biti bd =
      (BitVec.ofNat 18 ((q.bitsRead pv bd).1.foldl (fun e b => 2 * e + b.toNat) ext.toNat),
        biti + BitVec.ofNat 5 pv.length, (q.bitsRead pv bd).2) := by
  have shift : ∀ (l : List Bool) (a c : Nat), a % 2 ^ 18 = c % 2 ^ 18 →
      l.foldl (fun e b => 2 * e + b.toNat) a % 2 ^ 18 =
        l.foldl (fun e b => 2 * e + b.toNat) c % 2 ^ 18 := by
    intro l
    induction l with
    | nil => exact fun a c h => h
    | cons b l ih =>
      intro a c h
      simp only [List.foldl_cons]
      apply ih
      omega
  induction pv generalizing ext biti bd with
  | nil =>
    simp only [readBits, Params.bitsRead, List.foldl_nil, BitVec.ofNat_toNat, BitVec.setWidth_eq,
      List.length_nil]
    congr 2
    simp
  | cons p pv ih =>
    simp only [readBits, Params.bitsRead, ih, List.foldl_cons, List.length_cons]
    refine Prod.ext ?_ (Prod.ext ?_ rfl)
    · apply BitVec.eq_of_toNat_eq
      simp only [BitVec.toNat_ofNat]
      apply shift
      generalize (q.boolDecAt bd p).1 = b
      have hb : ((BitVec.ofBool b).setWidth 18).toNat = b.toNat := by cases b <;> rfl
      rw [BitVec.toNat_add, BitVec.toNat_shiftLeft, hb, Nat.shiftLeft_eq]
      omega
    · apply BitVec.eq_of_toNat_eq
      have h1 : (1 : BitVec 5).toNat = 1 := rfl
      simp only [BitVec.toNat_add, BitVec.toNat_ofNat, h1]
      omega

/-- READ_CAT changes EXT, BITI and the bool decoder only. -/
theorem readCat_eq (pv : List Prob) (s : State) :
    readCat pv s = (s.setX { s.x with
      ext := BitVec.ofNat 18 (ofBitsMsb (s.par.bitsRead pv s.bd).1)
      biti := BitVec.ofNat 5 pv.length }).setBd (s.par.bitsRead pv s.bd).2 := by
  simp only [readCat, readBits_eq, ofBitsMsb]
  simp

theorem ofBitsMsb_lt (l : List Bool) : ofBitsMsb l < 2 ^ l.length := by
  have key : ∀ (l : List Bool) (a : Nat),
      l.foldl (fun e b => 2 * e + b.toNat) a < (a + 1) * 2 ^ l.length := by
    intro l
    induction l with
    | nil => simp
    | cons b l ih =>
      intro a
      simp only [List.foldl_cons, List.length_cons]
      have h1 := ih (2 * a + b.toNat)
      have h2 : b.toNat ≤ 1 := by cases b <;> decide
      calc _ < (2 * a + b.toNat + 1) * 2 ^ l.length := h1
        _ ≤ (2 * (a + 1)) * 2 ^ l.length := Nat.mul_le_mul_right _ (by omega)
        _ = (a + 1) * 2 ^ (l.length + 1) := by rw [Nat.pow_succ]; ring
  simpa [ofBitsMsb] using key l 0

theorem delivers_append (q : Params) (l l' : List (Prob × Bool)) (bd bd' : Nat) :
    q.Delivers (l ++ l') bd bd' ↔ ∃ m, q.Delivers l bd m ∧ q.Delivers l' m bd' := by
  induction l generalizing bd with
  | nil => simp [Params.Delivers]
  | cons e l ih =>
    obtain ⟨p, b⟩ := e
    simp only [List.cons_append, Params.Delivers, ih]
    constructor
    · rintro ⟨h, m, h1, h2⟩
      exact ⟨m, ⟨h, h1⟩, h2⟩
    · rintro ⟨m, ⟨h, h1⟩, h2⟩
      exact ⟨h, m, h1, h2⟩

/-! ## Statistics -/

theorem incCnt_cases {k : CntKind} {s t : State} (h : incCnt k s = .next t) :
    (s.csr.statsEn = false ∧ t = s) ∨
    (s.csr.statsEn = true ∧ ∃ n, s.mem.cnt.read (s.cntHere k) = some n ∧
      t = s.setMem { s.mem with cnt := s.mem.cnt.write (s.cntHere k) (n + 1) }) := by
  unfold incCnt at h
  split at h
  · rename_i hs
    split at h
    · simp at h
    · rename_i n hn
      simp only [Host.Outcome.next.injEq] at h
      exact .inr ⟨hs, n, hn, h.symm⟩
  · rename_i hs
    simp only [Host.Outcome.next.injEq] at h
    exact .inl ⟨by simpa using hs, h.symm⟩

theorem incEobbr_cases {s t : State} (h : incEobbr s = .next t) :
    (s.csr.statsEn = false ∧ t = s) ∨
    (s.csr.statsEn = true ∧ ∃ n, s.mem.eobbr.read s.eobbrHere = some n ∧
      t = s.setMem { s.mem with eobbr := s.mem.eobbr.write s.eobbrHere (n + 1) }) := by
  unfold incEobbr at h
  split at h
  · rename_i hs
    split at h
    · simp at h
    · rename_i n hn
      simp only [Host.Outcome.next.injEq] at h
      exact .inr ⟨hs, n, hn, h.symm⟩
  · rename_i hs
    simp only [Host.Outcome.next.injEq] at h
    exact .inl ⟨by simpa using hs, h.symm⟩

theorem incCnt_of_read {k : CntKind} {s : State} (hs : s.csr.statsEn = true) {n : BitVec 32}
    (hn : s.mem.cnt.read (s.cntHere k) = some n) :
    incCnt k s = .next (s.setMem { s.mem with cnt := s.mem.cnt.write (s.cntHere k) (n + 1) }) := by
  simp [incCnt, hs, hn]

theorem incCnt_of_off {k : CntKind} {s : State} (hs : s.csr.statsEn = false) : incCnt k s = .next s := by
  simp [incCnt, hs]

theorem incEobbr_of_read {s : State} (hs : s.csr.statsEn = true) {n : BitVec 32}
    (hn : s.mem.eobbr.read s.eobbrHere = some n) :
    incEobbr s = .next (s.setMem { s.mem with eobbr := s.mem.eobbr.write s.eobbrHere (n + 1) }) := by
  simp [incEobbr, hs, hn]

theorem incEobbr_of_off {s : State} (hs : s.csr.statsEn = false) : incEobbr s = .next s := by
  simp [incEobbr, hs]

/-- INC changes one counter space: one element of it, by one. -/
theorem incCnt_counted {k : CntKind} {s t : State} (h : incCnt k s = .next t) :
    (∃ m, t = s.setMem { s.mem with cnt := m }) ∧
      Counted s.csr.statsEn s.mem.cnt t.mem.cnt [s.cntHere k] := by
  rcases incCnt_cases h with ⟨hs, rfl⟩ | ⟨hs, n, hn, rfl⟩
  · exact ⟨⟨t.mem.cnt, rfl⟩, fun i => by simp [hs]⟩
  · refine ⟨⟨_, rfl⟩, fun i => ?_⟩
    simp only [State.setMem_mem, hs, Cells.read_write, List.mem_singleton, true_and]
    split
    · rename_i hi
      simp [hi, hn]
    · rfl

theorem incEobbr_counted {s t : State} (h : incEobbr s = .next t) :
    (∃ m, t = s.setMem { s.mem with eobbr := m }) ∧
      Counted s.csr.statsEn s.mem.eobbr t.mem.eobbr [s.eobbrHere] := by
  rcases incEobbr_cases h with ⟨hs, rfl⟩ | ⟨hs, n, hn, rfl⟩
  · exact ⟨⟨t.mem.eobbr, rfl⟩, fun i => by simp [hs]⟩
  · refine ⟨⟨_, rfl⟩, fun i => ?_⟩
    simp only [State.setMem_mem, hs, Cells.read_write, List.mem_singleton, true_and]
    split
    · rename_i hi
      simp [hi, hn]
    · rfl

theorem incCnt_completes {k : CntKind} {s : State}
    (h : s.csr.statsEn = true → ∃ n, s.mem.cnt.read (s.cntHere k) = some n) : ∃ t, incCnt k s = .next t := by
  cases hs : s.csr.statsEn with
  | false => exact ⟨s, incCnt_of_off hs⟩
  | true =>
    obtain ⟨n, hn⟩ := h hs
    exact ⟨_, incCnt_of_read hs hn⟩

theorem incEobbr_completes {s : State}
    (h : s.csr.statsEn = true → ∃ n, s.mem.eobbr.read s.eobbrHere = some n) : ∃ t, incEobbr s = .next t := by
  cases hs : s.csr.statsEn with
  | false => exact ⟨s, incEobbr_of_off hs⟩
  | true =>
    obtain ⟨n, hn⟩ := h hs
    exact ⟨_, incEobbr_of_read hs hn⟩

/-! ## The context tracker -/

theorem initCtx_cases {s t : State} (h : initCtx s = .next t) :
    ∃ p a l, planeOf s.csr.plane = some p ∧
      (s.mem.above.get p).cells.readSlice s.csr.posX s.x.nunits.toNat = some a ∧
      (s.mem.left.get p).cells.readSlice s.csr.posY s.x.nunits.toNat = some l ∧
      t = s.setX { s.x with ctx := s.par.initCtxAt s.csr.tx a l } := by
  unfold initCtx at h
  split at h
  · simp at h
  · rename_i p hp
    split at h
    · simp at h
    · rename_i a ha
      split at h
      · simp at h
      · rename_i l hl
        simp only [Host.Outcome.next.injEq] at h
        exact ⟨p, a, l, hp, ha, hl, h.symm⟩

theorem initCtx_of_slices {s : State} {p : Plane} {a l : List Bool} (hp : planeOf s.csr.plane = some p)
    (ha : (s.mem.above.get p).cells.readSlice s.csr.posX s.x.nunits.toNat = some a)
    (hl : (s.mem.left.get p).cells.readSlice s.csr.posY s.x.nunits.toNat = some l) :
    initCtx s = .next (s.setX { s.x with ctx := s.par.initCtxAt s.csr.tx a l }) := by
  simp [initCtx, hp, ha, hl]

theorem ctxUpdate_cases {s t : State} (h : ctxUpdate s = .next t) :
    ∃ e0 e1, s.tc.read (s.nbPos s.x.c.toNat false).toNat = some e0 ∧
      s.tc.read (s.nbPos s.x.c.toNat true).toNat = some e1 ∧
      t = s.setX { s.x with ctx := s.par.ctxForAt e0 e1 } := by
  unfold ctxUpdate at h
  split at h
  · rename_i e0 e1 h0 h1
    simp only [Host.Outcome.next.injEq] at h
    exact ⟨e0, e1, h0, h1, h.symm⟩
  · simp at h

theorem ctxUpdate_of_read {s : State} {e0 e1 : BitVec 3}
    (h0 : s.tc.read (s.nbPos s.x.c.toNat false).toNat = some e0)
    (h1 : s.tc.read (s.nbPos s.x.c.toNat true).toNat = some e1) :
    ctxUpdate s = .next (s.setX { s.x with ctx := s.par.ctxForAt e0 e1 }) := by
  simp [ctxUpdate, h0, h1]

theorem latchProbs_eq (s : State) : latchProbs s = s.setX { s.x with
    band := s.bandHere
    p := s.tab.probAt s.csr.tx s.csr.ptype s.csr.ref s.bandHere s.x.ctx } := rfl

/-! ## Coefficients and edges -/

theorem writeCoef_cases {s t : State} (h : writeCoef s = .next t) :
    ∃ p, planeOf s.csr.plane = some p ∧
      t = s.setMem { s.mem with
        coef := s.mem.coef.set p ((s.mem.coef.get p).write s.x.pos.toNat s.x.coefv) } := by
  unfold writeCoef at h
  split at h
  · simp at h
  · rename_i p hp
    simp only [Host.Outcome.next.injEq] at h
    exact ⟨p, hp, h.symm⟩

theorem writeCoef_of_plane {s : State} {p : Plane} (hp : planeOf s.csr.plane = some p) :
    writeCoef s = .next (s.setMem { s.mem with
      coef := s.mem.coef.set p ((s.mem.coef.get p).write s.x.pos.toNat s.x.coefv) }) := by
  simp [writeCoef, hp]

/-- The above or left array after the edge writer has written `n` units from `lo`. -/
theorem edgeWrite_cases {s t : State} (h : edgeWrite s = .next t) :
    ∃ p, planeOf s.csr.plane = some p ∧
      s.csr.posX + s.x.nunits.toNat ≤ (s.mem.above.get p).len ∧
      s.csr.posY + s.x.nunits.toNat ≤ (s.mem.left.get p).len ∧
      t = (s.setX { s.x with hasnz := hasNonzero s.x.c }).setMem { s.mem with
        above := s.mem.above.set p { s.mem.above.get p with
          cells := (s.mem.above.get p).cells.writeSlice s.csr.posX
            (edgeFlags s.x.nunits.toNat (clippedUnits s.x.nunits.toNat s.csr.dr) (hasNonzero s.x.c)) }
        left := s.mem.left.set p { s.mem.left.get p with
          cells := (s.mem.left.get p).cells.writeSlice s.csr.posY
            (edgeFlags s.x.nunits.toNat (clippedUnits s.x.nunits.toNat s.csr.db) (hasNonzero s.x.c)) } } := by
  unfold edgeWrite at h
  dsimp only at h
  split at h
  · simp at h
  · rename_i p hp
    split at h
    · simp at h
    · rename_i ha
      split at h
      · simp at h
      · rename_i hl
        simp only [Host.Outcome.next.injEq] at h
        exact ⟨p, hp, by omega, by omega, h.symm⟩

theorem edgeWrite_of_room {s : State} {p : Plane} (hp : planeOf s.csr.plane = some p)
    (ha : s.csr.posX + s.x.nunits.toNat ≤ (s.mem.above.get p).len)
    (hl : s.csr.posY + s.x.nunits.toNat ≤ (s.mem.left.get p).len) :
    edgeWrite s = .next ((s.setX { s.x with hasnz := hasNonzero s.x.c }).setMem { s.mem with
      above := s.mem.above.set p { s.mem.above.get p with
        cells := (s.mem.above.get p).cells.writeSlice s.csr.posX
          (edgeFlags s.x.nunits.toNat (clippedUnits s.x.nunits.toNat s.csr.dr) (hasNonzero s.x.c)) }
      left := s.mem.left.set p { s.mem.left.get p with
        cells := (s.mem.left.get p).cells.writeSlice s.csr.posY
          (edgeFlags s.x.nunits.toNat (clippedUnits s.x.nunits.toNat s.csr.db) (hasNonzero s.x.c)) } }) := by
  unfold edgeWrite
  simp only [hp]
  rw [if_neg (by omega), if_neg (by omega)]

/-! ## Exact arithmetic (43_token_decoder.md R167) -/

theorem product_lt (val : BitVec 19) (q : BitVec 16) : val.toNat * q.toNat < 2 ^ 35 := by
  have h1 := val.isLt
  have h2 := q.isLt
  calc val.toNat * q.toNat ≤ (2 ^ 19 - 1) * (2 ^ 16 - 1) :=
        Nat.mul_le_mul (by omega) (by omega)
    _ < 2 ^ 35 := by norm_num

theorem dequantize_toNat (val : BitVec 19) (q : BitVec 16) (tx : BitVec 2) :
    (dequantize val q tx).toNat =
      if tx = txMax then val.toNat * q.toNat / 2 else val.toNat * q.toNat := by
  have h := product_lt val q
  unfold dequantize
  rw [BitVec.toNat_ofNat, Nat.mod_eq_of_lt]
  · split <;> simp [Nat.shiftRight_eq_div_pow]
  · exact lt_of_le_of_lt (Nat.shiftRight_le _ _) h

theorem ofInt36_toInt {x : Int} (h1 : -(2 ^ 35) ≤ x) (h2 : x < 2 ^ 35) : (BitVec.ofInt 36 x).toInt = x := by
  rw [BitVec.toInt_ofInt]
  exact Int.bmod_eq_of_le (by norm_num; omega) (by norm_num; omega)

theorem applySign_toInt (v : BitVec 35) (b : Bool) :
    (applySign v b).toInt = if b then -(v.toNat : Int) else (v.toNat : Int) := by
  have h := v.isLt
  unfold applySign
  apply ofInt36_toInt
  · split <;> omega
  · split <;> omega

theorem clampTo_toInt (l : Limits) (x : BitVec 36) :
    (clampTo l x).toInt = min (max x.toInt (-(l.below : Int))) (l.above : Int) := by
  have h1 := BitVec.two_mul_toInt_lt (x := x)
  have h2 := BitVec.le_two_mul_toInt (x := x)
  unfold clampTo
  apply ofInt36_toInt <;> omega

/-! ## Reset and START -/

/-- The reset operation leaves the working registers, the token cache, the tables, the parameters, the
inputs; and from a state that is not busy the memory and the bool decoder. -/
theorem resetOp_frame (s : State) :
    (resetOp s).x = s.x ∧ (resetOp s).tc = s.tc ∧ (resetOp s).tab = s.tab ∧ (resetOp s).par = s.par ∧
      (resetOp s).rdata = s.rdata ∧ (resetOp s).elem = s.elem ∧ (resetOp s).inputs = s.inputs ∧
      (s.st.busy = false → (resetOp s).mem = s.mem ∧ (resetOp s).bd = s.bd ∧ (resetOp s).draws = s.draws) := by
  unfold resetOp
  split
  · rename_i h
    refine ⟨rfl, rfl, rfl, rfl, rfl, rfl, rfl, fun hb => ?_⟩
    simp [hb] at h
  · exact ⟨rfl, rfl, rfl, rfl, rfl, rfl, rfl, fun _ => ⟨rfl, rfl, rfl⟩⟩

theorem resetOp_control (s : State) :
    (resetOp s).st = .idle ∧ (resetOp s).clamped = false ∧ (resetOp s).csr = .zero ∧
      (resetOp s).resetDone = true := by
  unfold resetOp
  split <;> exact ⟨rfl, rfl, rfl, rfl⟩

theorem startOp_cases {s t : State} (h : startOp s = .next t) :
    ((s.st = .idle ∨ s.st = .done) ∧ violatedPrecond s = none ∧
      t = (s.setClamped false).setSt .setup) ∨
    (s.st ≠ .idle ∧ s.st ≠ .done ∧ t = s) := by
  unfold startOp at h
  split at h
  · split at h
    · simp at h
    · rename_i hs _ hv
      simp only [Host.Outcome.next.injEq] at h
      exact .inl ⟨.inl hs, hv, h.symm⟩
  · split at h
    · simp at h
    · rename_i hs _ hv
      simp only [Host.Outcome.next.injEq] at h
      exact .inl ⟨.inr hs, hv, h.symm⟩
  all_goals
    rename_i hs
    simp only [Host.Outcome.next.injEq] at h
    exact .inr ⟨by simp [hs], by simp [hs], h.symm⟩

/-! ## The canonical form is kept -/

theorem incCnt_wf {k : CntKind} {s t : State} (h : incCnt k s = .next t) (hw : s.mem.wf = true) :
    t.mem.wf = true := by
  rcases incCnt_cases h with ⟨_, rfl⟩ | ⟨_, n, hn, rfl⟩
  · exact hw
  · rw [Memory.wf_iff] at hw ⊢
    obtain ⟨h1, h2, h3, h4, h5⟩ := hw
    exact ⟨h1, h2, h3, Cells.wf_write _ _ _ _ h4 (Cells.lt_of_read _ _ _ _ h4 hn), h5⟩

theorem incEobbr_wf {s t : State} (h : incEobbr s = .next t) (hw : s.mem.wf = true) :
    t.mem.wf = true := by
  rcases incEobbr_cases h with ⟨_, rfl⟩ | ⟨_, n, hn, rfl⟩
  · exact hw
  · rw [Memory.wf_iff] at hw ⊢
    obtain ⟨h1, h2, h3, h4, h5⟩ := hw
    exact ⟨h1, h2, h3, h4, Cells.wf_write _ _ _ _ h5 (Cells.lt_of_read _ _ _ _ h5 hn)⟩

theorem writeCoef_wf {s t : State} (h : writeCoef s = .next t) (hw : s.mem.wf = true) :
    t.mem.wf = true := by
  obtain ⟨p, _, rfl⟩ := writeCoef_cases h
  rw [Memory.wf_iff] at hw ⊢
  obtain ⟨h1, h2, h3, h4, h5⟩ := hw
  refine ⟨PerPlane.all_set _ _ _ _ h1 ?_, h2, h3, h4, h5⟩
  exact Cells.wf_write _ _ _ _ ((PerPlane.all_iff _ _).mp h1 p) s.x.pos.isLt

theorem edgeWrite_wf {s t : State} (h : edgeWrite s = .next t) (hw : s.mem.wf = true) :
    t.mem.wf = true := by
  obtain ⟨p, _, ha, hl, rfl⟩ := edgeWrite_cases h
  rw [Memory.wf_iff] at hw ⊢
  obtain ⟨h1, h2, h3, h4, h5⟩ := hw
  refine ⟨h1, PerPlane.all_set _ _ _ _ h2 ?_, PerPlane.all_set _ _ _ _ h3 ?_, h4, h5⟩
  · exact FlagArray.wf_writeSlice _ _ _ ((PerPlane.all_iff _ _).mp h2 p) (by simpa using ha)
  · exact FlagArray.wf_writeSlice _ _ _ ((PerPlane.all_iff _ _).mp h3 p) (by simpa using hl)

theorem abandon_wf (s : State) (hw : s.mem.wf = true) : (abandon s).mem.wf = true := by
  have step1 : ∀ p, Memory.wf { s.mem with
      coef := s.mem.coef.set p ((s.mem.coef.get p).forget 0 (maxEobOf s.csr.tx))
      above := s.mem.above.set p { s.mem.above.get p with
        cells := (s.mem.above.get p).cells.forget s.csr.posX (unitsOf s.csr.tx) }
      left := s.mem.left.set p { s.mem.left.get p with
        cells := (s.mem.left.get p).cells.forget s.csr.posY (unitsOf s.csr.tx) } } = true := by
    intro p
    rw [Memory.wf_iff] at hw ⊢
    obtain ⟨h1, h2, h3, h4, h5⟩ := hw
    refine ⟨PerPlane.all_set _ _ _ _ h1 ?_, PerPlane.all_set _ _ _ _ h2 ?_,
      PerPlane.all_set _ _ _ _ h3 ?_, h4, h5⟩
    · exact Cells.wf_forget _ _ _ _ ((PerPlane.all_iff _ _).mp h1 p)
    · exact FlagArray.wf_forget _ _ _ ((PerPlane.all_iff _ _).mp h2 p)
    · exact FlagArray.wf_forget _ _ _ ((PerPlane.all_iff _ _).mp h3 p)
  have step2 : ∀ m : Memory, m.wf = true → ∀ lo lo' n n', Memory.wf { m with
      cnt := m.cnt.forget lo n, eobbr := m.eobbr.forget lo' n' } = true := by
    intro m hm lo lo' n n'
    rw [Memory.wf_iff] at hm ⊢
    obtain ⟨h1, h2, h3, h4, h5⟩ := hm
    exact ⟨h1, h2, h3, Cells.wf_forget _ _ _ _ h4, Cells.wf_forget _ _ _ _ h5⟩
  unfold abandon
  simp only [State.setDraws_mem, State.setBd_mem, State.setMem_mem]
  cases planeOf s.csr.plane with
  | none =>
    simp only
    split
    · exact step2 _ hw _ _ _ _
    · exact hw
  | some p =>
    simp only
    split
    · exact step2 _ (step1 p) _ _ _ _
    · exact step1 p

theorem resetOp_wf (s : State) (hw : s.mem.wf = true) : (resetOp s).mem.wf = true := by
  unfold resetOp
  split
  · exact abandon_wf s hw
  · exact hw

theorem Store.write_wf (sp : Store) (m : Memory) (i : Nat) (v : Int) (hi : i < sp.size m)
    (hw : m.wf = true) : (sp.write m i v).wf = true := by
  rw [Memory.wf_iff] at hw ⊢
  obtain ⟨h1, h2, h3, h4, h5⟩ := hw
  cases sp with
  | coef p =>
    exact ⟨PerPlane.all_set _ _ _ _ h1 (Cells.wf_write _ _ _ _ ((PerPlane.all_iff _ _).mp h1 p) hi), h2, h3, h4, h5⟩
  | above p =>
    refine ⟨h1, PerPlane.all_set _ _ _ _ h2 ?_, h3, h4, h5⟩
    exact Cells.wf_write _ _ _ _ ((PerPlane.all_iff _ _).mp h2 p) hi
  | left p =>
    refine ⟨h1, h2, PerPlane.all_set _ _ _ _ h3 ?_, h4, h5⟩
    exact Cells.wf_write _ _ _ _ ((PerPlane.all_iff _ _).mp h3 p) hi
  | cnt => exact ⟨h1, h2, h3, Cells.wf_write _ _ _ _ h4 hi, h5⟩
  | eobbr => exact ⟨h1, h2, h3, h4, Cells.wf_write _ _ _ _ h5 hi⟩

theorem Store.fill_wf (sp : Store) (m : Memory) (v : Int) (hw : m.wf = true) :
    (sp.fill m v).wf = true := by
  rw [Memory.wf_iff] at hw ⊢
  obtain ⟨h1, h2, h3, h4, h5⟩ := hw
  cases sp <;> simp only [Store.fill]
  case coef p => exact ⟨PerPlane.all_set _ _ _ _ h1 (Cells.wf_fill Config.coefSlots _), h2, h3, h4, h5⟩
  case above p => exact ⟨h1, PerPlane.all_set _ _ _ _ h2 (Cells.wf_fill _ _), h3, h4, h5⟩
  case left p => exact ⟨h1, h2, PerPlane.all_set _ _ _ _ h3 (Cells.wf_fill _ _), h4, h5⟩
  case cnt => exact ⟨h1, h2, h3, Cells.wf_fill Config.cntSlots _, h5⟩
  case eobbr => exact ⟨h1, h2, h3, h4, Cells.wf_fill Config.eobbrSlots _⟩

theorem Memory.supply_wf (m : Memory) (side : Side) (p : Plane) (len : Nat) (hw : m.wf = true) :
    (m.supply side p len).wf = true := by
  rw [Memory.wf_iff] at hw ⊢
  obtain ⟨h1, h2, h3, h4, h5⟩ := hw
  cases side with
  | above => exact ⟨h1, PerPlane.all_set _ _ _ _ h2 (Cells.wf_nil _), h3, h4, h5⟩
  | left => exact ⟨h1, h2, PerPlane.all_set _ _ _ _ h3 (Cells.wf_nil _), h4, h5⟩

end Sys2Proof.Machine
end

