-- ==== Sys2Proof/Laws/Stream.lean ====
section
/-! SUPPORT. What the reads of the stream deliver (00_scope.md R12, R16): a sequence of probabilities and a
`HigherToken` tree, each in both directions. -/

namespace Sys2Proof.Machine

/-- What reading with `pv` returned was delivered for `pv`. -/
theorem delivers_bitsRead (q : Params) (pv : List Prob) (bd : Nat) :
    q.Delivers (pv.zip (q.bitsRead pv bd).1) bd (q.bitsRead pv bd).2 := by
  induction pv generalizing bd with
  | nil => simp [Params.bitsRead, Params.Delivers]
  | cons p pv ih => simp [Params.bitsRead, Params.Delivers, ih]

/-- Reading with `pv` returns what is delivered for `pv`. -/
theorem bitsRead_of_delivers (q : Params) (pv : List Prob) (bits : List Bool) (bd bd' : Nat)
    (hl : bits.length = pv.length) (hd : q.Delivers (pv.zip bits) bd bd') :
    q.bitsRead pv bd = (bits, bd') := by
  induction pv generalizing bits bd with
  | nil =>
    simp only [List.length_nil, List.length_eq_zero_iff] at hl
    subst hl
    simp only [List.zip_nil_left, Params.Delivers] at hd
    simp [Params.bitsRead, hd]
  | cons p pv ih =>
    cases bits with
    | nil => simp at hl
    | cons b bits =>
      obtain ⟨h1, h2⟩ := hd
      simp only [List.length_cons, Nat.add_right_cancel_iff] at hl
      simp [Params.bitsRead, ih _ _ hl h2, h1]

/-- The loop of READ_CAT on a stream that delivers `bits`. -/
theorem readCat_of_delivers (pv : List Prob) (s : State) (bits : List Bool) (bd : Nat)
    (hl : bits.length = pv.length) (hd : s.par.Delivers (pv.zip bits) s.bd bd) :
    readCat pv s = (s.setX { s.x with
      ext := BitVec.ofNat 18 (ofBitsMsb bits), biti := BitVec.ofNat 5 pv.length }).setBd bd := by
  rw [readCat_eq, bitsRead_of_delivers _ _ _ _ _ hl hd]

/-- A run of a tree follows a path of it, whose reads the stream delivers. -/
theorem runTree_cases (q : Params) (h : HTree) (bd : Nat) :
    ∃ path, HTree.Path h path (runTree q h bd).1 ∧ q.Delivers path bd (runTree q h bd).2 := by
  induction h generalizing bd with
  | leaf t => exact ⟨[], .leaf t, rfl⟩
  | node p a b iha ihb =>
    simp only [runTree]
    cases hb : (q.boolDecAt bd p).1
    · obtain ⟨l, h1, h2⟩ := iha (q.boolDecAt bd p).2
      exact ⟨(p, false) :: l, .left _ _ _ _ _ (by simpa using h1), hb, by simpa using h2⟩
    · obtain ⟨l, h1, h2⟩ := ihb (q.boolDecAt bd p).2
      exact ⟨(p, true) :: l, .right _ _ _ _ _ (by simpa using h1), hb, by simpa using h2⟩

/-- On a stream that delivers a path's reads, the tree arrives at the path's token. -/
theorem runTree_of_path (q : Params) (h : HTree) (path : List (Prob × Bool)) (t : HigherTok)
    (bd bd' : Nat) (hp : HTree.Path h path t) (hd : q.Delivers path bd bd') :
    runTree q h bd = (t, bd') := by
  induction hp generalizing bd with
  | leaf t =>
    simp only [Params.Delivers] at hd
    simp [runTree, hd]
  | left p a b l t hp ih =>
    obtain ⟨h1, h2⟩ := hd
    simpa [runTree, h1] using ih _ h2
  | right p a b l t hp ih =>
    obtain ⟨h1, h2⟩ := hd
    simpa [runTree, h1] using ih _ h2

/-- No path is longer than the tree is deep: the depth bounds the reads (`HT_MAX`, R12). -/
theorem length_path_le (h : HTree) (path : List (Prob × Bool)) (t : HigherTok) (hp : HTree.Path h path t) :
    path.length ≤ h.depth := by
  induction hp with
  | leaf t => exact Nat.le_refl _
  | left p a b l t hp ih =>
    simp only [List.length_cons, HTree.depth]
    omega
  | right p a b l t hp ih =>
    simp only [List.length_cons, HTree.depth]
    omega

end Sys2Proof.Machine
end

