-- ==== Sys2Proof/Laws/Effects.lean ====
section
/-! SUPPORT. What the composed operations can do: the effect of a ZERO token, the category
tokens, CSRRD and its byte lanes. -/

namespace Sys2Proof.Machine

/-- The state in which a ZERO token that was counted in `u` has written its cache entry and advanced C
(43_token_decoder.md R150). -/
abbrev zeroWritten (u : State) : State :=
  advanceC (writeTc 0 (setPos (u.setX { u.x with dqsel := u.par.zrunDq.apply u.x.dqsel })))

/-- Everything a ZERO token can do when it completes. -/
theorem zeroEffect_cases {s t : State} (h : zeroEffect s = .next t) :
    ∃ u, incCnt .zero s = .next u ∧
      (((zeroWritten u).x.c = (zeroWritten u).x.maxeob ∧ t = (zeroWritten u).setSt .edge) ∨
       ((zeroWritten u).x.c ≠ (zeroWritten u).x.maxeob ∧ ∃ v, ctxUpdate (zeroWritten u) = .next v ∧
          ((v.par.eobbrPolicy = .perEobTest ∧ t = (latchProbs v).setSt .zerot) ∨
           (v.par.eobbrPolicy = .perPosition ∧ ∃ w, incEobbr (latchProbs v) = .next w ∧
              t = w.setSt .zerot)))) := by
  unfold zeroEffect at h
  obtain ⟨u, hu, h⟩ := (andThen_eq_next _ _ _).mp h
  refine ⟨u, hu, ?_⟩
  dsimp only at h
  split at h
  · rename_i hc
    simp only [Host.Outcome.next.injEq] at h
    exact .inl ⟨hc, h.symm⟩
  · rename_i hc
    obtain ⟨v, hv, h⟩ := (andThen_eq_next _ _ _).mp h
    refine .inr ⟨hc, v, hv, ?_⟩
    have hp : (latchProbs v).par = v.par := rfl
    rw [hp] at h
    split at h
    · rename_i hpol
      obtain ⟨w, hw, h⟩ := (andThen_eq_next _ _ _).mp h
      simp only [Host.Outcome.next.injEq] at h
      exact .inr ⟨hpol, w, hw, h.symm⟩
    · rename_i hpol
      simp only [Host.Outcome.next.injEq] at h
      exact .inl ⟨hpol, h.symm⟩

/-- A category token loads base plus extension and touches nothing but EXT, BITI, VAL, ST and the stream
(43_token_decoder.md R155 to R160). -/
theorem readCategory_eq (k : Nat) (pv : List Prob) (s : State) :
    readCategory k pv s = { s with
      x := { s.x with
        ext := BitVec.ofNat 18 (ofBitsMsb (s.par.bitsRead pv s.bd).1)
        biti := BitVec.ofNat 5 pv.length
        val := BitVec.ofNat 19 (catBase k) +
          (BitVec.ofNat 18 (ofBitsMsb (s.par.bitsRead pv s.bd).1)).setWidth 19 }
      bd := (s.par.bitsRead pv s.bd).2
      st := .dqs } := by
  simp only [readCategory, readCat_eq]
  rfl

/-- The magnitude that a category token loads. -/
theorem readCategory_val (k : Nat) (pv : List Prob) (s : State) (hk : catBase k ≤ 67)
    (hl : pv.length ≤ 18) :
    (readCategory k pv s).x.val.toNat = catBase k + ofBitsMsb (s.par.bitsRead pv s.bd).1 := by
  have h1 := ofBitsMsb_lt (s.par.bitsRead pv s.bd).1
  rw [length_bitsRead] at h1
  have h2 : 2 ^ pv.length ≤ 2 ^ 18 := Nat.pow_le_pow_right (by decide) hl
  rw [readCategory_eq]
  simp only [BitVec.toNat_add, BitVec.toNat_ofNat, BitVec.toNat_setWidth]
  omega

/-- CSRRD completes where the register may be read: the word is returned and nothing else changes (R198). -/
theorem execCsrrd_next {r : CsrReg} {s : State} (h : s.st.busy = false ∨ r = .status) :
    execCsrrd r s = .next (s.setRdata (s.csrWord r)) := by
  rcases h with h | rfl
  · cases r <;> simp [execCsrrd, h, State.csrWord]
  · rfl

/-- CSRRD of any register but STATUS is refused while BUSY (R198, R247). -/
theorem execCsrrd_busy {r : CsrReg} {s : State} (h : s.st.busy = true) (hr : r ≠ .status) :
    execCsrrd r s = .refused .hostWhileBusy := by
  cases r <;> simp_all [execCsrrd]

/-- The lanes of a word are the bytes it was spelled from, in either byte order (20_memory.md R65). -/
theorem ByteOrder.lanes_word (o : ByteOrder) (b0 b1 b2 b3 : Byte) :
    o.lanes (o.word b0 b1 b2 b3) = [b0, b1, b2, b3] := by
  have parts : ∀ c0 c1 c2 c3 : Byte,
      (c3 ++ c2 ++ c1 ++ c0 : Word).extractLsb' 0 8 = c0 ∧ (c3 ++ c2 ++ c1 ++ c0 : Word).extractLsb' 8 8 = c1 ∧
      (c3 ++ c2 ++ c1 ++ c0 : Word).extractLsb' 16 8 = c2 ∧ (c3 ++ c2 ++ c1 ++ c0 : Word).extractLsb' 24 8 = c3 := by
    intro c0 c1 c2 c3
    refine ⟨?_, ?_, ?_, ?_⟩ <;>
    · ext i hi
      simp only [BitVec.getElem_extractLsb', BitVec.getLsbD_append]
      split_ifs <;> first | omega | (rw [← BitVec.getLsbD_eq_getElem]; congr 1; omega)
  obtain ⟨h0, h1, h2, h3⟩ := parts b0 b1 b2 b3
  obtain ⟨g0, g1, g2, g3⟩ := parts b3 b2 b1 b0
  cases o <;> simp [ByteOrder.lanes, ByteOrder.lane, ByteOrder.word, h0, h1, h2, h3, g0, g1, g2, g3]

end Sys2Proof.Machine
end

