-- ==== Sys2Proof/Laws/PerInstr.lean ====
section
/-! SUPPORT. Statements made of every instruction, one lemma per constructor of `Instr`. -/

namespace Sys2Proof.Laws.StateCode

/-- An instruction that is encoded by a code of ST is encoded by one of the codes 1 to 11: never by IDLE,
DONE, FATAL or a reserved code (10_state.md R25; 30_encoding.md R103). -/
def Statement (i : Instr) : Prop := ∀ c, encode i = .op c → 1 ≤ c.toNat ∧ c.toNat ≤ 11

theorem start : Statement .start := by
  intro c h
  cases h

theorem srst (b : Bool) : Statement (.srst b) := by
  intro c h
  cases h

theorem csrrd (r : CsrReg) : Statement (.csrrd r) := by
  intro c h
  cases h

theorem csrwr (r : CsrReg) (v : Word) : Statement (.csrwr r v) := by
  intro c h
  cases h

theorem eob : Statement .eob := by
  intro c h
  cases h

theorem zero : Statement .zero := by
  intro c h
  cases h

theorem one : Statement .one := by
  intro c h
  cases h

theorem two : Statement .two := by
  intro c h
  cases h

theorem three : Statement .three := by
  intro c h
  cases h

theorem four : Statement .four := by
  intro c h
  cases h

theorem cat1 : Statement .cat1 := by
  intro c h
  cases h

theorem cat2 : Statement .cat2 := by
  intro c h
  cases h

theorem cat3 : Statement .cat3 := by
  intro c h
  cases h

theorem cat4 : Statement .cat4 := by
  intro c h
  cases h

theorem cat5 : Statement .cat5 := by
  intro c h
  cases h

theorem cat6 : Statement .cat6 := by
  intro c h
  cases h

theorem blockSetup : Statement .blockSetup := by
  intro c h
  cases h
  decide

theorem initCtx : Statement .initCtx := by
  intro c h
  cases h
  decide

theorem bandCtxSelect : Statement .bandCtxSelect := by
  intro c h
  cases h
  decide

theorem eobTest : Statement .eobTest := by
  intro c h
  cases h
  decide

theorem zeroTest : Statement .zeroTest := by
  intro c h
  cases h
  decide

theorem zeroAdvance : Statement .zeroAdvance := by
  intro c h
  cases h
  decide

theorem oneTest : Statement .oneTest := by
  intro c h
  cases h
  decide

theorem higherToken : Statement .higherToken := by
  intro c h
  cases h
  decide

theorem readCat (pv : List Prob) : Statement (.readCat pv) := by
  intro c h
  cases h
  decide

theorem dequantSign : Statement .dequantSign := by
  intro c h
  cases h
  decide

theorem rangeClamp : Statement .rangeClamp := by
  intro c h
  cases h
  decide

theorem writeCache : Statement .writeCache := by
  intro c h
  cases h
  decide

theorem ctxUpdate : Statement .ctxUpdate := by
  intro c h
  cases h
  decide

theorem edgeWrite : Statement .edgeWrite := by
  intro c h
  cases h
  decide

theorem blockFinish : Statement .blockFinish := by
  intro c h
  cases h
  decide

end Sys2Proof.Laws.StateCode
end

