-- ==== Sys2Proof/Laws/Ready.lean ====
section
/-! SUPPORT. The checks that START makes are the host preconditions as the spec words them
(45_block_decode_and_host.md R192). -/

namespace Sys2Proof.Machine

/-- P6. -/
theorem scanWellFormed_iff (s : State) : s.scanWellFormed = true ↔ s.ScanOrder := by
  unfold State.scanWellFormed
  simp only [Bool.and_eq_true, List.all_eq_true, List.mem_map, List.mem_range, decide_eq_true_eq,
    Bool.or_eq_true, beq_iff_eq, List.contains_iff_mem]
  constructor
  · rintro ⟨⟨h1, h2⟩, h3⟩
    refine ⟨fun i hi => h1 _ ⟨i, hi, rfl⟩, fun i j hi hj he => ?_, fun c j hc1 hc2 => ?_⟩
    · exact List.inj_on_of_nodup_map h2 (List.mem_range.mpr hi) (List.mem_range.mpr hj) he
    · rcases h3 c hc2 with h | ⟨ha, hb⟩
      · omega
      · have hm : s.nbPos c j ∈ List.take c (List.map s.scanPos (List.range (maxEobOf s.csr.tx))) := by
          cases j <;> assumption
        rw [← List.map_take, List.take_range] at hm
        simp only [List.mem_map, List.mem_range] at hm
        obtain ⟨i, hi, he⟩ := hm
        exact ⟨i, by omega, he.symm⟩
  · rintro ⟨h1, h2, h3⟩
    refine ⟨⟨?_, ?_⟩, fun c hc => ?_⟩
    · rintro x ⟨i, hi, rfl⟩
      exact h1 i hi
    · refine List.Nodup.map_on (fun i hi j hj he => ?_) List.nodup_range
      exact h2 i j (List.mem_range.mp hi) (List.mem_range.mp hj) he
    · by_cases hc0 : c = 0
      · exact .inl hc0
      · right
        rw [← List.map_take, List.take_range]
        simp only [List.mem_map, List.mem_range]
        constructor
        · obtain ⟨i, hi, he⟩ := h3 c false (by omega) hc
          exact ⟨i, by omega, he.symm⟩
        · obtain ⟨i, hi, he⟩ := h3 c true (by omega) hc
          exact ⟨i, by omega, he.symm⟩

/-- The counters of a block in `CNT` are 144 elements in a row. -/
theorem cntRange_iff (tx : BitVec 2) (a b : Bool) (m : Cells (BitVec 32)) :
    (∀ i, cntPrefix tx a b * 144 ≤ i → i < cntPrefix tx a b * 144 + 144 → ∃ v, m.read i = some v) ↔
      ∀ band ctx : BitVec 3, band.toNat < Config.nBands → ctx.toNat < Config.nCtx →
        ∀ k, ∃ v, m.read (cntIndex tx a b band ctx k) = some v := by
  simp only [Config.nBands, Config.nCtx]
  constructor
  · intro h band ctx hb hc k
    apply h
    · unfold cntIndex eobbrIndex
      omega
    · unfold cntIndex eobbrIndex
      cases k <;> simp only [CntKind.num] <;> omega
  · intro h i h1 h2
    have num : ∀ d : Nat, ∃ k : CntKind, k.num = d % 4 := by
      intro d
      have hd : d % 4 < 4 := Nat.mod_lt _ (by decide)
      interval_cases d % 4
      exacts [⟨.zero, rfl⟩, ⟨.one, rfl⟩, ⟨.more, rfl⟩, ⟨.eob, rfl⟩]
    generalize hp : cntPrefix tx a b = p at h1 h2
    obtain ⟨d, rfl⟩ : ∃ d, i = p * 144 + d := ⟨i - p * 144, by omega⟩
    obtain ⟨k, hk⟩ := num d
    have key := h (BitVec.ofNat 3 (d / 24)) (BitVec.ofNat 3 (d / 4 % 6))
      (by simp only [BitVec.toNat_ofNat]; omega) (by simp only [BitVec.toNat_ofNat]; omega) k
    have e : cntIndex tx a b (BitVec.ofNat 3 (d / 24)) (BitVec.ofNat 3 (d / 4 % 6)) k = p * 144 + d := by
      simp only [cntIndex, eobbrIndex, hp, hk, BitVec.toNat_ofNat]
      omega
    rwa [e] at key

/-- The counters of a block in `EOBBR` are 36 elements in a row. -/
theorem eobbrRange_iff (tx : BitVec 2) (a b : Bool) (m : Cells (BitVec 32)) :
    (∀ i, cntPrefix tx a b * 36 ≤ i → i < cntPrefix tx a b * 36 + 36 → ∃ v, m.read i = some v) ↔
      ∀ band ctx : BitVec 3, band.toNat < Config.nBands → ctx.toNat < Config.nCtx →
        ∃ v, m.read (eobbrIndex tx a b band ctx) = some v := by
  simp only [Config.nBands, Config.nCtx]
  constructor
  · intro h band ctx hb hc
    apply h
    · unfold eobbrIndex
      omega
    · unfold eobbrIndex
      omega
  · intro h i h1 h2
    generalize hp : cntPrefix tx a b = p at h1 h2
    obtain ⟨d, rfl⟩ : ∃ d, i = p * 36 + d := ⟨i - p * 36, by omega⟩
    have key := h (BitVec.ofNat 3 (d / 6)) (BitVec.ofNat 3 (d % 6))
      (by simp only [BitVec.toNat_ofNat]; omega) (by simp only [BitVec.toNat_ofNat]; omega)
    have e : eobbrIndex tx a b (BitVec.ofNat 3 (d / 6)) (BitVec.ofNat 3 (d % 6)) = p * 36 + d := by
      simp only [eobbrIndex, hp, BitVec.toNat_ofNat]
      omega
    rwa [e] at key

/-- The counters of a block are two ranges of the spaces. -/
theorem countersFilled_iff (s : State) : s.CountersFilled ↔ (s.csr.statsEn = true →
    s.mem.cnt.holdsAll (s.cntPrefixHere * 144) 144 = true ∧
      s.mem.eobbr.holdsAll (s.cntPrefixHere * 36) 36 = true) := by
  unfold State.CountersFilled
  cases hs : s.csr.statsEn
  · simp
  · simp only [Cells.holdsAll_iff, State.cntPrefixHere, cntRange_iff, eobbrRange_iff, forall_const]
    constructor
    · intro h
      exact ⟨fun b c hb hc => (h b c hb hc).1, fun b c hb hc => (h b c hb hc).2⟩
    · rintro ⟨h1, h2⟩ b c hb hc
      exact ⟨h1 b c hb hc, h2 b c hb hc⟩

/-- No check fails exactly when the preconditions hold. -/
theorem violatedPrecond_eq_none_iff (s : State) : violatedPrecond s = none ↔ ∃ p, s.Ready p := by
  constructor
  · intro h
    unfold violatedPrecond at h
    split at h
    · simp at h
    · rename_i p hp
      dsimp only at h
      split at h
      · simp at h
      · rename_i h3
        split at h
        · simp at h
        · rename_i h4
          split at h
          · simp at h
          · rename_i h5
            split at h
            · simp at h
            · rename_i h6
              simp only [Bool.not_eq_true, Bool.not_eq_false', Bool.and_eq_true] at h5 h6
              exact ⟨p, hp, by omega, by omega, (Cells.holdsAll_iff _ _ _).mp h5.1,
                (Cells.holdsAll_iff _ _ _).mp h5.2, (scanWellFormed_iff s).mp h6⟩
  · rintro ⟨p, p1, p3, p4, p5a, p5l, p6⟩
    have h5a := (Cells.holdsAll_iff _ _ _).mpr p5a
    have h5l := (Cells.holdsAll_iff _ _ _).mpr p5l
    have h6 := (scanWellFormed_iff s).mpr p6
    unfold violatedPrecond
    simp only [p1]
    rw [if_neg (by omega), if_neg (by omega)]
    simp [h5a, h5l, h6]

end Sys2Proof.Machine
end

