-- ==== Sys2Proof/Tests/Slice0.lean ====
section
/-! SUPPORT. Tests: the checks of WellFormed, words written out from the spec's encodings, one step of each
instruction with the expected result of 95_test_vectors.md, and a witness for the hypotheses of every
obligation. -/

namespace Sys2Proof.Tests

open Sys2Proof.Machine

-- One theorem at a time: each of Lean's elaboration threads takes its stack from the memory limit.
set_option Elab.async false

/-! ## The test configuration T of 95_test_vectors.md, for 4×4 blocks -/

/-- `SCAN(0, 0, i)` of T. -/
def scanT (i : Nat) : BitVec 10 := BitVec.ofNat 10 (5 * i % 16)

/-- `BAND(0, c)` of T (93_implementation_defined.md G8). -/
def bandT : List (Fin 6) := [0, 1, 1, 2, 2, 2, 3, 3, 3, 3, 4, 4, 4, 5, 5, 5]

/-- `PROB` of T for TX = 0, PTYPE = 0, REF = 0. -/
def probT (band ctx : Nat) : NodeProbs :=
  let b := 1 + 6 * (6 * band + ctx)
  ⟨BitVec.ofNat 8 b, BitVec.ofNat 8 (b + 1), BitVec.ofNat 8 (b + 2), BitVec.ofNat 8 (b + 3)⟩

/-- The CATEGORY6 vector of T, all 18. -/
def cat6T : List Prob :=
  [255, 255, 254, 254, 254, 254, 254, 252, 249, 243, 230, 196, 177, 153, 140, 133, 130, 129]

/-- The tables of T that a 4×4 block of plane 0 reads. -/
def tablesT : Tables where
  scan := (List.range 16).map (fun i => ((0, 0, i), scanT i))
  nb := (List.range 15).map (fun c => ((0, 0, c + 1, false), scanT c)) ++
    (List.range 15).map (fun c => ((0, 0, c + 1, true), scanT (c - 1)))
  band := bandT.zipIdx.map (fun e => ((0, e.2), e.1))
  prob := (List.range 36).map (fun i =>
    ((0, false, false, BitVec.ofNat 3 (i / 6), BitVec.ofNat 3 (i % 6)), probT (i / 6) (i % 6)))
  catp := [((1, 0), 159), ((2, 0), 165), ((2, 1), 145), ((3, 0), 173), ((3, 1), 148), ((3, 2), 140),
    ((4, 0), 176), ((4, 1), 155), ((4, 2), 140), ((4, 3), 135),
    ((5, 0), 180), ((5, 1), 157), ((5, 2), 141), ((5, 3), 134), ((5, 4), 130)]
  catp6 := (cat6T.drop 4).zipIdx.map (fun e => ((8, e.2), e.1)) ++
    (cat6T.drop 2).zipIdx.map (fun e => ((10, e.2), e.1)) ++ cat6T.zipIdx.map (fun e => ((12, e.2), e.1))
  dq := [((0, 0, false), 10), ((0, 0, true), 20)]

/-- `T[k]` of T for a pivot. -/
def rowT (pivot k : Nat) : Prob := BitVec.ofNat 8 ((7 * pivot + 31 * k) % 255 + 1)

/-- The reference tree (93_implementation_defined.md G4) with the row of a pivot. -/
def treeT (v : Nat) : HTree :=
  .node (rowT v 0)
    (.node (rowT v 1) (.leaf .two) (.node (rowT v 2) (.leaf .three) (.leaf .four)))
    (.node (rowT v 3)
      (.node (rowT v 4) (.leaf .cat1) (.leaf .cat2))
      (.node (rowT v 5)
        (.node (rowT v 6) (.leaf .cat3) (.leaf .cat4))
        (.node (rowT v 7) (.leaf .cat5) (.leaf .cat6))))

/-- A bool decoder that delivers a script: at place n, for the n-th probability, the n-th bit. Any other
probability is the free value of `Config.boolDec`, so a test that passes has passed the right ones. -/
def script (l : List (Prob × Bool)) : List ((Nat × Prob) × (Bool × Nat)) :=
  l.zipIdx.map (fun e => ((e.2, e.1.1), (e.1.2, e.2 + 1)))

/-- The collaborators of T (93_implementation_defined.md G2 to G6) with a script. -/
def paramsT (l : List (Prob × Bool)) : Params :=
  { Params.default with
    boolDec := script l
    initCtx := [((0, [false], [false]), 0), ((0, [true], [false]), 1), ((0, [false], [true]), 1),
      ((0, [true], [true]), 2), ((1, [false, true], [false, false]), 1)]
    ctxFor := [((0, 0), 0), ((1, 0), 1), ((0, 1), 1), ((1, 1), 1), ((2, 0), 1), ((2, 1), 2), ((3, 3), 3),
      ((0, 5), 3), ((5, 4), 5), ((5, 5), 5)]
    higherToken := [(4, treeT 4)]
    energyClass := [(.one, 1), (.two, 2), (.three, 3), (.four, 3), (.cat1, 4), (.cat2, 4), (.cat3, 5),
      (.cat4, 5), (.cat5, 5), (.cat6, 5)]
    rangeLimits := [(8, ⟨32768, 32767⟩), (10, ⟨131072, 131071⟩), (12, ⟨524288, 524287⟩)] }

/-- The memory at the start of program P1: the flags of the block at (0, 0) are 0, its counters 0. -/
def memT : Memory :=
  { Memory.empty with
    above := ⟨⟨16, [(0, false), (1, true)]⟩, .empty, .empty⟩
    left := ⟨⟨16, [(0, false), (1, false)]⟩, .empty, .empty⟩
    cnt := Cells.fill 144 0
    eobbr := Cells.fill 36 0 }

/-- The start state of program P1 with a script: CFG = 0x18 (BD = 8, STATS_EN = 1). -/
def startT (l : List (Prob × Bool)) : State :=
  { State.reset with csr := { Csrs.zero with cfg := 0x18 }, mem := memT, tab := tablesT, par := paramsT l }

/-- A block decode of T in a state of ST, at decode position 0 with nothing decoded. -/
def atT (st : St) (l : List (Prob × Bool)) : State :=
  { startT l with st := st, x := { Regs.zero with maxeob := 16, nunits := 1, p := probT 0 0 } }

/-- The outcome is a next state with a property. -/
def ok (r : Result) (q : State → Bool) : Bool :=
  match r with
  | .next t => q t
  | .fault _ => false
  | .refused _ => false

/-- The outcome is a refusal for a reason. -/
def refusedBy (r : Result) (e : Refusal) : Bool :=
  match r with
  | .next _ => false
  | .fault _ => false
  | .refused f => f == e

/-! ## WellFormed -/

theorem test_wf_commandWord : (Instr.csrwr .ctrl 3).illFormed = some .commandWord := by decide
theorem test_wf_commandWord_other : WellFormed (.csrwr .ctrl 4) := by decide
theorem test_wf_vectorTooLong : (Instr.readCat (List.replicate 19 128)).illFormed = some .vectorTooLong := by
  decide
theorem test_wf_vector18 : WellFormed (.readCat (List.replicate 18 128)) := by decide

/-! ## Words written out from the spec -/

/-- Vectors H1 to H5 (30_encoding.md R91). -/
theorem test_ctrl_words :
    [0x0, 0x1, 0x2, 0x3, 0x4, 0x5, 0x80000001, 0xFFFFFFFF].map (fun w => decodeCtrl (BitVec.ofNat 32 w)) =
      [none, some .start, some (.srst false), some (.srst true), none, none, none, none] := by decide

/-- A command word is refused by the bus decoder of no other register: CTRL stands at offset 0. -/
theorem test_csrwr_blk0 : decode (.bus true 4 0x0C 0x25) = .ok (.csrwr .blk0 0x25) := by decide

theorem test_csrrd_count : decode (.bus false 4 0x18 0) = .ok (.csrrd .count) := by decide

theorem test_csr_access : decode (.bus false 2 0x18 0) = .error .csrAccess := by decide

/-- The rows of 30_encoding.md R94 with reference tree bits, each followed by its operand bits. -/
theorem test_token_words :
    [[false], [true, false, false], [true, true, false, false, true], [true, true, false, true, false, false],
      [true, true, false, true, true, false], [true, true, true, false, false, true, false],
      [true, true, true, false, true, true, true, false],
      [true, true, true, true, false, false, true, false, true, true],
      [true, true, true, true, false, true, true, true, true, true, false],
      [true, true, true, true, true, false, false, false, false, false, false, false],
      [true, true, true, true, true, true]].map (fun b => decode (.tokenSlot b)) =
      [.ok .zero, .ok .one, .ok .two, .ok .three, .ok .four, .ok .cat1, .ok .cat2, .ok .cat3, .ok .cat4,
        .ok .cat5, .ok .cat6] := by decide

theorem test_eob_word : decode (.eobSlot [false]) = .ok .eob := by decide
theorem test_no_eob : decode (.eobSlot [true]) = .error .tokenFollows := by decide
theorem test_token_truncated : decode (.tokenSlot [true, true, false]) = .error .truncated := by decide

/-- The codes of 10_state.md R25, in order. -/
theorem test_op_words : (List.range 16).map (fun c => decode (.op (BitVec.ofNat 4 c))) =
    [.error .noOperation, .ok .blockSetup, .ok .bandCtxSelect, .ok .eobTest, .ok .zeroTest,
      .ok .zeroAdvance, .ok .oneTest, .ok .higherToken, .ok (.readCat []), .ok .dequantSign,
      .ok .writeCache, .ok .edgeWrite, .error .noOperation, .error .reservedState, .error .reservedState,
      .error .noOperation] := by decide

/-- The words of the opcode table that are a row's own. -/
theorem test_table_words :
    [(32, 1), (32, 2), (32, 3), (8, 0), (8, 2), (8, 12), (8, 26), (8, 63), (8, 1), (8, 11)].map
        (fun r => decodeTableWord r.1 r.2) =
      [some .start, some (.srst false), some (.srst true), some .eob, some .one, some .two, some .three,
        some .cat6, some .blockSetup, some .edgeWrite] := by decide

/-- Vector M1 (30_encoding.md R112): `ONE +; ZERO; TWO -; EOB`. -/
theorem test_block_m1 :
    encodeBlock 8 true [⟨.one, 0, false⟩, ⟨.zero, 0, false⟩, ⟨.two, 0, true⟩, ⟨.eob, 0, false⟩] =
      [true, true, false, false, true, false, true, true, false, false, true, false] := by decide

/-- Vector M7: `ZERO; THREE +; ZERO; FOUR -; EOB`. -/
theorem test_block_m7 :
    decodeBlock 8 16 true [true, false, true, true, false, true, false, false, true, false, true, true,
        false, true, true, true, false] =
      some ([⟨.zero, 0, false⟩, ⟨.three, 0, false⟩, ⟨.zero, 0, false⟩, ⟨.four, 0, true⟩,
        ⟨.eob, 0, false⟩], []) := by decide

/-- Vectors M2 to M6 (R111). -/
theorem test_pseudo : [coefStmt (-16), coefStmt 4, coefStmt 67, coefStmt 10910] =
    [⟨.cat3, 5, true⟩, ⟨.four, 0, false⟩, ⟨.cat6, 0, false⟩, ⟨.cat6, 0x2A5B, false⟩] ∧
    zrunStmts 3 = [⟨.zero, 0, false⟩, ⟨.zero, 0, false⟩, ⟨.zero, 0, false⟩] := by decide

/-! ## Host commands -/

/-- START in IDLE with the preconditions met (H2). -/
theorem test_start : ok (exec .start (startT [])) (fun t => t.st == .setup) = true := by decide +kernel

/-- START after a block that was clamped (STATUS 0xA): BUSY = 1, DONE = 0, CLAMPED = 0 (92_eei_decisions.md
D3). -/
theorem test_start_clears_clamped :
    ok (exec .start { startT [] with st := .done, clamped := true }) (fun t => t.statusWord == 1) = true := by
  decide +kernel

/-- P8 asks only of the counters that the block reaches: a block that is `EOB` needs two (T16); START does not
look at them, and the one that is missing is found where it is reached. -/
theorem test_counters_reached :
    (let s := { atT .eobt [(1, false)] with mem := { memT with cnt := [(3, 0)], eobbr := [(0, 0)] } };
      ok (exec .start { s with st := .idle }) (fun t => t.st == .setup) &&
        ok (exec .eobTest s) (fun t => t.st == .edge && t.mem.cnt.read 3 == some 1)) = true ∧
    refusedBy (exec .eobTest { atT .eobt [(1, false)] with mem := { memT with cnt := [], eobbr := [(0, 0)] } })
      (.precondition .p8) = true := by decide +kernel

/-- START with PLANE = 3 (H9). -/
theorem test_start_plane3 :
    refusedBy (exec .start { startT [] with csr := { Csrs.zero with blk0 := 0x1FFF } }) (.precondition .p1)
      = true := by decide

/-- SRST after program P1 (Z2): memories keep their values, CFG and COUNT are 0. -/
theorem test_srst :
    ok (exec (.srst false) { startT [] with st := .done, csr := { Csrs.zero with cfg := 0x18, count := 3 } })
      (fun t => t.st == .idle && t.csr == Csrs.zero && t.mem == memT) = true := by decide +kernel

/-- SRST in FATAL (Z3). -/
theorem test_srst_fatal :
    ok (exec (.srst true) { startT [] with st := .fatal, csr := { Csrs.zero with fcode := 1, fpos := 1 } })
      (fun t => t.statusWord == 0 && t.csrWord .finfo == 0) = true := by decide

/-- STATUS in the states of H16. -/
theorem test_csrrd_status : [St.idle, .done, .fatal].map (fun t =>
    (ok (exec (.csrrd .status) { startT [] with st := t }) (fun u => u.rdata == (if t = .idle then 0 else
      if t = .done then 2 else 4)), ok (exec (.csrrd .status) { startT [] with st := t, clamped := true })
      (fun u => u.rdata == (if t = .idle then 8 else if t = .done then 0xA else 0xC)))) =
    [(true, true), (true, true), (true, true)] := by decide

/-- FINFO after a fatal stop at C = 1023 (H17). -/
theorem test_csrrd_finfo :
    ok (exec (.csrrd .finfo) { startT [] with st := .fatal, csr := { Csrs.zero with fcode := 1, fpos := 1023 } })
      (fun u => u.rdata == 0x00003FF1) = true := by decide

/-- H8 and H9: BLK0 stores its 13 defined bits. -/
theorem test_csrwr_reserved :
    ok (exec (.csrwr .blk0 0xFFFFFFFF) (startT [])) (fun t => t.csrWord .blk0 == 0x00001FFF &&
      t.csr.scanid == 15 && t.csr.seg == 7) = true := by decide

/-- H13: the signed fields of EDGE. -/
theorem test_csrwr_edge :
    ok (exec (.csrwr .edge 0x80007FFF) (startT [])) (fun t => t.csr.dr == 32767 && t.csr.db == -32768)
      = true := by decide

/-! ## Tokens -/

/-- T16: EOB counts `CNT[(0,0,EOB)]`. -/
theorem test_eob : ok (exec .eob (atT .eobt [])) (fun t => t.st == .edge && t.mem.cnt.read 3 == some 1 &&
    t.x.c == 0) = true := by decide +kernel

/-- Trace 6 of program P1: ZERO at C = 1. -/
theorem test_zero :
    ok (exec .zero { atT .zadv [] with tc := [(0, 1)], x := { (atT .zadv []).x with c := 1, ctx := 1, band := 1 } })
      (fun t => t.st == .zerot && t.x.c == 2 && t.tc.read 5 == some 0 && t.x.ctx == 1 && t.x.band == 1 &&
        t.x.p.zero == 44 && t.mem.cnt.read 28 == some 1) = true := by decide +kernel

/-- F2: the last ZERO of a block goes to EDGE, nothing re-latched. -/
theorem test_zero_last :
    ok (exec .zero { atT .zadv [] with x := { (atT .zadv []).x with c := 15, band := 5 } })
      (fun t => t.st == .edge && t.x.c == 16 && t.tc.read 11 == some 0 && t.x.band == 5) = true := by
  decide +kernel

/-- Trace 3 of P1: `CNT[(0,0,ONE)]` is element 1 (S3). -/
theorem test_one : ok (exec .one (atT .onet [])) (fun t => t.st == .dqs && t.x.val == 1 && t.x.token == .one &&
    t.mem.cnt.read 1 == some 1) = true := by decide +kernel

theorem test_two : ok (exec .two (atT .htok [])) (fun t => t.st == .dqs && t.x.val == 2) = true := by decide
theorem test_three : ok (exec .three (atT .htok [])) (fun t => t.st == .dqs && t.x.val == 3) = true := by decide
theorem test_four : ok (exec .four (atT .htok [])) (fun t => t.st == .dqs && t.x.val == 4) = true := by decide

/-- T5: `CAT1 1`. -/
theorem test_cat1 : ok (exec .cat1 (atT .catx [(159, true)])) (fun t => t.st == .dqs && t.x.val == 6 &&
    t.bd == 1) = true := by decide +kernel

/-- T6: `CAT2 3`. -/
theorem test_cat2 : ok (exec .cat2 (atT .catx [(165, true), (145, true)])) (fun t => t.x.val == 10 &&
    t.bd == 2) = true := by decide +kernel

/-- T7: `CAT3 5`. -/
theorem test_cat3 : ok (exec .cat3 (atT .catx [(173, true), (148, false), (140, true)])) (fun t =>
    t.x.val == 16 && t.bd == 3) = true := by decide +kernel

/-- T8: `CAT4 15`. -/
theorem test_cat4 : ok (exec .cat4 (atT .catx [(176, true), (155, true), (140, true), (135, true)]))
    (fun t => t.x.val == 34 && t.bd == 4) = true := by decide +kernel

/-- T10: `CAT5 31`. -/
theorem test_cat5 : ok (exec .cat5 (atT .catx [(180, true), (157, true), (141, true), (134, true), (130, true)]))
    (fun t => t.x.val == 66 && t.bd == 5) = true := by decide +kernel

/-- T13: `CAT6 0x3FFFF` at BD = 12, eighteen bits. -/
theorem test_cat6 :
    ok (exec .cat6 { atT .catx (cat6T.map (fun p => (p, true))) with csr := { Csrs.zero with cfg := 12 } })
      (fun t => t.st == .dqs && t.x.val == 262210 && t.bd == 18 && t.x.biti == 18) = true := by decide +kernel

/-- Y1 and P4: CATEGORY6 at BD = 9 is fatal, no bit is read. -/
theorem test_cat6_fatal :
    ok (exec .cat6 { atT .catx [] with csr := { Csrs.zero with cfg := 9 } })
      (fun t => t.statusWord == 4 && t.csrWord .finfo == 1 && t.bd == 0) = true := by decide

/-! ## Operations -/

/-- 45_block_decode_and_host.md R193 at TX = 0, P1's SETUP row. -/
theorem test_blockSetup :
    ok (exec .blockSetup { startT [] with st := .setup, clamped := true, tc := [(3, 1)] })
      (fun t => t.st == .select && t.x.nunits == 1 && t.x.maxeob == 16 && t.x.ctx == 0 && t.tc == [] &&
        !t.clamped) = true := by decide +kernel

/-- K2 with the flags of unit 1: A = (1), L = (0). -/
theorem test_initCtx :
    ok (exec .initCtx { atT .setup [] with csr := { Csrs.zero with blkpos := 0x00010001 } })
      (fun t => t.x.ctx == 1) = true := by decide +kernel

/-- K4: TX = 1, A = (0, 1), L = (0, 0). -/
theorem test_initCtx_two :
    ok (exec .initCtx { atT .setup [] with
        csr := { Csrs.zero with blk0 := 1 }, x := { Regs.zero with nunits := 2 } })
      (fun t => t.x.ctx == 1) = true := by decide +kernel

/-- R141: C = 1, CTX = 1 gives BAND = 1, `P.eob = 43`. -/
theorem test_bandCtxSelect :
    ok (exec .bandCtxSelect { atT .select [] with x := { Regs.zero with c := 1, ctx := 1 } })
      (fun t => t.st == .eobt && t.x.band == 1 && t.x.p.eob == 43) = true := by decide +kernel

/-- Traces 1 and T16: the two ways of the end-of-block test. -/
theorem test_eobTest :
    ok (exec .eobTest (atT .eobt [(1, true)])) (fun t => t.st == .zerot && t.mem.eobbr.read 0 == some 1 &&
      t.mem.cnt.read 3 == some 0) = true ∧
    ok (exec .eobTest (atT .eobt [(1, false)])) (fun t => t.st == .edge && t.mem.eobbr.read 0 == some 1 &&
      t.mem.cnt.read 3 == some 1) = true := by decide +kernel

/-- R143. -/
theorem test_zeroTest :
    ok (exec .zeroTest (atT .zerot [(2, false)])) (fun t => t.st == .zadv) = true ∧
    ok (exec .zeroTest (atT .zerot [(2, true)])) (fun t => t.st == .onet) = true := by decide +kernel

/-- SET_SECOND (program P6): a ZERO sets DQSEL. -/
theorem test_zeroAdvance :
    ok (exec .zeroAdvance { atT .zadv [] with par := { paramsT [] with zrunDq := .setSecond } })
      (fun t => t.x.dqsel && t.x.c == 1 && t.mem.cnt.read 0 == some 1) = true := by decide +kernel

/-- PER_POSITION (program P2): the position entered by a ZERO counts at its own band, `EOBBR[(1,0)]`. -/
theorem test_zeroAdvance_perPosition :
    ok (exec .zeroAdvance { atT .zadv [] with par := { paramsT [] with eobbrPolicy := .perPosition } })
      (fun t => t.mem.eobbr.read 6 == some 1 && t.mem.eobbr.read 0 == some 0) = true := by decide +kernel

/-- P8 of the branch counter that a ZERO reaches (R150 PER_POSITION; log 24): refused without a value, and
refused only there: under PER_EOB_TEST the same ZERO runs. -/
theorem test_zeroAdvance_noBranchCounter :
    refusedBy (exec .zeroAdvance { atT .zadv [] with
        mem := { memT with cnt := [(0, 0)], eobbr := [] }, par := { paramsT [] with eobbrPolicy := .perPosition } })
      (.precondition .p8) = true ∧
    ok (exec .zeroAdvance { atT .zadv [] with mem := { memT with cnt := [(0, 0)], eobbr := [] } })
      (fun t => t.st == .zerot) = true := by decide +kernel

/-- Traces 3 and 8 of P1: ONE, and MORE (element 2 at band 0, context 0). -/
theorem test_oneTest :
    ok (exec .oneTest (atT .onet [(3, false)])) (fun t => t.st == .dqs && t.mem.cnt.read 1 == some 1 &&
      t.mem.cnt.read 2 == some 0) = true ∧
    ok (exec .oneTest (atT .onet [(3, true)])) (fun t => t.st == .htok && t.mem.cnt.read 1 == some 0 &&
      t.mem.cnt.read 2 == some 1) = true := by decide +kernel

/-- T4: pivot 4, bits 0 1 1 give FOUR; T11: bits 1 1 1 1 give CATEGORY6. -/
theorem test_higherToken :
    ok (exec .higherToken (atT .htok [(29, false), (60, true), (91, true)])) (fun t => t.st == .dqs &&
      t.x.token == .four && t.x.val == 4 && t.bd == 3) = true ∧
    ok (exec .higherToken (atT .htok [(29, true), (122, true), (184, true), (246, true)])) (fun t =>
      t.st == .catx && t.x.token == .cat6 && t.bd == 4) = true := by decide +kernel

/-- V5: bits 0 0 1, the first bit read is the most significant. -/
theorem test_readCat :
    ok (exec (.readCat [173, 148, 140]) (atT .catx [(173, false), (148, false), (140, true)]))
      (fun t => t.x.ext == 1 && t.x.biti == 3 && t.bd == 3 && t.st == .catx) = true := by decide +kernel

/-- A state of DQS with VAL, a quantizer for segment 0, plane 0, and TX, BD, RANGE_EN. -/
def dqsT (val : BitVec 19) (q : BitVec 16) (blk0 : BitVec 13) (cfg : BitVec 6) (sign : Bool) : State :=
  { atT .dqs [(128, sign)] with
    csr := { Csrs.zero with blk0 := blk0, cfg := cfg }
    tab := { tablesT with dq := [((0, 0, false), q)] }
    x := { Regs.zero with val := val } }

/-- Q2 and Q6: the shift precedes the sign; the largest product. -/
theorem test_dequantSign :
    ok (exec .dequantSign (dqsT 3 5 3 8 true)) (fun t => t.x.v == 7 && t.x.coefv.toInt == -7 && !t.clamped) = true ∧
    ok (exec .dequantSign (dqsT 262210 65535 0 12 true)) (fun t => t.x.coefv.toInt == -17183932350 &&
      t.st == .wrc) = true := by decide +kernel

/-- Q9 and Q12: clamped, and inside the limits. -/
theorem test_dequantSign_clamp :
    ok (exec .dequantSign (dqsT 10910 21 3 0x28 true)) (fun t => t.x.v == 114555 &&
      t.x.coefv.toInt == -32768 && t.clamped) = true ∧
    ok (exec .dequantSign (dqsT 16384 2 0 0x28 true)) (fun t => t.x.coefv.toInt == -32768 && !t.clamped)
      = true := by decide +kernel

/-- R166: -114555 becomes -32768. -/
theorem test_rangeClamp :
    ok (exec .rangeClamp { atT .dqs [] with x := { Regs.zero with coefv := -114555 } })
      (fun t => t.x.coefv.toInt == -32768 && t.clamped) = true := by decide +kernel

/-- R170: C = 2, TOKEN = TWO, COEFV = -40. -/
theorem test_writeCache :
    ok (exec .writeCache { atT .wrc [] with
        tc := [(0, 1), (5, 0)], x := { (atT .wrc []).x with c := 2, token := .two, coefv := -40 } })
      (fun t => t.st == .select && t.x.pos == 10 && (t.mem.coef.p0.read 10).map BitVec.toInt == some (-40) &&
        t.tc.read 10 == some 2 && t.x.c == 3 && t.x.ctx == 1 && t.x.dqsel) = true := by decide +kernel

/-- F4: a value token at the last position goes to EDGE, the context as it was. -/
theorem test_writeCache_last :
    ok (exec .writeCache { atT .wrc [] with
        x := { (atT .wrc []).x with c := 15, token := .one, coefv := -17, ctx := 4 } })
      (fun t => t.st == .edge && t.x.c == 16 && t.x.pos == 11 && t.x.ctx == 4) = true := by decide +kernel

/-- K11: energy classes 2 and 1 (the positions of c = 2 and c = 1 in T). -/
theorem test_ctxUpdate :
    ok (exec .ctxUpdate { atT .wrc [] with tc := [(0, 1), (5, 2)], x := { Regs.zero with c := 2 } })
      (fun t => t.x.ctx == 2) = true := by decide +kernel

/-- K17: a neighbour that was never written. -/
theorem test_ctxUpdate_illFormed :
    refusedBy (exec .ctxUpdate { atT .wrc [] with tc := [(0, 1)], x := { Regs.zero with c := 2 } })
      .nbIllFormed = true := by decide +kernel

/-- A state of EDGE with n = 4 units, a count and DR, DB. -/
def edgeT (count : BitVec 11) (edge : BitVec 32) : State :=
  { atT .edge [] with
    csr := { Csrs.zero with blk0 := 2, blkpos := 8, edge := edge }
    x := { Regs.zero with c := count, nunits := 4 } }

/-- W4 (the document's example X1) and W14: DR = -3, DB = 0, X = 8, Y = 0. -/
theorem test_edgeWrite :
    ok (exec .edgeWrite (edgeT 5 0x0000FFFD)) (fun t => t.mem.above.p0.cells.readSlice 8 4 ==
      some [true, false, false, false] && t.mem.left.p0.cells.readSlice 0 4 ==
      some [true, true, true, true] && t.csr.count == 5 && t.st == .done) = true := by decide +kernel

/-- W7 and W8: DR = -32768; a count of 0. -/
theorem test_edgeWrite_ends :
    ok (exec .edgeWrite (edgeT 5 0x00008000)) (fun t => t.mem.above.p0.cells.readSlice 8 4 ==
      some [false, false, false, false]) = true ∧
    ok (exec .edgeWrite (edgeT 0 0)) (fun t => t.mem.above.p0.cells.readSlice 8 4 ==
      some [false, false, false, false] && !t.x.hasnz) = true := by decide +kernel

theorem test_blockFinish :
    ok (exec .blockFinish { atT .edge [] with x := { Regs.zero with c := 1024 } })
      (fun t => t.csrWord .count == 0x400 && t.statusWord == 2) = true := by decide

/-! ## Counters and steps -/

/-- S1: a counter wraps. -/
theorem test_counter_wraps :
    ok (exec .eob { atT .eobt [] with mem := { memT with cnt := [(3, 0xFFFFFFFF)] } })
      (fun t => t.mem.cnt.read 3 == some 0) = true := by decide +kernel

/-- S3 to S5. -/
theorem test_counter_indices :
    [cntIndex 0 false false 0 0 .one, cntIndex 0 false false 1 1 .zero, cntIndex 0 false false 2 1 .eob,
      eobbrIndex 0 false false 2 1, eobbrIndex 3 true true 1 5, cntIndex 3 true true 0 1 .more,
      cntIndex 3 true true 1 5 .eob, cntIndex 3 true true 5 5 .eob, eobbrIndex 3 true true 5 5] =
      [1, 28, 55, 13, 551, 2166, 2207, 2303, 575] := by decide

/-- Byte lanes of the word 0x25 at offset 0x0C, little-endian (20_memory.md R65). -/
theorem test_bus_lanes :
    ok (step { startT [] with inputs := [.busLanes 0x0C 0x25 0 0 0] })
      (fun t => t.csr.tx == 1 && t.csr.plane == 1 && t.csr.ref) = true := by decide

/-- The byte lanes of COUNT = 0x0403 as a little-endian bus and a big-endian bus read them (R65). -/
theorem test_bus_lanes_read :
    [ByteOrder.little, .big].map (fun o => ok (step
      { startT [] with
        csr := { Csrs.zero with count := 0x403 }
        par := { paramsT [] with csrByteOrder := o }
        inputs := [.busLanesRead 0x18] })
      (fun t => t.rlanes == match o with
        | .little => [3, 4, 0, 0]
        | .big => [0, 0, 4, 3])) = [true, true] := by decide

/-- While BUSY a read of CTRL and a write of 0 to it are refused (R198, R247), START is ignored (R190) and a
word with a reserved bit too (H5). -/
theorem test_ctrl_while_busy :
    refusedBy (exec (.csrrd .ctrl) (atT .wrc [])) .hostWhileBusy = true ∧
    refusedBy (exec (.csrwr .ctrl 0) (atT .wrc [])) .hostWhileBusy = true ∧
    ok (exec .start (atT .wrc [])) (fun t => t.st == .wrc) = true ∧
    ok (exec (.csrwr .ctrl 0x80000001) (atT .wrc [])) (fun t => t.st == .wrc) = true := by decide

/-- A host read of an element that nothing has written gives no value. -/
theorem test_store_read : ok (step { startT [] with inputs := [.storeRead (.coef .p0) 5] })
    (fun t => t.elem == none) = true := by decide

/-- The step of ST = CATX is the category in TOKEN. -/
theorem test_step_catx :
    ok (step { atT .catx [(159, false)] with x := { (atT .catx []).x with token := .cat1 } })
      (fun t => t.x.val == 5 && t.st == .dqs) = true := by decide +kernel

/-! ## Witnesses: states and operands that meet the hypotheses of the obligations -/

/-- The inputs of a state replaced. -/
def given (s : State) (l : List Input) : State := { s with inputs := l }

theorem witness_CtrlWordsDecodeByTheirLowBits :
    (0x80000001#32).extractLsb' 2 30 ≠ 0 ∧
    ((3#32).extractLsb' 2 30 = 0 ∧ (3#32).getLsbD 1 = true) ∧
    ((1#32).extractLsb' 2 30 = 0 ∧ (1#32).getLsbD 1 = false ∧ (1#32).getLsbD 0 = true) ∧
    CsrReg.finfo ≠ .ctrl := by decide

theorem witness_DecodeInvertsEncode :
    (WellFormed (.csrwr .ctrl 0xFFFFFFFC) ∧ (Instr.csrwr .ctrl 0xFFFFFFFC).hasOwnWord = true) ∧
    (WellFormed (.csrwr .ctrl 0) ∧ (Instr.csrwr .ctrl 0).hasOwnWord = true) ∧
    (WellFormed (.readCat []) ∧ (Instr.readCat []).hasOwnWord = true) := by decide

theorem witness_StatementDecodingInvertsItsBits :
    (Token.cat6 ≠ .eob ∧ TokenStmt.wf 12 ⟨.cat6, 262143, true⟩ = true) ∧
    (Token.zero ≠ .eob ∧ TokenStmt.wf 0 ⟨.zero, 0, false⟩ = true) := by decide

theorem witness_BlockDecodingInvertsItsBits :
    legalBlock 8 16 true [⟨.one, 0, false⟩, ⟨.zero, 0, false⟩, ⟨.two, 0, true⟩, ⟨.eob, 0, false⟩] = true ∧
    legalBlock 8 1 true [⟨.cat5, 31, true⟩] = true ∧ legalBlock 8 2 false [⟨.zero, 0, false⟩, ⟨.one, 0, true⟩] = true ∧
    legalBlock 8 0 true [] = true := by decide

theorem witness_BlockDecodingIsUnambiguous :
    decodeBlock 8 2 true [true, false, false, true] = some ([⟨.zero, 0, false⟩, ⟨.zero, 0, false⟩], [true]) := by
  decide

theorem witness_StepRunsTheOperationOfST :
    ((atT .zerot []).resetDone = true ∧ (atT .zerot []).st.busy = true ∧ (atT .zerot []).inputs = [] ∧
      (atT .zerot []).st ≠ .catx ∧ decode (.op (atT .zerot []).st.code) = .ok .zeroTest) ∧
    ∃ s : State, s.resetDone = true ∧ s.st.busy = true ∧ s.st = .catx ∧ s.inputs = [.tick] ∧
      s.x.token.isCategory ∧ Instr.cat6 = s.x.token.instr :=
  ⟨by decide, given { atT .catx [] with x := { Regs.zero with token := .cat6 } } [.tick], rfl, rfl, rfl, rfl,
    by simp [given, Token.isCategory], rfl⟩

theorem witness_StepRunsTheDecodedAccess :
    (startT []).resetDone = true ∧
    decode (.bus true 4 0x0C 0x25) = .ok (.csrwr .blk0 0x25) ∧
    ((startT []).par.csrByteOrder = .little ∧ decode (.bus true 4 0x0C (0#8 ++ 0#8 ++ 0#8 ++ 0x25#8)) =
      .ok (.csrwr .blk0 0x25)) ∧
    decode (.bus false 4 0x1C 0) = .ok (.csrrd .finfo) ∧
    decodeTableWord 32 1 = some .start ∧ decodeTableWord 8 63 = some .cat6 := by decide

theorem witness_UndefinedCsrAccessIsRefused :
    (2 ≠ 4 ∧ (0x1A : Nat) % 4 ≠ 0 ∧ 0x20 ≤ (0x20 : Nat)) ∧
    step (given (startT []) [.bus false 2 0x18 0]) = .refused .csrAccess ∧
    step (given (startT []) [.busLanes 0x1A 0 0 0 0]) = .refused .csrAccess ∧
    step (given (startT []) [.busLanesRead 0x20]) = .refused .csrAccess := ⟨by decide, rfl, rfl, rfl⟩

theorem witness_SequencerRestsOutsideADecode :
    ((startT []).resetDone = true ∧ (startT []).inputs = [] ∧ (startT []).st = .idle) ∧
    ((atT .done []).inputs = [] ∧ (atT .done []).st = .done) ∧
    ((atT .fatal []).inputs = [] ∧ (atT .fatal []).st = .fatal) := by decide

theorem witness_NothingBeforeTheFirstReset :
    State.powerUp.resetDone = false ∧ State.powerUp.inputs = [] ∧
    (given State.powerUp [.bus false 4 0 0]).resetDone = false ∧ (Input.bus false 4 0 0) ≠ .rst ∧
    (given State.powerUp [.rst]).inputs = [.rst] := by decide

theorem witness_ResetOperationWritesTheControlState :
    (given (atT .onet []) [.rst]).setInputs [] = atT .onet [] ∧
    ((given (atT .onet []) [.bus true 4 0x00 3]).resetDone = true ∧
      (given (atT .onet []) [.bus true 4 0x00 3]).setInputs [] = atT .onet []) := ⟨rfl, rfl, rfl⟩

/-- A reset that abandons a decode of plane 0 with statistics, and one that abandons none. -/
theorem witness_ResetKeepsWhatItDoesNotWrite :
    ((atT .edge []).st.busy = true ∧ planeOf (atT .edge []).csr.plane = some .p0 ∧
      (atT .edge []).csr.statsEn = true ∧ 0 < maxEobOf (atT .edge []).csr.tx) ∧
    (atT .fatal []).st.busy = false := by decide

/-- The scan and neighbour tables of T are well-formed. -/
theorem scanOrderT : (startT []).ScanOrder :=
  (scanWellFormed_iff (startT [])).mp (by decide +kernel)

/-- Every counter of the block holds a value. -/
theorem countersT : (startT []).CountersFilled :=
  (countersFilled_iff (startT [])).mpr (fun _ => by decide +kernel)

/-- The host preconditions of program P1 hold. -/
theorem readyT : (startT []).Ready .p0 where
  p1 := rfl
  p3 := by decide
  p4 := by decide
  p5a := (Cells.holdsAll_iff _ _ _).mp (by decide)
  p5l := (Cells.holdsAll_iff _ _ _).mp (by decide)
  p6 := scanOrderT

/-- P4 at its bound: the block ends where the left array ends. -/
theorem witness_StartRunsExactlyWhenReady :
    ((startT []).st = .idle ∧ (startT []).Ready .p0) ∧
    ((atT .done []).st = .done ∧ (startT []).csr.posX + unitsOf (startT []).csr.tx ≤ 16) ∧
    ¬ ∃ p, State.reset.Ready p := by
  refine ⟨⟨rfl, readyT⟩, by decide, ?_⟩
  rintro ⟨p, h⟩
  obtain ⟨v, hv⟩ := h.p5a 0 (by decide) (by decide)
  cases p <;> simp [State.reset, Memory.empty, FlagArray.empty, PerPlane.get, Cells.read] at hv

theorem witness_StartIsIgnoredWhileBusyOrFatal :
    (atT .setup []).st.busy = true ∧ (atT .edge []).st.busy = true ∧ (atT .fatal []).st = .fatal := by decide

theorem witness_CsrReadReturnsTheWord :
    (startT []).st.busy = false ∧ (atT .fatal []).st.busy = false ∧ (atT .edge []).st.busy = true := by decide

theorem witness_CsrWriteStoresTheDefinedFields :
    (CsrReg.cfg.rw = true ∧ CsrReg.edge.rw = true ∧ (startT []).st.busy = false) ∧
    ((0 : Word) ≠ 1 ∧ (0 : Word) ≠ 2 ∧ (0 : Word) ≠ 3) ∧
    ((4 : Word) ≠ 1 ∧ (4 : Word) ≠ 2 ∧ (4 : Word) ≠ 3 ∧ (4 : Word) ≠ 0) := by
  decide

/-- The sign boundaries of EDGE: 0x7FFF and 0x8000. -/
theorem witness_CsrFieldsAreTheBitsWritten :
    (startT []).st.busy = false ∧
    ok (exec (.csrwr .edge 0x7FFF8000) (startT [])) (fun t => t.csr.dr == -32768 && t.csr.db == 32767) = true := by
  decide

theorem witness_HostAccessWhileBusyIsRefused :
    ((atT .setup []).st.busy = true ∧ CsrReg.ctrl ≠ .status ∧ CsrReg.count ≠ .status ∧ CsrReg.blk0.rw = true) ∧
    (given (atT .edge []) [.storeRead .cnt 0]).resetDone = true ∧
    (given (atT .edge []) [.storeRead .cnt 0]).st.busy = true := by decide

/-- The last element of each side of the bound of a space. -/
theorem witness_HostElementAccess :
    ((startT []).resetDone = true ∧ (startT []).st.busy = false) ∧
    1023 < (Store.coef .p2).size (startT []).mem ∧ (Store.coef .p2).size (startT []).mem ≤ 1024 ∧
    15 < (Store.above .p0).size (startT []).mem ∧ (Store.above .p0).size (startT []).mem ≤ 16 ∧
    2303 < Store.cnt.size (startT []).mem ∧ Store.eobbr.size (startT []).mem ≤ 576 := by decide

/-- A ZERO at C = 0 under PER_POSITION where the branch counter of the position it enters holds no value. -/
def perPositionT : State :=
  { atT .zadv [] with
    mem := { memT with cnt := [(0, 0)], eobbr := [] }
    par := { paramsT [] with eobbrPolicy := .perPosition } }

/-- T with these counters and no others, in the end-of-block test. -/
def fewCounters (l : List (Prob × Bool)) (cnt eobbr : Cells (BitVec 32)) : State :=
  { atT .eobt l with mem := { memT with cnt := cnt, eobbr := eobbr } }

/-- The counters of (band, ctx) = (0, 0) hold a value in T. -/
theorem cntT (k : CntKind) : ∃ v, memT.cnt.read (cntIndex 0 false false 0 0 k) = some v :=
  ⟨0, by cases k <;> decide +kernel⟩

theorem countersHereT (st : St) (l : List (Prob × Bool)) (k : CntKind) :
    CounterReady (atT st l) (atT st l).mem.cnt (cntIndex 0 false false 0 0 k) := fun _ => cntT k

theorem witness_EobEndsTheBlock :
    (atT .eobt []).csr.statsEn = true ∧
    CounterReady (atT .eobt []) (atT .eobt []).mem.cnt (cntIndex 0 false false 0 0 .eob) ∧
    CounterReady State.reset State.reset.mem.cnt (cntIndex 0 false false 0 0 .eob) :=
  ⟨by decide, countersHereT _ _ _, fun h => absurd h (by decide)⟩

theorem witness_OneHasMagnitudeOne :
    (atT .onet []).csr.statsEn = true ∧
    CounterReady (atT .onet []) (atT .onet []).mem.cnt (cntIndex 0 false false 0 0 .one) :=
  ⟨by decide, countersHereT _ _ _⟩

theorem witness_ZeroAtTheLastPosition :
    ∃ s : State, s.x.c + 1 = s.x.maxeob ∧
      CounterReady s s.mem.cnt (cntIndex s.csr.tx s.csr.ptype s.csr.ref s.x.band s.x.ctx .zero) :=
  ⟨{ atT .zadv [] with x := { Regs.zero with c := 15, maxeob := 16 } }, by decide, countersHereT .zadv [] .zero⟩

/-- A ZERO at C = 0 in T: both neighbours of position 1 are position 0, written by this token. -/
theorem witness_ZeroBeforeTheLastPosition :
    (atT .zadv []).x.c + 1 ≠ (atT .zadv []).x.maxeob ∧
    CounterReady (atT .zadv []) (atT .zadv []).mem.cnt (cntIndex 0 false false 0 0 .zero) ∧
    (∀ j, ((atT .zadv []).nbPos ((atT .zadv []).x.c + 1).toNat j).toNat = ((atT .zadv []).scanPos 0).toNat) ∧
    (atT .zadv []).par.ctxForAt 0 0 = 0 ∧ (atT .zadv []).tab.bandAt 0 1 = 1 ∧
    CounterReady (atT .zadv []) (atT .zadv []).mem.eobbr (eobbrIndex 0 false false 1 0) ∧
    { paramsT [] with eobbrPolicy := EobbrPolicy.perPosition }.eobbrPolicy = .perPosition :=
  ⟨by decide, countersHereT _ _ _, by decide +kernel, by decide, by decide +kernel,
    fun _ => (countersT rfl 1 0 (by decide) (by decide)).2, rfl⟩

/-- A ZERO at C = 1 where position 0 was never written. -/
theorem witness_ZeroBeforeTheLastPosition_refused :
    ∃ s : State, s.x.c + 1 ≠ s.x.maxeob ∧
      CounterReady s s.mem.cnt (cntIndex s.csr.tx s.csr.ptype s.csr.ref s.x.band s.x.ctx .zero) ∧
      (s.nbPos (s.x.c + 1).toNat true).toNat ≠ (s.scanPos s.x.c.toNat).toNat ∧
      s.tc.read (s.nbPos (s.x.c + 1).toNat true).toNat = none :=
  ⟨{ atT .zadv [] with x := { Regs.zero with c := 1, maxeob := 16 } }, by decide, countersHereT .zadv [] .zero,
    by decide +kernel, by decide +kernel⟩

theorem witness_ReadCatReadsExactlyItsVector :
    ([] : List Prob).length ≤ 18 ∧ cat6T.length ≤ 18 ∧ ¬ cat6T.length ≤ 17 := by decide

/-- CAT1 and CAT5, the ends of the range. -/
theorem witness_CategoriesLoadBasePlusExtension :
    ∃ (i j : Instr), (i, 1, catBase 1) = (Instr.cat1, 1, 5) ∧ (j, 5, catBase 5) = (Instr.cat5, 5, 35) :=
  ⟨.cat1, .cat5, by decide⟩

theorem witness_Category6WidthFollowsTheBitDepth :
    [8, 10, 12].map (fun v => ({ Csrs.zero with cfg := v } : Csrs).bd) = [8, 10, 12] := by decide

theorem witness_Category6BitDepthIsFatal :
    ∃ s : State, s.csr.bd ≠ 8 ∧ s.csr.bd ≠ 10 ∧ s.csr.bd ≠ 12 := ⟨State.reset, by decide⟩

/-- Bit 0 with both counters, and bit 1 without a value in the EOB counter. -/
theorem witness_EobTestReadsOneBit :
    ((atT .eobt [(1, false)]).par.Delivers [((probT 0 0).eob, false)] 0 1 ∧
      CounterReady (atT .eobt []) (atT .eobt []).mem.eobbr (eobbrIndex 0 false false 0 0) ∧
      CounterReady (atT .eobt []) (atT .eobt []).mem.cnt (cntIndex 0 false false 0 0 .eob)) ∧
    ((atT .eobt [(1, true)]).par.Delivers [((probT 0 0).eob, true)] 0 1 ∧
      (fewCounters [(1, true)] [] [(0, 0)]).csr.statsEn = true ∧
      CounterReady (fewCounters [(1, true)] [] [(0, 0)]) [(0, 0)] (eobbrIndex 0 false false 0 0) ∧
      ((fewCounters [(1, true)] [] [(0, 0)]).mem.cnt.read (cntIndex 0 false false 0 0 .eob)) = none) := by
  refine ⟨⟨?_, fun _ => (countersT rfl 0 0 (by decide) (by decide)).2, countersHereT _ _ _⟩, ?_, by decide,
    fun _ => ⟨0, rfl⟩, rfl⟩ <;> simp only [Params.Delivers] <;> decide +kernel

/-- Bit 0 with a value in the ONE counter alone, and bit 1 with one in the MORE counter alone. -/
theorem witness_OneTestReadsOneBit :
    ((atT .onet [(3, false)]).par.Delivers [((probT 0 0).one, false)] 0 1 ∧
      CounterReady (fewCounters [(3, false)] [(1, 0)] []) [(1, 0)] (cntIndex 0 false false 0 0 .one) ∧
      Cells.read [(1, (0 : BitVec 32))] (cntIndex 0 false false 0 0 .more) = none) ∧
    ((atT .onet [(3, true)]).par.Delivers [((probT 0 0).one, true)] 0 1 ∧
      CounterReady (fewCounters [(3, true)] [(2, 0)] []) [(2, 0)] (cntIndex 0 false false 0 0 .more) ∧
      Cells.read [(2, (0 : BitVec 32))] (cntIndex 0 false false 0 0 .one) = none) := by
  refine ⟨⟨?_, fun _ => ⟨0, rfl⟩, rfl⟩, ?_, fun _ => ⟨0, rfl⟩, rfl⟩ <;> simp only [Params.Delivers] <;>
    decide +kernel

/-- WRITE_CACHE at C = 0 of T, at C = 15, and at C = 1 where position 0 was never written. -/
theorem witness_WriteCacheStoresOneCoefficient :
    (planeOf (atT .wrc []).csr.plane = some .p0 ∧
      ((atT .wrc []).x.c + 1).toNat < (atT .wrc []).x.maxeob.toNat ∧
      (∀ j, ((atT .wrc []).nbPos ((atT .wrc []).x.c + 1).toNat j).toNat = ((atT .wrc []).scanPos 0).toNat)) ∧
    (∃ s : State, planeOf s.csr.plane = some .p0 ∧ s.x.c + 1 = s.x.maxeob) ∧
    ∃ s : State, planeOf s.csr.plane = some .p0 ∧ (s.x.c + 1).toNat < s.x.maxeob.toNat ∧
      (s.nbPos (s.x.c + 1).toNat true).toNat ≠ (s.scanPos s.x.c.toNat).toNat ∧
      s.tc.read (s.nbPos (s.x.c + 1).toNat true).toNat = none :=
  ⟨by decide +kernel,
    ⟨{ atT .wrc [] with x := { Regs.zero with c := 15, maxeob := 16 } }, by decide, by decide⟩,
    { atT .wrc [] with x := { Regs.zero with c := 1, maxeob := 16 } }, by decide, by decide,
    by decide +kernel, by decide +kernel⟩

theorem witness_CtxUpdateReadsTwoNeighbours :
    (∃ s : State, ∀ j, s.tc.read (s.tab.nbAt s.csr.scanid s.csr.tx s.x.c.toNat j).toNat = some 3) ∧
    ∃ s : State, s.tc.read (s.tab.nbAt s.csr.scanid s.csr.tx s.x.c.toNat false).toNat = none :=
  ⟨⟨{ atT .wrc [] with tc := [(0, 3), (5, 3)], x := { Regs.zero with c := 2 } }, by decide +kernel⟩,
    State.reset, rfl⟩

theorem witness_InitCtxReadsTheTwoSlices :
    planeOf (atT .setup []).csr.plane = some .p0 ∧ [false].length = (atT .setup []).x.nunits.toNat ∧
    (∀ i, i < (atT .setup []).x.nunits.toNat →
      [false][i]? = ((atT .setup []).mem.above.get .p0).cells.read ((atT .setup []).csr.posX + i)) ∧
    (∀ i, i < (atT .setup []).x.nunits.toNat →
      [false][i]? = ((atT .setup []).mem.left.get .p0).cells.read ((atT .setup []).csr.posY + i)) := by decide

theorem witness_BlockSetupPreparesTheBlock :
    planeOf (startT []).csr.plane = some .p0 ∧ [false].length = 2 ^ (startT []).csr.tx.toNat ∧
    (∀ i, i < [false].length →
      [false][i]? = ((startT []).mem.above.get .p0).cells.read ((startT []).csr.posX + i)) ∧
    (∀ i, i < [false].length →
      [false][i]? = ((startT []).mem.left.get .p0).cells.read ((startT []).csr.posY + i)) := by decide

/-- The above slice ends where the array ends: 12 + 4 = 16. -/
theorem witness_EdgeWriteClipsToTheFrame :
    ∃ s : State, planeOf s.csr.plane = some .p0 ∧
      s.csr.posX + s.x.nunits.toNat = (s.mem.above.get .p0).len ∧
      s.csr.posY + s.x.nunits.toNat ≤ (s.mem.left.get .p0).len ∧ s.csr.dr = -32768 ∧ s.csr.db = 32767 :=
  ⟨{ edgeT 5 0x7FFF8000 with csr := { Csrs.zero with blk0 := 2, blkpos := 12, edge := 0x7FFF8000 } },
    by decide, by decide, by decide, by decide, by decide⟩

theorem witness_CounterIndicesAreInSpaceAndDistinct :
    (5#3).toNat < 6 ∧ (0#3).toNat < 6 ∧ ¬ (6#3).toNat < 6 := by decide

theorem witness_TablesAreNeverMutatedByTheDecoder :
    ok (step (given (startT []) [.positionStream 7])) (fun t => t.bd == 7) = true ∧
    ∀ tab rest, (given (startT []) [.positionStream 7]).inputs ≠ .loadTables tab :: rest :=
  ⟨by decide, by simp [given]⟩

theorem witness_OnlyTheNamedInstructionsWrite :
    ok (exec .two (atT .htok [])) (fun _ => true) = true ∧ (∀ b, Instr.two ≠ .srst b) ∧
    (∀ v, Instr.two ≠ .csrwr .ctrl v) ∧ (startT []).csr.statsEn = true ∧ State.reset.csr.statsEn = false ∧
    (ok (exec .zero (atT .zadv [])) (fun t => t.st == .zerot) = true ∧ (∀ b, Instr.zero ≠ .srst b) ∧
      Instr.zero ≠ .eobTest ∧ (atT .zadv []).par.eobbrPolicy = .perEobTest) :=
  ⟨by decide, by simp, by simp, by decide, by decide, by decide +kernel, by simp, by simp, rfl⟩

/-- From FATAL: a write of CFG stays there, an SRST leaves, by the bus and by its lanes. -/
theorem witness_OnlyResetLeavesFatal :
    (atT .fatal []).st = .fatal ∧
    ok (step (given (atT .fatal []) [.bus true 4 0x08 0x18])) (fun t => t.st == .fatal) = true ∧
    ok (step (given (atT .fatal []) [.bus true 4 0 3])) (fun t => t.st == .idle) = true ∧
    ok (step (given (atT .fatal []) [.busLanes 0 2 0 0 0])) (fun t => t.st == .idle) = true := by decide

/-- The invariant holds in the start state of P1. -/
theorem invT : (startT []).Inv where
  mem := by show memT.wf = true; decide +kernel
  tc := rfl
  ctx := by show 0 < 6; decide
  band := by show 0 < 6; decide

theorem witness_EveryStepKeepsTheInvariant :
    (startT []).Inv ∧ ok (step (given (startT []) [.bus true 4 0x00 1])) (fun t => t.st == .setup) = true :=
  ⟨invT, by decide +kernel⟩

theorem witness_StartEntersADecode :
    (startT []).Inv ∧ (startT []).resetDone = true ∧ (startT []).st = .idle ∧ (startT []).Ready .p0 :=
  ⟨invT, rfl, rfl, readyT⟩

/-- A block decode right after START. -/
theorem decodingT_setup : State.Decoding { startT [] with st := .setup } where
  inv := ⟨invT.mem, invT.tc, invT.ctx, invT.band⟩
  up := rfl
  busy := rfl
  plane := ⟨.p0, rfl, readyT.p3, readyT.p4, fun _ => ⟨readyT.p5a, readyT.p5l⟩⟩
  order := ⟨scanOrderT.inRange, scanOrderT.injective, scanOrderT.neighbours⟩
  sizes := fun h => absurd rfl h
  position := fun h => absurd rfl h
  cache := fun h => absurd rfl h
  latched := by simp
  token := by simp

/-- The last position of a block, before its token is written, its fifteen cache entries written. -/
def lastT : State :=
  { startT [] with
    st := .wrc
    x := { Regs.zero with maxeob := 16, nunits := 1, c := 15, token := .one, coefv := 10 }
    tc := Cells.writeSlice [] 0 (List.replicate 16 1) }

theorem decodingT_last : lastT.Decoding where
  inv := ⟨invT.mem, by decide +kernel, invT.ctx, invT.band⟩
  up := rfl
  busy := rfl
  plane := ⟨.p0, rfl, readyT.p3, readyT.p4, by simp [lastT]⟩
  order := ⟨scanOrderT.inRange, scanOrderT.injective, scanOrderT.neighbours⟩
  sizes := fun _ => by decide
  position := fun _ => by decide
  cache := fun _ i hi => by
    have h16 : i < 16 := Nat.lt_trans hi (by decide)
    have key : ∀ i, i < 16 → (lastT.tc.read (lastT.scanPos i).toNat).isSome = true := by decide +kernel
    exact Option.isSome_iff_exists.mp (key i h16)
  latched := by simp [lastT]
  token := by simp [lastT]

theorem witness_DecodingStepsCompleteAndKeepTheInvariant :
    (State.Decoding { startT [] with st := .setup } ∧ (startT []).inputs = []) ∧
    (lastT.Decoding ∧ lastT.inputs = []) := ⟨⟨decodingT_setup, rfl⟩, decodingT_last, rfl⟩

theorem witness_BlockDecodeRunsToTheEnd :
    State.Decoding { startT [] with st := .setup } ∧ (startT []).inputs = [] := ⟨decodingT_setup, rfl⟩

/-- `CAT2 3 -` of T, from the zero test on. -/
theorem witness_ValueTokenIsDecodedFromItsBits :
    let reads : List (Prob × Bool) := [(2, true), (3, true), (29, true), (122, false), (153, true), (165, true),
      (145, true), (128, true)]
    let s := atT .zerot reads
    s.resetDone = true ∧ s.inputs = [] ∧ s.st = .zerot ∧ s.csr.rangeEn = false ∧
    CounterReady s s.mem.cnt (cntIndex 0 false false 0 0 .more) ∧
    HTree.Path (s.par.higherTokenAt s.x.p.pivot) [(29, true), (122, false), (153, true)] .cat2 ∧
    s.tab.extVector s.csr.bd .cat2 = some [165, 145] ∧
    s.par.Delivers ([(s.x.p.zero, true), (s.x.p.one, true)] ++ [(29, true), (122, false), (153, true)] ++
      [165, 145].zip [true, true] ++ [(128, true)]) s.bd 8 := by
  refine ⟨rfl, rfl, rfl, by decide, countersHereT _ _ _, ?_, by decide +kernel, ?_⟩
  · have h : (atT .zerot [(2, true), (3, true), (29, true), (122, false), (153, true), (165, true),
        (145, true), (128, true)]).par.higherTokenAt 4 = treeT 4 := by decide +kernel
    show HTree.Path (Params.higherTokenAt _ 4) _ _
    rw [h]
    exact .right _ _ _ _ _ (.left _ _ _ _ _ (.right _ _ _ _ _ (.leaf _)))
  · simp only [List.cons_append, List.nil_append, List.zip_cons_cons, List.zip_nil_left, Params.Delivers]
    decide +kernel

theorem witness_ByteLanesFollowTheByteOrder :
    ((atT .edge []).resetDone = true ∧ CsrReg.status.offset = 0x04 ∧
      (given (atT .edge []) [.busLanesRead 0x04]).inputs = [.busLanesRead CsrReg.status.offset]) ∧
    ((startT []).resetDone = true ∧ (startT []).st.busy = false ∧
      (given (startT []) [.busLanes 0x14 0xFB 0xFF 0x02 0, .busLanesRead 0x14]).inputs =
        [.busLanes CsrReg.edge.offset 0xFB 0xFF 0x02 0, .busLanesRead CsrReg.edge.offset]) ∧
    (startT []).par.csrByteOrder = .little ∧ { paramsT [] with csrByteOrder := ByteOrder.big }.csrByteOrder = .big := by
  decide

/-- T without counters, its stream delivering 0 and 1 for the two tests; without a branch counter; and a ZERO
at C = 0 under PER_POSITION with the ZERO counter alone. -/
theorem witness_CounterWithoutValueIsRefused :
    (let s := fewCounters [(1, false)] [] [(0, 0)];
      s.csr.statsEn = true ∧ (∀ k, s.mem.cnt.read (cntIndex 0 false false 0 0 k) = none) ∧
        s.mem.eobbr.read (eobbrIndex 0 false false 0 0) = some 0 ∧ s.par.Delivers [(s.x.p.eob, false)] s.bd 1) ∧
    (fewCounters [] [] []).mem.eobbr.read (eobbrIndex 0 false false 0 0) = none ∧
    Params.Delivers (paramsT [(3, false)]) [((probT 0 0).one, false)] 0 1 ∧
    Params.Delivers (paramsT [(3, true)]) [((probT 0 0).one, true)] 0 1 ∧
    (let s := perPositionT;
      s.csr.statsEn = true ∧ s.par.eobbrPolicy = .perPosition ∧ s.x.c + 1 ≠ s.x.maxeob ∧
        s.mem.cnt.read (cntIndex 0 false false 0 0 .zero) = some 0 ∧
        (∀ j, (s.nbPos (s.x.c + 1).toNat j).toNat = (s.scanPos s.x.c.toNat).toNat) ∧
        s.mem.eobbr.read (eobbrIndex 0 false false (s.tab.bandAt 0 (s.x.c + 1).toNat)
          (s.par.ctxForAt 0 0)) = none) := by
  refine ⟨⟨by decide, fun k => rfl, by decide, ?_⟩, rfl, ?_, ?_, by decide, rfl, by decide, rfl,
    by decide +kernel, rfl⟩ <;> simp only [Params.Delivers] <;> decide +kernel

end Sys2Proof.Tests
end

section
/-! What every operation of the sequencer leaves of the block that it decodes, stated once over all
instructions but the host commands; and the two ways of speaking about a result that the proofs use. -/

namespace Sys2Proof.Machine

/-! ## Speaking about results -/

/-- If the result is a next state, that state satisfies `P`. -/
def Ensures (r : Result) (P : State → Prop) : Prop := ∀ t, r = .next t → P t

namespace Ensures

variable {P Q : State → Prop}

theorem next {t : State} (h : P t) : Ensures (.next t) P := by
  rintro _ ⟨⟩
  exact h

theorem refused (e : Refusal) : Ensures (.refused e) P := by simp [Ensures]

theorem fault (e : Fault) : Ensures (.fault e) P := by simp [Ensures]

theorem mono {r : Result} (h : Ensures r P) (hPQ : ∀ t, P t → Q t) : Ensures r Q :=
  fun t ht => hPQ t (h t ht)

theorem andThen {r : Result} {f : State → Result} (h : Ensures r P) (hf : ∀ u, P u → Ensures (f u) Q) :
    Ensures (andThen r f) Q := by
  intro t ht
  obtain ⟨u, hu, hft⟩ := (andThen_eq_next _ _ _).mp ht
  exact hf u (h u hu) t hft

theorem ite {c : Prop} [Decidable c] {r r' : Result} (h : Ensures r P) (h' : Ensures r' P) :
    Ensures (if c then r else r') P := by
  split
  · exact h
  · exact h'

end Ensures

/-! ## The surroundings of a decode -/

namespace SameSurroundings

variable {s t u : State}

theorem trans (h : SameSurroundings s t) (k : SameSurroundings t u) : SameSurroundings s u where
  resetDone := k.resetDone.trans h.resetDone
  cfg := k.cfg.trans h.cfg
  blk0 := k.blk0.trans h.blk0
  blkpos := k.blkpos.trans h.blkpos
  edge := k.edge.trans h.edge
  tab := k.tab.trans h.tab
  par := k.par.trans h.par
  rdata := k.rdata.trans h.rdata
  elem := k.elem.trans h.elem
  inputs := k.inputs.trans h.inputs
  draws := k.draws.trans h.draws

theorem tx (h : SameSurroundings s t) : t.csr.tx = s.csr.tx := by simp only [Csrs.tx, h.blk0]

theorem plane (h : SameSurroundings s t) : t.csr.plane = s.csr.plane := by simp only [Csrs.plane, h.blk0]

theorem posX (h : SameSurroundings s t) : t.csr.posX = s.csr.posX := by simp only [Csrs.posX, h.blkpos]

theorem posY (h : SameSurroundings s t) : t.csr.posY = s.csr.posY := by simp only [Csrs.posY, h.blkpos]

theorem statsEn (h : SameSurroundings s t) : t.csr.statsEn = s.csr.statsEn := by
  simp only [Csrs.statsEn, h.cfg]

theorem scanPos (h : SameSurroundings s t) (i : Nat) : t.scanPos i = s.scanPos i := by
  simp only [State.scanPos, Csrs.scanid, h.tx, h.blk0, h.tab]

theorem nbPos (h : SameSurroundings s t) (c : Nat) (j : Bool) : t.nbPos c j = s.nbPos c j := by
  simp only [State.nbPos, Csrs.scanid, h.tx, h.blk0, h.tab]

theorem cntIndex (h : SameSurroundings s t) (band ctx : BitVec 3) (k : CntKind) :
    cntIndex t.csr.tx t.csr.ptype t.csr.ref band ctx k =
      cntIndex s.csr.tx s.csr.ptype s.csr.ref band ctx k := by
  simp only [Csrs.ptype, Csrs.ref, h.tx, h.blk0]

theorem eobbrIndex (h : SameSurroundings s t) (band ctx : BitVec 3) :
    eobbrIndex t.csr.tx t.csr.ptype t.csr.ref band ctx =
      eobbrIndex s.csr.tx s.csr.ptype s.csr.ref band ctx := by
  simp only [Csrs.ptype, Csrs.ref, h.tx, h.blk0]

theorem scanOrder (h : SameSurroundings s t) (ho : s.ScanOrder) : t.ScanOrder where
  inRange := by simpa only [h.tx, h.scanPos] using ho.inRange
  injective := by simpa only [h.tx, h.scanPos] using ho.injective
  neighbours := by simpa only [h.tx, h.scanPos, h.nbPos] using ho.neighbours

end SameSurroundings

/-! ## What a decode keeps of its block -/

/-- `t` is a later state of the block decode that `s` is in: the surroundings are the same, the memory keeps
its canonical form and the lengths of its arrays, and no counter of the block has lost its value. -/
structure SameBlock (s t : State) : Prop where
  around : SameSurroundings s t
  memWf : s.mem.wf = true → t.mem.wf = true
  aboveLen : ∀ p, (t.mem.above.get p).len = (s.mem.above.get p).len
  leftLen : ∀ p, (t.mem.left.get p).len = (s.mem.left.get p).len
  filled : s.CountersFilled → t.CountersFilled

/-- Counters that hold a value still do so after some of them were incremented. -/
theorem Counted.exists_read {en : Bool} {m m' : Cells (BitVec 32)} {idx : List Nat} (h : Counted en m m' idx)
    {i : Nat} (hi : ∃ v, m.read i = some v) : ∃ v, m'.read i = some v := by
  obtain ⟨v, hv⟩ := hi
  rw [h i, hv]
  split
  · exact ⟨v + 1, rfl⟩
  · exact ⟨v, rfl⟩

theorem SameSurroundings.filled_of_reads {s t : State} (h : SameSurroundings s t)
    (hcnt : ∀ i, (∃ v, s.mem.cnt.read i = some v) → ∃ v, t.mem.cnt.read i = some v)
    (heob : ∀ i, (∃ v, s.mem.eobbr.read i = some v) → ∃ v, t.mem.eobbr.read i = some v)
    (hs : s.CountersFilled) : t.CountersFilled := by
  intro hen band ctx hband hctx
  obtain ⟨hk, he⟩ := hs (h.statsEn ▸ hen) band ctx hband hctx
  refine ⟨fun k => ?_, ?_⟩
  · rw [h.cntIndex]
    exact hcnt _ (hk k)
  · rw [h.eobbrIndex]
    exact heob _ he

namespace SameBlock

variable {s t u : State}

theorem trans (h : SameBlock s t) (k : SameBlock t u) : SameBlock s u where
  around := h.around.trans k.around
  memWf := k.memWf ∘ h.memWf
  aboveLen p := (k.aboveLen p).trans (h.aboveLen p)
  leftLen p := (k.leftLen p).trans (h.leftLen p)
  filled := k.filled ∘ h.filled

/-- An operation on registers, cache and stream keeps the whole memory. -/
theorem of_mem_eq (h : SameSurroundings s t) (hm : t.mem = s.mem) : SameBlock s t where
  around := h
  memWf := by rw [hm]; exact id
  aboveLen := by simp [hm]
  leftLen := by simp [hm]
  filled := h.filled_of_reads (by rw [hm]; exact fun _ => id) (by rw [hm]; exact fun _ => id)

theorem refl (s : State) : SameBlock s s := .of_mem_eq (by constructor <;> rfl) rfl

theorem setX (h : SameBlock s t) (v : Regs) : SameBlock s (t.setX v) :=
  h.trans (.of_mem_eq (by constructor <;> rfl) rfl)

theorem setSt (h : SameBlock s t) (v : St) : SameBlock s (t.setSt v) :=
  h.trans (.of_mem_eq (by constructor <;> rfl) rfl)

theorem setBd (h : SameBlock s t) (v : Nat) : SameBlock s (t.setBd v) :=
  h.trans (.of_mem_eq (by constructor <;> rfl) rfl)

theorem setTc (h : SameBlock s t) (v : Cells (BitVec 3)) : SameBlock s (t.setTc v) :=
  h.trans (.of_mem_eq (by constructor <;> rfl) rfl)

theorem setClamped (h : SameBlock s t) (v : Bool) : SameBlock s (t.setClamped v) :=
  h.trans (.of_mem_eq (by constructor <;> rfl) rfl)

end SameBlock

/-! ## The shared operations -/

section
variable {s t : State}

theorem incCnt_sameBlock (k : CntKind) (s : State) : Ensures (incCnt k s) (SameBlock s) := by
  intro t h
  have hwf := incCnt_wf h
  obtain ⟨⟨m, rfl⟩, hc⟩ := incCnt_counted h
  have ha : SameSurroundings s (s.setMem { s.mem with cnt := m }) := by constructor <;> rfl
  exact ⟨ha, hwf, fun _ => rfl, fun _ => rfl, ha.filled_of_reads (fun _ => hc.exists_read) fun _ => id⟩

theorem incEobbr_sameBlock (s : State) : Ensures (incEobbr s) (SameBlock s) := by
  intro t h
  have hwf := incEobbr_wf h
  obtain ⟨⟨m, rfl⟩, hc⟩ := incEobbr_counted h
  have ha : SameSurroundings s (s.setMem { s.mem with eobbr := m }) := by constructor <;> rfl
  exact ⟨ha, hwf, fun _ => rfl, fun _ => rfl, ha.filled_of_reads (fun _ => id) fun _ => hc.exists_read⟩

theorem writeCoef_sameBlock (s : State) : Ensures (writeCoef s) (SameBlock s) := by
  intro t h
  have hwf := writeCoef_wf h
  obtain ⟨p, -, rfl⟩ := writeCoef_cases h
  have ha : SameSurroundings s (s.setMem { s.mem with
      coef := s.mem.coef.set p ((s.mem.coef.get p).write s.x.pos.toNat s.x.coefv) }) := by constructor <;> rfl
  exact ⟨ha, hwf, fun _ => rfl, fun _ => rfl, ha.filled_of_reads (fun _ => id) fun _ => id⟩

/-- Writing the cells of one array keeps the lengths of all three. -/
theorem FlagArray.len_set_cells (f : PerPlane FlagArray) (p q : Plane) (cells : Cells Bool) :
    ((f.set p { f.get p with cells := cells }).get q).len = (f.get q).len := by
  rw [PerPlane.get_set]
  split
  · rename_i h
    rw [h]
  · rfl

theorem edgeWrite_sameBlock (s : State) : Ensures (edgeWrite s) (SameBlock s) := by
  intro t h
  have hwf := edgeWrite_wf h
  obtain ⟨p, -, -, -, rfl⟩ := edgeWrite_cases h
  refine ⟨by constructor <;> rfl, hwf, fun _ => FlagArray.len_set_cells _ _ _ _,
    fun _ => FlagArray.len_set_cells _ _ _ _, ?_⟩
  exact SameSurroundings.filled_of_reads (by constructor <;> rfl) (fun _ => id) fun _ => id

theorem initCtx_sameBlock (s : State) : Ensures (initCtx s) (SameBlock s) := by
  intro t h
  obtain ⟨p, a, l, -, -, -, rfl⟩ := initCtx_cases h
  exact (SameBlock.refl s).setX _

theorem ctxUpdate_sameBlock (s : State) : Ensures (ctxUpdate s) (SameBlock s) := by
  intro t h
  obtain ⟨e0, e1, -, -, rfl⟩ := ctxUpdate_cases h
  exact (SameBlock.refl s).setX _

theorem SameBlock.latchProbs (h : SameBlock s t) : SameBlock s (latchProbs t) := (h.setX _).setX _

theorem SameBlock.rangeClamp (h : SameBlock s t) : SameBlock s (rangeClamp t) := (h.setClamped _).setX _

theorem SameBlock.readCategory (h : SameBlock s t) (k : Nat) (pv : List Prob) :
    SameBlock s (readCategory k pv t) :=
  (((h.setX _).setBd _).setX _).setSt _

/-- BLOCK_FINISH and the fatal entry write COUNT and FINFO, which are no part of the surroundings. -/
theorem SameBlock.blockFinish (h : SameBlock s t) : SameBlock s (blockFinish t) :=
  h.trans (.of_mem_eq (by constructor <;> rfl) rfl)

theorem SameBlock.raiseFatal (h : SameBlock s t) (code : BitVec 4) : SameBlock s (raiseFatal code t) :=
  h.trans (.of_mem_eq (by constructor <;> rfl) rfl)

theorem zeroEffect_sameBlock (s : State) : Ensures (zeroEffect s) (SameBlock s) := by
  intro t h
  obtain ⟨u, hu, hcases⟩ := zeroEffect_cases h
  have hz : SameBlock s (zeroWritten u) :=
    ((((incCnt_sameBlock _ _ _ hu).setX _).setX _).setTc _).setX _
  obtain ⟨-, rfl⟩ | ⟨-, v, hv, hpol⟩ := hcases
  · exact hz.setSt _
  · have hl : SameBlock s (latchProbs v) := (hz.trans (ctxUpdate_sameBlock _ _ hv)).latchProbs
    obtain ⟨-, rfl⟩ | ⟨-, w, hw, rfl⟩ := hpol
    · exact hl.setSt _
    · exact (hl.trans (incEobbr_sameBlock _ _ hw)).setSt _

end

/-! ## The instructions -/

theorem execEob_sameBlock (s : State) : Ensures (execEob s) (SameBlock s) :=
  (incCnt_sameBlock .eob s).andThen fun _ hu => .next (hu.setSt _)

theorem execOne_sameBlock (s : State) : Ensures (execOne s) (SameBlock s) :=
  (incCnt_sameBlock .one s).andThen fun _ hu => .next (((hu.setX _).setX _).setSt _)

theorem execCat6_sameBlock (s : State) : Ensures (execCat6 s) (SameBlock s) := by
  unfold execCat6
  split
  · exact .next ((SameBlock.refl s).raiseFatal _)
  · exact .next ((SameBlock.refl s).readCategory _ _)

theorem execBlockSetup_sameBlock (s : State) : Ensures (execBlockSetup s) (SameBlock s) :=
  ((initCtx_sameBlock _).mono fun _ hu => ((((SameBlock.refl s).setX _).setClamped _).setTc _).trans hu).andThen
    fun _ hu => .next (hu.setSt _)

theorem execEobTest_sameBlock (s : State) : Ensures (execEobTest s) (SameBlock s) :=
  (incEobbr_sameBlock s).andThen fun _ hu =>
    .ite ((execEob_sameBlock _).mono fun _ ht => (hu.setBd _).trans ht) (.next ((hu.setBd _).setSt _))

theorem execZeroTest_sameBlock (s : State) : Ensures (execZeroTest s) (SameBlock s) :=
  .ite (.next (((SameBlock.refl s).setBd _).setSt _)) (.next (((SameBlock.refl s).setBd _).setSt _))

theorem execOneTest_sameBlock (s : State) : Ensures (execOneTest s) (SameBlock s) :=
  have hb : SameBlock s (boolRead s.x.p.one s).2 := (SameBlock.refl s).setBd _
  .ite ((execOne_sameBlock _).mono fun _ ht => hb.trans ht)
    ((incCnt_sameBlock .more _).andThen fun _ hu => .next ((hb.trans hu).setSt _))

theorem execHigherToken_sameBlock (s : State) : Ensures (execHigherToken s) (SameBlock s) := by
  unfold execHigherToken
  dsimp only
  generalize runTree s.par (s.par.higherTokenAt s.x.p.pivot) s.bd = r
  have hr : ∀ x, SameBlock s ((s.setBd r.2).setX x) := ((SameBlock.refl s).setBd r.2).setX
  cases r.1
  case two | three | four => exact .next (((hr _).setX _).setSt _)
  all_goals exact .next ((hr _).setSt _)

theorem execDequantSign_sameBlock (s : State) : Ensures (execDequantSign s) (SameBlock s) := by
  unfold execDequantSign
  refine .next (SameBlock.setSt ?_ _)
  have hr := ((SameBlock.refl s).setBd (s.par.boolDecAt s.bd probHalf).2).setX
    { s.x with
      v := dequantize s.x.val s.quantizer s.csr.tx
      coefv := applySign (dequantize s.x.val s.quantizer s.csr.tx) (s.par.boolDecAt s.bd probHalf).1 }
  split
  · exact hr.rangeClamp
  · exact hr

theorem execWriteCache_sameBlock (s : State) : Ensures (execWriteCache s) (SameBlock s) :=
  (writeCoef_sameBlock (setPos s)).andThen fun u hu =>
    have hw : SameBlock s (advanceC (writeTc (u.par.energyClassAt u.x.token) u)) :=
      (((((SameBlock.refl s).setX _).trans hu).setTc _).setX _)
    Ensures.andThen (.ite ((ctxUpdate_sameBlock _).mono fun _ hv => hw.trans hv) (.next hw))
      fun _ hv => .next ((hv.setX _).setSt _)

/-- The instructions of format HC, which the host gives (30_encoding.md R90). -/
def isHostCommand : Instr → Bool
  | .start | .srst _ | .csrrd _ | .csrwr _ _ => true
  | _ => false

/-- Every instruction but the host commands keeps the block. -/
theorem exec_sameBlock {i : Instr} (hi : isHostCommand i = false) (s : State) :
    Ensures (exec i s) (SameBlock s) := by
  have hs := SameBlock.refl s
  cases i with
  | start | srst | csrrd | csrwr => cases hi
  | eob => exact execEob_sameBlock s
  | zero => exact zeroEffect_sameBlock s
  | one => exact execOne_sameBlock s
  | two => exact .next ((hs.setX _).setSt _)
  | three => exact .next ((hs.setX _).setSt _)
  | four => exact .next ((hs.setX _).setSt _)
  | cat1 => exact .next (hs.readCategory _ _)
  | cat2 => exact .next (hs.readCategory _ _)
  | cat3 => exact .next (hs.readCategory _ _)
  | cat4 => exact .next (hs.readCategory _ _)
  | cat5 => exact .next (hs.readCategory _ _)
  | cat6 => exact execCat6_sameBlock s
  | blockSetup => exact execBlockSetup_sameBlock s
  | initCtx => exact initCtx_sameBlock s
  | bandCtxSelect => exact .next (hs.latchProbs.setSt _)
  | eobTest => exact execEobTest_sameBlock s
  | zeroTest => exact execZeroTest_sameBlock s
  | zeroAdvance => exact zeroEffect_sameBlock s
  | oneTest => exact execOneTest_sameBlock s
  | higherToken => exact execHigherToken_sameBlock s
  | readCat pv => exact .next ((hs.setX _).setBd _)
  | dequantSign => exact execDequantSign_sameBlock s
  | rangeClamp => exact .next hs.rangeClamp
  | writeCache => exact execWriteCache_sameBlock s
  | ctxUpdate => exact ctxUpdate_sameBlock s
  | edgeWrite => exact (edgeWrite_sameBlock s).andThen fun _ hu => .next hu.blockFinish
  | blockFinish => exact .next hs.blockFinish

end Sys2Proof.Machine
end

section
/-! One sequencer step of a block decode. Each operation either moves on within its position, or writes the
position's cache entry and enters the next one, or begins or ends the decode; what these five kinds of move
keep is shown once per kind. -/

namespace Sys2Proof.Machine

/-! ## Results that may be the refusal P8 -/

/-- The result is a next state that satisfies `P`; or it is the refusal P8, and not all counters of the block
of `s` hold values. -/
def AnswersOrP8 (s : State) (r : Result) (P : State → Prop) : Prop :=
  (∃ t, r = .next t ∧ P t) ∨ (r = .refused (.precondition .p8) ∧ ¬ s.CountersFilled)

namespace AnswersOrP8

variable {s : State} {P Q : State → Prop}

theorem next {t : State} (h : P t) : AnswersOrP8 s (.next t) P := .inl ⟨t, rfl, h⟩

theorem andThen {r : Result} {f : State → Result} (h : AnswersOrP8 s r P)
    (hf : ∀ u, P u → AnswersOrP8 s (f u) Q) : AnswersOrP8 s (andThen r f) Q := by
  obtain ⟨u, rfl, hu⟩ | ⟨rfl, hs⟩ := h
  · exact hf u hu
  · exact .inr ⟨rfl, hs⟩

theorem mono_of_ensures {r : Result} (h : AnswersOrP8 s r P) (hr : Ensures r Q) {R : State → Prop}
    (hPQ : ∀ t, P t → Q t → R t) : AnswersOrP8 s r R := by
  obtain ⟨u, hu, hP⟩ | hs := h
  · exact .inl ⟨u, hu, hPQ u hP (hr u hu)⟩
  · exact .inr hs

/-- Counters that are missing later were missing before. -/
theorem of_sameBlock {u : State} {r : Result} (h : AnswersOrP8 u r P) (hb : SameBlock s u) :
    AnswersOrP8 s r P :=
  h.imp_right fun ⟨hr, hu⟩ => ⟨hr, fun hs => hu (hb.filled hs)⟩

end AnswersOrP8

section
variable {s : State} (hctx : s.x.ctx.toNat < Config.nCtx) (hband : s.x.band.toNat < Config.nBands)
include hctx hband

theorem incCnt_answersOrP8 (k : CntKind) :
    AnswersOrP8 s (incCnt k s) fun t => ∃ m, t = s.setMem m ∧ SameBlock s t := by
  by_cases hc : s.csr.statsEn = true → ∃ n, s.mem.cnt.read (s.cntHere k) = some n
  · obtain ⟨t, ht⟩ := incCnt_completes hc
    obtain ⟨⟨m, rfl⟩, -⟩ := incCnt_counted ht
    exact .inl ⟨_, ht, _, rfl, incCnt_sameBlock k _ _ ht⟩
  · rw [Classical.not_imp] at hc
    obtain ⟨hen, hnone⟩ := hc
    refine .inr ⟨?_, fun hs => hnone ((hs hen _ _ hband hctx).1 k)⟩
    simp [incCnt, hen, Option.eq_none_iff_forall_ne_some.mpr fun n hn => hnone ⟨n, hn⟩]

theorem incEobbr_answersOrP8 : AnswersOrP8 s (incEobbr s) fun t => ∃ m, t = s.setMem m ∧ SameBlock s t := by
  by_cases hc : s.csr.statsEn = true → ∃ n, s.mem.eobbr.read s.eobbrHere = some n
  · obtain ⟨t, ht⟩ := incEobbr_completes hc
    obtain ⟨⟨m, rfl⟩, -⟩ := incEobbr_counted ht
    exact .inl ⟨_, ht, _, rfl, incEobbr_sameBlock _ _ ht⟩
  · rw [Classical.not_imp] at hc
    obtain ⟨hen, hnone⟩ := hc
    refine .inr ⟨?_, fun hs => hnone (hs hen _ _ hband hctx).2⟩
    simp [incEobbr, hen, Option.eq_none_iff_forall_ne_some.mpr fun n hn => hnone ⟨n, hn⟩]

end

/-! ## The step of a busy state -/

/-- With nothing pending, a busy state's step runs the instruction of ST (10_state.md R25). -/
theorem step_eq_exec {s : State} (hup : s.resetDone = true) (hin : s.inputs = []) (hb : s.st.busy = true)
    {i : Instr} (hi : sequencerInstr s.st s.x.token = some i) : step s = exec i s := by
  have hf : fetch s = .run i s := by
    simp only [fetch, hin, fetchOp, hup, hi]
    cases hst : s.st <;> rw [hst] at hb
    case idle | done | fatal => cases hb
    all_goals rfl
  simp only [step, hf]

theorem sequencerInstr_catx {tok : Token} (h : tok.isCategory) :
    sequencerInstr .catx tok = some tok.instr := by
  rcases h with rfl | rfl | rfl | rfl | rfl | rfl <;> rfl

theorem isHostCommand_tokenInstr (tok : Token) : isHostCommand tok.instr = false := by
  cases tok <;> rfl

/-! ## Positions -/

namespace State.Decoding

variable {s : State} (hd : s.Decoding)
include hd

theorem c_lt (hs : s.st ≠ .setup) (he : s.st ≠ .edge) : s.x.c.toNat < maxEobOf s.csr.tx := by
  rw [← (hd.sizes hs).2]
  exact (hd.position hs).2 he

/-- C does not wrap where a token is still to be written. -/
theorem succ_c (hs : s.st ≠ .setup) (he : s.st ≠ .edge) : (s.x.c + 1).toNat = s.x.c.toNat + 1 := by
  have hc := hd.c_lt hs he
  have hm := maxEobOf_le s.csr.tx
  have one : (1 : BitVec 11).toNat = 1 := rfl
  rw [BitVec.toNat_add, one]
  omega

end State.Decoding

theorem St.rank_le (t : St) : t.rank ≤ 7 := by cases t <;> decide

theorem stepsLeft_of_busy {s : State} (hb : s.st.busy = true) (hs : s.st ≠ .setup) :
    s.stepsLeft = 8 * (s.x.maxeob.toNat - s.x.c.toNat) + s.st.rank + 1 := by
  simp [State.stepsLeft, hb, hs]

theorem stepsLeft_pos {s : State} (hb : s.st.busy = true) : 0 < s.stepsLeft := by
  unfold State.stepsLeft
  split_ifs <;> omega

/-! ## The five kinds of move -/

/-- What a step of a block decode is to do (43_token_decoder.md R176): come nearer to the end, keep the
counters, and keep the decoding invariant or end the decode. -/
def State.Advances (s t : State) : Prop :=
  t.inputs = [] ∧ t.stepsLeft < s.stepsLeft ∧
    (s.st ≠ .setup → s.x.c.toNat ≤ t.x.c.toNat ∧ t.x.c.toNat ≤ s.x.c.toNat + 1) ∧
    (s.CountersFilled → t.CountersFilled) ∧
    (t.Decoding ∨ (t.st = .done ∧ t.csr.count = s.x.c ∧ t.csr.count.toNat ≤ maxEobOf s.csr.tx) ∨
      (t.st = .fatal ∧ t.csr.fcode = 1 ∧ t.csr.fpos = s.x.c))

/-- The probabilities in force are those of the position and its context (30_encoding.md R95), in the states
that read with them. -/
def State.Latched (s : State) : Prop :=
  s.st = .eobt ∨ s.st = .zerot ∨ s.st = .onet ∨ s.st = .htok → s.x.band = s.bandHere ∧ s.x.p = s.probsHere

/-- `t` stands later in the same pass over the same position. -/
structure State.MovesWithin (s t : State) : Prop where
  c : t.x.c = s.x.c
  ctx : t.x.ctx = s.x.ctx
  nunits : t.x.nunits = s.x.nunits
  maxeob : t.x.maxeob = s.x.maxeob
  tc : t.tc = s.tc
  band : t.x.band.toNat < Config.nBands
  busy : t.st.busy = true
  notSetup : t.st ≠ .setup
  rank : t.st.rank < s.st.rank
  latched : t.Latched
  token : t.st = .catx → t.x.token.isCategory

/-- `t` has the position's cache entry written and C advanced (43_token_decoder.md R150, R170). -/
structure State.EntryWritten (s t : State) : Prop where
  c : t.x.c = s.x.c + 1
  tc : ∃ e, t.tc = s.tc.write (s.scanPos s.x.c.toNat).toNat e
  nunits : t.x.nunits = s.x.nunits
  maxeob : t.x.maxeob = s.x.maxeob

/-- `t` enters the next position, or the edge writer after the last one. -/
structure State.MovesOn (s t : State) : Prop extends s.EntryWritten t where
  ctx : t.x.ctx.toNat < Config.nCtx
  band : t.x.band.toNat < Config.nBands
  st : t.st = .edge ∨ (t.st = .select ∨ t.st = .zerot) ∧ t.x.c ≠ t.x.maxeob
  latched : t.Latched

/-- `t` is where BLOCK_SETUP leaves the decode (45_block_decode_and_host.md R193). -/
structure State.Begins (s t : State) : Prop where
  st : t.st = .select
  c : t.x.c = 0
  tc : t.tc = []
  nunits : t.x.nunits.toNat = unitsOf s.csr.tx
  maxeob : t.x.maxeob.toNat = maxEobOf s.csr.tx
  ctx : t.x.ctx.toNat < Config.nCtx
  band : t.x.band = s.x.band

/-- `t` is where the block decode has ended, completed or in a fatal error. -/
structure State.Ends (s t : State) : Prop where
  c : t.x.c = s.x.c
  st : (t.st = .done ∧ t.csr.count = s.x.c) ∨ (t.st = .fatal ∧ t.csr.fcode = 1 ∧ t.csr.fpos = s.x.c)

section
variable {s t : State} (hd : s.Decoding)

/-- The array lengths that P3 and P4 ask for are kept; P5 is asked at SETUP only. -/
theorem SameBlock.plane (hb : SameBlock s t) (hd : s.Decoding) (ht : t.st ≠ .setup) :
    ∃ p, planeOf t.csr.plane = some p ∧
      t.csr.posX + unitsOf t.csr.tx ≤ (t.mem.above.get p).len ∧
      t.csr.posY + unitsOf t.csr.tx ≤ (t.mem.left.get p).len ∧
      (t.st = .setup → (t.mem.above.get p).cells.Filled t.csr.posX (unitsOf t.csr.tx) ∧
        (t.mem.left.get p).cells.Filled t.csr.posY (unitsOf t.csr.tx)) := by
  obtain ⟨p, hp, ha, hl, -⟩ := hd.plane
  have h := hb.around
  rw [h.plane, h.posX, h.posY, h.tx]
  exact ⟨p, hp, hb.aboveLen p ▸ ha, hb.leftLen p ▸ hl, fun hs => absurd hs ht⟩

include hd

theorem State.MovesWithin.decoding (h : s.MovesWithin t) (hb : SameBlock s t) (hs : s.st ≠ .setup)
    (he : s.st ≠ .edge) : t.Decoding where
  inv := ⟨hb.memWf hd.inv.mem, h.tc ▸ hd.inv.tc, h.ctx ▸ hd.inv.ctx, h.band⟩
  up := hb.around.resetDone.trans hd.up
  busy := h.busy
  plane := hb.plane hd h.notSetup
  order := hb.around.scanOrder hd.order
  sizes _ := by
    rw [h.nunits, h.maxeob, hb.around.tx]
    exact hd.sizes hs
  position _ := by
    rw [h.c, h.maxeob]
    exact ⟨(hd.position hs).1, fun _ => (hd.position hs).2 he⟩
  cache _ := by
    simp only [h.c, h.tc, hb.around.scanPos]
    exact hd.cache hs
  latched := h.latched
  token := h.token

theorem State.MovesWithin.advances (h : s.MovesWithin t) (hb : SameBlock s t) (hin : s.inputs = [])
    (hs : s.st ≠ .setup) (he : s.st ≠ .edge) : s.Advances t := by
  refine ⟨hb.around.inputs.trans hin, ?_, fun _ => by rw [h.c]; omega, hb.filled,
    .inl (h.decoding hd hb hs he)⟩
  have hrank := h.rank
  rw [stepsLeft_of_busy hd.busy hs, stepsLeft_of_busy h.busy h.notSetup, h.c, h.maxeob]
  omega

theorem State.EntryWritten.c_toNat (h : s.EntryWritten t) (hs : s.st ≠ .setup) (he : s.st ≠ .edge) :
    t.x.c.toNat = s.x.c.toNat + 1 := by
  rw [h.c, hd.succ_c hs he]

theorem State.EntryWritten.maxeob_toNat (h : s.EntryWritten t) (hs : s.st ≠ .setup) :
    t.x.maxeob.toNat = maxEobOf s.csr.tx := by
  rw [h.maxeob, (hd.sizes hs).2]

/-- With the entry written the cache holds the class of every position up to C. -/
theorem State.EntryWritten.cache (h : s.EntryWritten t) (hs : s.st ≠ .setup) (he : s.st ≠ .edge) (i : Nat)
    (hi : i < t.x.c.toNat) : ∃ e, t.tc.read (s.scanPos i).toNat = some e := by
  obtain ⟨e, htc⟩ := h.tc
  rw [h.c_toNat hd hs he] at hi
  rw [htc, Cells.read_write]
  split
  · exact ⟨e, rfl⟩
  · rename_i hne
    have hic : i ≠ s.x.c.toNat := fun heq => hne (by rw [heq])
    exact hd.cache hs i (by omega)

/-- The neighbours of the position entered are decoded before it, so CTX_UPDATE finds their classes
(42_context_tracker.md R133). -/
theorem State.EntryWritten.ctxUpdate (h : s.EntryWritten t) (ha : SameSurroundings s t)
    (hs : s.st ≠ .setup) (he : s.st ≠ .edge) (hne : t.x.c ≠ t.x.maxeob) :
    ∃ ctx : BitVec 3, ctx.toNat < Config.nCtx ∧ ctxUpdate t = .next (t.setX { t.x with ctx := ctx }) := by
  have hc := h.c_toNat hd hs he
  have hm := h.maxeob_toNat hd hs
  have hlt := hd.c_lt hs he
  have hne' : t.x.c.toNat ≠ t.x.maxeob.toNat := fun heq => hne (BitVec.eq_of_toNat_eq heq)
  have entry : ∀ j, ∃ e, t.tc.read (t.nbPos t.x.c.toNat j).toNat = some e := by
    intro j
    obtain ⟨i, hi, hpos⟩ := hd.order.neighbours t.x.c.toNat j (by omega) (by omega)
    rw [ha.nbPos, hpos]
    exact h.cache hd hs he i hi
  obtain ⟨e0, h0⟩ := entry false
  obtain ⟨e1, h1⟩ := entry true
  exact ⟨_, ctxForAt_lt _ _ _, ctxUpdate_of_read h0 h1⟩

theorem State.MovesOn.decoding (h : s.MovesOn t) (hb : SameBlock s t) (hs : s.st ≠ .setup)
    (he : s.st ≠ .edge) : t.Decoding := by
  have hc := h.c_toNat hd hs he
  have hm := h.maxeob_toNat hd hs
  have hlt := hd.c_lt hs he
  have hst : t.st.busy = true ∧ t.st ≠ .setup ∧ t.st ≠ .catx := by
    obtain h | ⟨h | h, -⟩ := h.st <;> rw [h] <;> decide
  obtain ⟨hbusy, hsetup, hcatx⟩ := hst
  obtain ⟨e, htc⟩ := h.tc
  exact {
    inv := ⟨hb.memWf hd.inv.mem, htc ▸ Cells.wf_write _ _ _ _ hd.inv.tc (s.scanPos _).isLt, h.ctx, h.band⟩
    up := hb.around.resetDone.trans hd.up
    busy := hbusy
    plane := hb.plane hd hsetup
    order := hb.around.scanOrder hd.order
    sizes _ := by
      rw [h.nunits, h.maxeob, hb.around.tx]
      exact hd.sizes hs
    position _ := by
      refine ⟨by omega, fun hne => ?_⟩
      have hcm : t.x.c.toNat ≠ t.x.maxeob.toNat :=
        fun heq => (h.st.resolve_left hne).2 (BitVec.eq_of_toNat_eq heq)
      omega
    cache _ := by
      simp only [hb.around.scanPos]
      exact h.cache hd hs he
    latched := h.latched
    token := fun hx => absurd hx hcatx }

theorem State.MovesOn.advances (h : s.MovesOn t) (hb : SameBlock s t) (hin : s.inputs = [])
    (hs : s.st ≠ .setup) (he : s.st ≠ .edge) : s.Advances t := by
  have hdt := h.decoding hd hb hs he
  have hc := h.c_toNat hd hs he
  have hsetup : t.st ≠ .setup := by
    obtain h | ⟨h | h, -⟩ := h.st <;> rw [h] <;> decide
  refine ⟨hb.around.inputs.trans hin, ?_, fun _ => by omega, hb.filled, .inl hdt⟩
  have hrank := t.st.rank_le
  have hm := h.maxeob_toNat hd hs
  have hlt := hd.c_lt hs he
  rw [stepsLeft_of_busy hd.busy hs, stepsLeft_of_busy hdt.busy hsetup, ← h.maxeob]
  obtain he' | ⟨-, -⟩ := h.st
  · rw [he', show St.edge.rank = 0 from rfl]
    omega
  · omega

theorem State.Begins.decoding (h : s.Begins t) (hb : SameBlock s t) : t.Decoding := by
  have hsetup : t.st ≠ .setup := by rw [h.st]; decide
  have hc : t.x.c.toNat = 0 := by rw [h.c]; rfl
  have hm := maxEobOf_le s.csr.tx
  have hmax := h.maxeob
  exact {
    inv := ⟨hb.memWf hd.inv.mem, h.tc ▸ Cells.wf_nil _, h.ctx, h.band ▸ hd.inv.band⟩
    up := hb.around.resetDone.trans hd.up
    busy := by rw [h.st]; rfl
    plane := hb.plane hd hsetup
    order := hb.around.scanOrder hd.order
    sizes _ := by
      rw [hb.around.tx]
      exact ⟨h.nunits, h.maxeob⟩
    position _ := ⟨by omega, fun _ => by omega⟩
    cache _ i hi := by omega
    latched := by simp [h.st]
    token := by simp [h.st] }

theorem State.Begins.advances (h : s.Begins t) (hb : SameBlock s t) (hin : s.inputs = [])
    (hs : s.st = .setup) : s.Advances t := by
  refine ⟨hb.around.inputs.trans hin, ?_, fun hne => absurd hs hne, hb.filled, .inl (h.decoding hd hb)⟩
  have ht : t.stepsLeft = 8 * maxEobOf s.csr.tx + 8 := by
    simp [State.stepsLeft, h.st, h.c, h.maxeob, St.busy, St.rank]
  have hs' : s.stepsLeft = 8 * maxEobOf s.csr.tx + 9 := by simp [State.stepsLeft, hs, St.busy]
  omega

theorem State.Ends.advances (h : s.Ends t) (hb : SameBlock s t) (hin : s.inputs = [])
    (hs : s.st ≠ .setup) : s.Advances t := by
  refine ⟨hb.around.inputs.trans hin, ?_, fun _ => by rw [h.c]; omega, hb.filled, ?_⟩
  · have ht : t.stepsLeft = 0 := by
      obtain ⟨h, -⟩ | ⟨h, -⟩ := h.st <;> simp [State.stepsLeft, h, St.busy]
    rw [ht]
    exact stepsLeft_pos hd.busy
  · right
    refine h.st.imp_left fun ⟨hst, hcount⟩ => ⟨hst, hcount, ?_⟩
    rw [hcount, ← (hd.sizes hs).2]
    exact (hd.position hs).1

end

end Sys2Proof.Machine
end

section
/-! The operations of the eleven busy states, each as one of the moves; and O55. -/

namespace Sys2Proof.Machine

/-- The states agree on the position, its context and node probabilities, the cache, the sizes, and what the
lookups of band and probabilities read. -/
structure State.SamePosition (s t : State) : Prop where
  c : t.x.c = s.x.c
  ctx : t.x.ctx = s.x.ctx
  nunits : t.x.nunits = s.x.nunits
  maxeob : t.x.maxeob = s.x.maxeob
  tc : t.tc = s.tc
  band : t.x.band = s.x.band
  p : t.x.p = s.x.p
  blk0 : t.csr.blk0 = s.csr.blk0
  tab : t.tab = s.tab

/-! ## Moves within a position -/

theorem bandCtxSelect_moves {s : State} (hst : s.st = .select) :
    AnswersOrP8 s (exec .bandCtxSelect s) s.MovesWithin := by
  have hrank : St.eobt.rank < s.st.rank := by rw [hst]; decide
  exact .next ⟨rfl, rfl, rfl, rfl, rfl, bandAt_lt _ _ _, rfl, nofun, hrank, fun _ => ⟨rfl, rfl⟩, nofun⟩

section
variable {s t : State} (hd : s.Decoding)
include hd

/-- ST changes from `a` to a state `b` that stands later in the pass. In `b` node probabilities are read only
if they are in `a`. -/
theorem State.MovesWithin.of_samePosition {a : St} (b : St) (h : s.SamePosition t) (hs : s.st = a)
    (ht : t.st = b)
    (hab : b.busy = true ∧ b ≠ .setup ∧ b.rank < a.rank ∧ (b = .eobt ∨ b = .zerot ∨ b = .onet ∨ b = .htok →
      a = .eobt ∨ a = .zerot ∨ a = .onet ∨ a = .htok))
    (htoken : b = .catx → t.x.token.isCategory) : s.MovesWithin t := by
  subst hs ht
  obtain ⟨hbusy, hsetup, hrank, hread⟩ := hab
  have hlatched : t.Latched := by
    intro hst
    obtain ⟨hband, hp⟩ := hd.latched (hread hst)
    simp only [State.bandHere, State.probsHere, Csrs.tx, Csrs.ptype, Csrs.ref, h.c, h.ctx, h.band, h.p,
      h.blk0, h.tab]
    exact ⟨hband, hp⟩
  exact ⟨h.c, h.ctx, h.nunits, h.maxeob, h.tc, h.band ▸ hd.inv.band, hbusy, hsetup, hrank, hlatched, htoken⟩

theorem eobTest_moves (hst : s.st = .eobt) : AnswersOrP8 s (exec .eobTest s) s.MovesWithin := by
  refine (incEobbr_answersOrP8 hd.inv.ctx hd.inv.band).andThen ?_
  rintro _ ⟨m, rfl, hb⟩
  dsimp only
  split
  · have hinc := incCnt_answersOrP8 (s := (boolRead s.x.p.eob (s.setMem m)).2) hd.inv.ctx hd.inv.band .eob
    refine (hinc.andThen ?_).of_sameBlock (hb.setBd _)
    rintro _ ⟨m', rfl, -⟩
    exact .next (.of_samePosition hd .edge (by constructor <;> rfl) hst rfl (by decide) nofun)
  · exact .next (.of_samePosition hd .zerot (by constructor <;> rfl) hst rfl (by decide) nofun)

theorem zeroTest_moves (hst : s.st = .zerot) : AnswersOrP8 s (exec .zeroTest s) s.MovesWithin := by
  simp only [exec, execZeroTest]
  split
  · exact .next (.of_samePosition hd .zadv (by constructor <;> rfl) hst rfl (by decide) nofun)
  · exact .next (.of_samePosition hd .onet (by constructor <;> rfl) hst rfl (by decide) nofun)

theorem oneTest_moves (hst : s.st = .onet) : AnswersOrP8 s (exec .oneTest s) s.MovesWithin := by
  have hb : SameBlock s (boolRead s.x.p.one s).2 := (SameBlock.refl s).setBd _
  have hctx : (boolRead s.x.p.one s).2.x.ctx.toNat < Config.nCtx := hd.inv.ctx
  have hband : (boolRead s.x.p.one s).2.x.band.toNat < Config.nBands := hd.inv.band
  simp only [exec, execOneTest]
  split
  · refine ((incCnt_answersOrP8 hctx hband .one).andThen ?_).of_sameBlock hb
    rintro _ ⟨m, rfl, -⟩
    exact .next (.of_samePosition hd .dqs (by constructor <;> rfl) hst rfl (by decide) nofun)
  · refine ((incCnt_answersOrP8 hctx hband .more).andThen ?_).of_sameBlock hb
    rintro _ ⟨m, rfl, -⟩
    exact .next (.of_samePosition hd .htok (by constructor <;> rfl) hst rfl (by decide) nofun)

theorem higherToken_moves (hst : s.st = .htok) : AnswersOrP8 s (exec .higherToken s) s.MovesWithin := by
  simp only [exec, execHigherToken]
  generalize runTree s.par (s.par.higherTokenAt s.x.p.pivot) s.bd = r
  cases r.1
  case two | three | four =>
    exact .next (.of_samePosition hd .dqs (by constructor <;> rfl) hst rfl (by decide) nofun)
  all_goals
    exact .next (.of_samePosition hd .catx (by constructor <;> rfl) hst rfl (by decide)
      fun _ => by simp [HigherTok.token, Token.isCategory])

theorem readCategory_moves (hst : s.st = .catx) (k : Nat) (pv : List Prob) :
    s.MovesWithin (readCategory k pv s) :=
  .of_samePosition hd .dqs (by constructor <;> rfl) hst rfl (by decide) nofun

theorem dequantSign_moves (hst : s.st = .dqs) : AnswersOrP8 s (exec .dequantSign s) s.MovesWithin := by
  simp only [exec, execDequantSign]
  split
  all_goals
    exact .next (.of_samePosition hd .wrc (by constructor <;> rfl) hst rfl (by decide) nofun)

/-- The category token that TOKEN holds either loads its value or, CATEGORY6 without a width, raises the
fatal error. -/
theorem category_moves (hst : s.st = .catx) :
    AnswersOrP8 s (exec s.x.token.instr s) fun t => s.MovesWithin t ∨ s.Ends t := by
  have hread := fun k pv => Or.inl (b := s.Ends (readCategory k pv s)) (readCategory_moves hd hst k pv)
  obtain h | h | h | h | h | h := hd.token hst <;> rw [h]
  case inr.inr.inr.inr.inr =>
    simp only [Token.instr, exec, execCat6]
    split
    · exact .next (.inr ⟨rfl, .inr ⟨rfl, rfl, rfl⟩⟩)
    · exact .next (hread _ _)
  all_goals exact .next (hread _ _)

/-! ## Moves to the next position -/

theorem zeroAdvance_moves (hst : s.st = .zadv) : AnswersOrP8 s (exec .zeroAdvance s) s.MovesOn := by
  have hs : s.st ≠ .setup := by rw [hst]; decide
  have he : s.st ≠ .edge := by rw [hst]; decide
  refine (incCnt_answersOrP8 hd.inv.ctx hd.inv.band .zero).andThen ?_
  rintro u ⟨m, rfl, hb⟩
  have hz : s.EntryWritten (zeroWritten (s.setMem m)) := ⟨rfl, ⟨0, rfl⟩, rfl, rfl⟩
  have hbz : SameBlock s (zeroWritten (s.setMem m)) := (((hb.setX _).setX _).setTc _).setX _
  dsimp only
  split
  · exact .next ⟨⟨hz.c, hz.tc, hz.nunits, hz.maxeob⟩, hd.inv.ctx, hd.inv.band, .inl rfl, nofun⟩
  · rename_i hne
    obtain ⟨ctx, hctx, hupd⟩ := hz.ctxUpdate hd hbz.around hs he hne
    rw [hupd]
    simp only [andThen_next]
    have hband : (zeroWritten (s.setMem m)).bandHere.toNat < Config.nBands := bandAt_lt _ _ _
    split
    · refine .andThen ((incEobbr_answersOrP8 hctx hband).of_sameBlock (hbz.setX _).latchProbs) ?_
      rintro _ ⟨m', rfl, -⟩
      exact .next ⟨⟨hz.c, hz.tc, hz.nunits, hz.maxeob⟩, hctx, hband, .inr ⟨.inr rfl, hne⟩,
        fun _ => ⟨rfl, rfl⟩⟩
    · exact .next ⟨⟨hz.c, hz.tc, hz.nunits, hz.maxeob⟩, hctx, hband, .inr ⟨.inr rfl, hne⟩,
        fun _ => ⟨rfl, rfl⟩⟩

/-- Past the last position WRITE_CACHE leaves CTX alone; the test `C < MAXEOB` of R170 tells that too. -/
theorem writeCache_moves (hst : s.st = .wrc) : AnswersOrP8 s (exec .writeCache s) s.MovesOn := by
  have hs : s.st ≠ .setup := by rw [hst]; decide
  have he : s.st ≠ .edge := by rw [hst]; decide
  obtain ⟨p, hp, -⟩ := hd.plane
  simp only [exec, execWriteCache]
  rw [writeCoef_of_plane (s := setPos s) hp, andThen_next]
  generalize hu : advanceC _ = u
  have hw : s.EntryWritten u := by
    subst hu
    exact ⟨rfl, ⟨_, rfl⟩, rfl, rfl⟩
  have ha : SameSurroundings s u := by
    subst hu
    constructor <;> rfl
  have hctx : u.x.ctx.toNat < Config.nCtx := by
    subst hu
    exact hd.inv.ctx
  have hband : u.x.band.toNat < Config.nBands := by
    subst hu
    exact hd.inv.band
  by_cases hne : u.x.c = u.x.maxeob
  · rw [if_neg (by rw [hne]; omega)]
    simp only [andThen_next]
    refine .next ⟨⟨hw.c, hw.tc, hw.nunits, hw.maxeob⟩, hctx, hband, .inl ?_, ?_⟩
    · simp [hne]
    · simp [State.Latched, hne]
  · have hc := hw.c_toNat hd hs he
    have hm := hw.maxeob_toNat hd hs
    have hlt := hd.c_lt hs he
    have hne' : u.x.c.toNat ≠ u.x.maxeob.toNat := fun heq => hne (BitVec.eq_of_toNat_eq heq)
    obtain ⟨ctx, hctx', hupd⟩ := hw.ctxUpdate hd ha hs he hne
    rw [if_pos (by omega), hupd]
    simp only [andThen_next]
    refine .next ⟨⟨hw.c, hw.tc, hw.nunits, hw.maxeob⟩, hctx', hband, .inr ⟨.inl ?_, hne⟩, ?_⟩
    · simp [hne]
    · simp [State.Latched, hne]

/-! ## The two ends -/

theorem blockSetup_begins (hst : s.st = .setup) : AnswersOrP8 s (exec .blockSetup s) s.Begins := by
  obtain ⟨p, hp, -, -, hfilled⟩ := hd.plane
  obtain ⟨hfa, hfl⟩ := hfilled hst
  obtain ⟨a, ha, -⟩ := Cells.readSlice_eq_some _ _ _ hfa
  obtain ⟨l, hl, -⟩ := Cells.readSlice_eq_some _ _ _ hfl
  have hun := unitsOf_le s.csr.tx
  have hme := maxEobOf_le s.csr.tx
  have hnu : (BitVec.ofNat 4 (unitsOf s.csr.tx)).toNat = unitsOf s.csr.tx := by
    rw [BitVec.toNat_ofNat]
    omega
  have hmax : (BitVec.ofNat 11 (maxEobOf s.csr.tx)).toNat = maxEobOf s.csr.tx := by
    rw [BitVec.toNat_ofNat]
    omega
  simp only [exec, execBlockSetup]
  generalize hu : State.setTc _ _ = u
  have hinit := initCtx_of_slices (s := u) (p := p) (a := a) (l := l) (by rw [← hu]; exact hp)
    (by rw [← hu, ← ha]; exact congrArg _ hnu) (by rw [← hu, ← hl]; exact congrArg _ hnu)
  subst hu
  rw [hinit, andThen_next]
  exact .next ⟨rfl, rfl, rfl, hnu, hmax, initCtxAt_lt _ _ _ _, rfl⟩

theorem edgeWrite_ends (hst : s.st = .edge) : AnswersOrP8 s (exec .edgeWrite s) s.Ends := by
  have hs : s.st ≠ .setup := by rw [hst]; decide
  obtain ⟨p, hp, ha, hl, -⟩ := hd.plane
  have hnu := (hd.sizes hs).1
  simp only [exec, execEdgeWrite]
  rw [edgeWrite_of_room hp (by rw [hnu]; exact ha) (by rw [hnu]; exact hl), andThen_next]
  exact .next ⟨rfl, .inl ⟨rfl, rfl⟩⟩

/-! ## Every step -/

/-- A step of a block decode advances it, or is refused at a counter without a value. -/
theorem step_advances (hin : s.inputs = []) : AnswersOrP8 s (step s) s.Advances := by
  have run : ∀ {i : Instr} {P : State → Prop}, sequencerInstr s.st s.x.token = some i →
      isHostCommand i = false → AnswersOrP8 s (exec i s) P →
      (∀ t, P t → SameBlock s t → s.Advances t) → AnswersOrP8 s (step s) s.Advances := by
    intro i P hi hc h hadv
    rw [step_eq_exec hd.up hin hd.busy hi]
    exact h.mono_of_ensures (exec_sameBlock hc s) hadv
  have hbusy := hd.busy
  cases hst : s.st <;> rw [hst] at run hbusy
  case idle | done | fatal => cases hbusy
  case setup => exact run rfl rfl (blockSetup_begins hd hst) fun t h hb => h.advances hd hb hin hst
  all_goals have hs : s.st ≠ .setup := by simp [hst]
  case edge => exact run rfl rfl (edgeWrite_ends hd hst) fun t h hb => h.advances hd hb hin hs
  all_goals have he : s.st ≠ .edge := by simp [hst]
  case wrc => exact run rfl rfl (writeCache_moves hd hst) fun t h hb => h.advances hd hb hin hs he
  case zadv => exact run rfl rfl (zeroAdvance_moves hd hst) fun t h hb => h.advances hd hb hin hs he
  all_goals have within := fun t (h : s.MovesWithin t) hb => h.advances hd hb hin hs he
  case catx =>
    refine run (sequencerInstr_catx (hd.token hst)) (isHostCommand_tokenInstr _) (category_moves hd hst) ?_
    exact fun t h hb => h.elim (fun hw => within t hw hb) (fun hend => hend.advances hd hb hin hs)
  case select => exact run rfl rfl (bandCtxSelect_moves hst) within
  case eobt => exact run rfl rfl (eobTest_moves hd hst) within
  case zerot => exact run rfl rfl (zeroTest_moves hd hst) within
  case onet => exact run rfl rfl (oneTest_moves hd hst) within
  case htok => exact run rfl rfl (higherToken_moves hd hst) within
  case dqs => exact run rfl rfl (dequantSign_moves hd hst) within

end

/-- Settles O55: `step_advances`, whose two outcomes are the statement's. -/
theorem decodingStepsCompleteAndKeepTheInvariant :
    Obligations.DecodingStepsCompleteAndKeepTheInvariant := by
  unfold Obligations.DecodingStepsCompleteAndKeepTheInvariant
  exact fun _ hd hin => step_advances hd hin

end Sys2Proof.Machine
end

section
/-! What no step changes: the open parameters and collaborators, and the tables but for the host's load; O48. -/

namespace Sys2Proof.Machine

/-- The parameters, the collaborators and the tables are as before. -/
def SamePlatform (s t : State) : Prop := t.par = s.par ∧ t.tab = s.tab

theorem resetOp_samePlatform (s : State) : SamePlatform s (resetOp s) := by
  obtain ⟨-, -, htab, hpar, -⟩ := resetOp_frame s
  exact ⟨hpar, htab⟩

theorem startOp_samePlatform (s : State) : Ensures (startOp s) (SamePlatform s) := by
  intro t h
  obtain ⟨-, -, rfl⟩ | ⟨-, -, rfl⟩ := startOp_cases h <;> exact ⟨rfl, rfl⟩

theorem execCsrrd_samePlatform (r : CsrReg) (s : State) : Ensures (execCsrrd r s) (SamePlatform s) := by
  cases r
  case status => exact .next ⟨rfl, rfl⟩
  all_goals exact .ite (.refused _) (.next ⟨rfl, rfl⟩)

theorem execCsrwr_samePlatform (r : CsrReg) (v : Word) (s : State) :
    Ensures (execCsrwr r v s) (SamePlatform s) := by
  cases r
  case ctrl =>
    unfold execCsrwr
    dsimp only
    split
    · exact startOp_samePlatform s
    · exact .next (resetOp_samePlatform s)
    · exact .ite (.refused _) (.next ⟨rfl, rfl⟩)
  case status | count | finfo => exact .next ⟨rfl, rfl⟩
  all_goals exact .ite (.refused _) (.next ⟨rfl, rfl⟩)

/-- No instruction changes a parameter or a table. -/
theorem exec_samePlatform (i : Instr) (s : State) : Ensures (exec i s) (SamePlatform s) := by
  cases hi : isHostCommand i
  case false => exact (exec_sameBlock hi s).mono fun _ h => ⟨h.around.par, h.around.tab⟩
  case true =>
    cases i
    case start => exact startOp_samePlatform s
    case srst b => exact .next (resetOp_samePlatform s)
    case csrrd r => exact execCsrrd_samePlatform r s
    case csrwr r v => exact execCsrwr_samePlatform r v s
    all_goals cases hi

/-! ## What a step does -/

/-- If what a step does answers a next state, that state satisfies `P`. -/
def Work.Ensures (w : Work) (P : State → Prop) : Prop :=
  match w with
  | .run i s => Machine.Ensures (exec i s) P
  | .settle r => Machine.Ensures r P

theorem step_ensures {s : State} {P : State → Prop} (h : (fetch s).Ensures P) : Ensures (step s) P := by
  unfold step
  split <;> rename_i hf <;> rw [hf] at h <;> exact h

section
variable {P : State → Prop}

/-- Every action but `rst` is refused before the first reset (70_reset_and_hazards.md R243). -/
theorem Work.Ensures.afterReset {up : Bool} {w : Work} (h : w.Ensures P) :
    (if up then w else .settle (.refused .beforeReset)).Ensures P := by
  split
  · exact h
  · exact Machine.Ensures.refused _

theorem hostAction_ensures {s : State} {r : Result} (h : Ensures r P) : (hostAction s r).Ensures P := by
  unfold hostAction
  split
  · exact Ensures.refused _
  · exact h

theorem hostElement_ensures {s : State} {sp : Store} {i : Nat} {r : Result} (h : Ensures r P) :
    (hostElement s sp i r).Ensures P :=
  hostAction_ensures (.ite h (.refused _))

end

theorem fetchOp_samePlatform (s : State) : (fetchOp s).Ensures (SamePlatform s) := by
  unfold fetchOp
  split
  · exact Ensures.refused _
  · split
    case h_1 | h_2 => exact Ensures.next ⟨rfl, rfl⟩
    case h_3 => exact Ensures.fault _
    all_goals
      split
      · exact exec_samePlatform _ _
      · exact Ensures.refused _

theorem fetchBus_samePlatform (wr : Bool) (size off : Nat) (data : Word) (s : State) :
    (fetchBus wr size off data s).Ensures (SamePlatform s) := by
  unfold fetchBus
  split
  · exact exec_samePlatform _ _
  · exact Ensures.refused _

/-- Of the outside world's actions the host's load of tables alone changes the tables. -/
theorem fetchInput_samePlatform {inp : Input} (hinp : ∀ tab, inp ≠ .loadTables tab) (s : State) :
    (fetchInput inp s).Ensures (SamePlatform s) := by
  cases inp with
  | tick => exact fetchOp_samePlatform s
  | rst => exact Ensures.next (resetOp_samePlatform s)
  | bus wr size off data => exact (fetchBus_samePlatform wr size off data s).afterReset
  | busLanes off b0 b1 b2 b3 => exact (fetchBus_samePlatform true 4 off _ s).afterReset
  | busLanesRead off => exact (fetchBus_samePlatform false 4 off 0 s).afterReset
  | storeWrite sp i v => exact (hostElement_ensures (.next ⟨rfl, rfl⟩)).afterReset
  | storeRead sp i => exact (hostElement_ensures (.next ⟨rfl, rfl⟩)).afterReset
  | storeFill sp v => exact (hostAction_ensures (.next ⟨rfl, rfl⟩)).afterReset
  | supplyArray side p len => exact (hostAction_ensures (.next ⟨rfl, rfl⟩)).afterReset
  | loadTables tab => exact absurd rfl (hinp tab)
  | positionStream bd => exact (hostAction_ensures (.next ⟨rfl, rfl⟩)).afterReset
  | opWord nbits w =>
    refine Work.Ensures.afterReset ?_
    split
    · exact exec_samePlatform _ _
    · exact Ensures.refused _

theorem fetchInput_loadTables_par (tab : Tables) (s : State) :
    (fetchInput (.loadTables tab) s).Ensures fun t => t.par = s.par :=
  (hostAction_ensures (P := fun t => t.par = s.par) (.next (t := s.setTab tab) rfl)).afterReset

theorem step_samePlatform {s : State} (h : ∀ tab rest, s.inputs ≠ .loadTables tab :: rest) :
    Ensures (step s) (SamePlatform s) := by
  refine step_ensures ?_
  unfold fetch
  split
  · exact fetchOp_samePlatform s
  · rename_i inp rest hin
    exact fetchInput_samePlatform (fun tab heq => h tab rest (heq ▸ hin)) (s.setInputs rest)

theorem step_par (s : State) : Ensures (step s) fun t => t.par = s.par := by
  by_cases h : ∃ tab rest, s.inputs = .loadTables tab :: rest
  · obtain ⟨tab, rest, hin⟩ := h
    refine step_ensures ?_
    rw [fetch, hin]
    exact fetchInput_loadTables_par tab (s.setInputs rest)
  · exact (step_samePlatform fun tab rest hin => h ⟨tab, rest, hin⟩).mono fun _ => And.left

/-- Settles O48: `step_par`, and `step_samePlatform` for every step but the host's load. -/
theorem tablesAreNeverMutatedByTheDecoder : Obligations.TablesAreNeverMutatedByTheDecoder := by
  unfold Obligations.TablesAreNeverMutatedByTheDecoder
  exact fun s t h => ⟨step_par s t h, fun hload => (step_samePlatform hload t h).2⟩

end Sys2Proof.Machine
end

section
/-! What a step fetches, by the source of its work: the sequencer's operation, a CSR access, an operation word;
and the tier 1 statements about it, O8, O9, O10 and O12. -/

namespace Sys2Proof.Machine

section
variable {s t : State} {i : Instr}

theorem step_of_run (h : fetch s = .run i t) : step s = exec i t := by rw [step, h]

theorem step_of_settle {r : Result} (h : fetch s = .settle r) : step s = r := by rw [step, h]

theorem fetch_nil (h : s.inputs = []) : fetch s = fetchOp s := by rw [fetch, h]

theorem fetch_cons {inp : Input} {rest : List Input} (h : s.inputs = inp :: rest) :
    fetch s = fetchInput inp (s.setInputs rest) := by rw [fetch, h]

/-! ## The sequencer's operation -/

theorem sequencerInstr_of_decode {st : St} {tok : Token} (hst : st ≠ .catx) (h : decode (.op st.code) = .ok i) :
    sequencerInstr st tok = some i := by
  unfold sequencerInstr
  split
  · exact absurd rfl hst
  · rw [h]

theorem fetchOp_of_busy (hup : s.resetDone = true) (hb : s.st.busy = true)
    (hi : sequencerInstr s.st s.x.token = some i) : fetchOp s = .run i s := by
  rw [fetchOp, hup, hi]
  cases hst : s.st <;> rw [hst] at hb
  case idle | done | fatal => cases hb
  all_goals rfl

theorem fetchOp_of_rest (hup : s.resetDone = true) (hst : s.st = .idle ∨ s.st = .done) :
    fetchOp s = .settle (.next s) := by
  rw [fetchOp, hup]
  obtain h | h := hst <;> rw [h] <;> rfl

theorem fetchOp_of_fatal (hup : s.resetDone = true) (hst : s.st = .fatal) :
    fetchOp s = .settle (.fault (.fatalStop s.csr.fcode s.csr.fpos)) := by
  rw [fetchOp, hup, hst]
  rfl

/-! ## CSR accesses and operation words -/

theorem fetchBus_of_decode {wr : Bool} {size off : Nat} {data : Word}
    (h : decode (.bus wr size off data) = .ok i) : fetchBus wr size off data s = .run i s := by
  rw [fetchBus, h]

/-- An input that is made as an access of the CSR block runs what the access decodes to. -/
theorem step_of_access {inp : Input} {rest : List Input} {wr : Bool} {size off : Nat} {data : Word}
    (hup : s.resetDone = true) (hin : s.inputs = inp :: rest)
    (hbus : fetchInput inp (s.setInputs rest) = if s.resetDone then fetchBus wr size off data (s.setInputs rest)
      else .settle (.refused .beforeReset))
    (h : decode (.bus wr size off data) = .ok i) : step s = exec i (s.setInputs rest) := by
  refine step_of_run ?_
  rw [fetch_cons hin, hbus, if_pos hup, fetchBus_of_decode h]

theorem decode_of_decodeTableWord {nbits w : Nat} (h : decodeTableWord nbits w = some i) :
    ∃ f, tableSlot nbits w = some f ∧ decode f = .ok i := by
  unfold decodeTableWord at h
  split at h
  · cases h
  · rename_i f hf
    split at h
    · rename_i j hj
      split at h
      · cases h
      · cases h
        exact ⟨f, hf, hj⟩
    · cases h

theorem tableSlot_command (w : Nat) : tableSlot 32 w = some (.bus true 4 0 (BitVec.ofNat 32 w)) := rfl

/-- A placed word is fetched as the instruction of its row: a command word through CTRL, any other one
through the test bench's port. -/
theorem fetch_withFetchWord {nbits w : Nat} (hup : s.resetDone = true) (h : decodeTableWord nbits w = some i) :
    fetch (s.withFetchWord nbits w) = .run i s := by
  unfold State.withFetchWord placeWord
  split
  · rename_i hn
    subst hn
    obtain ⟨f, hf, hdec⟩ := decode_of_decodeTableWord h
    rw [tableSlot_command] at hf
    cases hf
    rw [fetch_cons rfl]
    exact (if_pos hup).trans (fetchBus_of_decode hdec)
  · rw [fetch_cons rfl]
    refine (if_pos hup).trans ?_
    rw [h]
    rfl

end

/-- Settles O8: the decoder's answer is evaluated for each of the sixteen codes. -/
theorem stateCodesWithoutOperation : Obligations.StateCodesWithoutOperation := by
  unfold Obligations.StateCodesWithoutOperation
  have codes : ∀ c : BitVec 4, (decode (.op c)).isOk = false ↔ (c = 0 ∨ c = 12 ∨ c = 13 ∨ c = 14 ∨ c = 15) := by
    decide
  intro c
  rw [← codes]
  cases decode (.op c) <;> simp [Except.isOk, Except.toBool]

/-- Settles O9: the sequencer's instruction is the one that ST's code decodes to, or TOKEN's in CATX. -/
theorem stepRunsTheOperationOfST : Obligations.StepRunsTheOperationOfST := by
  unfold Obligations.StepRunsTheOperationOfST
  intro s i hup hb hi
  have hseq : sequencerInstr s.st s.x.token = some i := by
    split at hi
    · rename_i hst
      obtain ⟨htok, rfl⟩ := hi
      rw [hst]
      exact sequencerInstr_catx htok
    · rename_i hst
      exact sequencerInstr_of_decode hst hi
  refine ⟨fun hin => step_eq_exec hup hin hb hseq, fun rest hin => step_of_run ?_⟩
  rw [fetch_cons hin]
  exact fetchOp_of_busy (s := s.setInputs rest) hup hb hseq

/-- Settles O10: `step_of_access` for the three forms of a CSR access, `fetch_withFetchWord` for a word. -/
theorem stepRunsTheDecodedAccess : Obligations.StepRunsTheDecodedAccess := by
  unfold Obligations.StepRunsTheDecodedAccess
  intro s i hup
  refine ⟨fun wr size off data rest hin => step_of_access hup hin rfl, ?_,
    fun off rest hin => step_of_access hup hin rfl, fun nbits w hw => step_of_run (fetch_withFetchWord hup hw)⟩
  intro off b0 b1 b2 b3 rest hin hle hdec
  have hword : s.par.csrByteOrder.word b0 b1 b2 b3 = b3 ++ b2 ++ b1 ++ b0 := by rw [hle]; rfl
  exact step_of_access hup hin rfl (hword ▸ hdec)

/-- Settles O12: in these three states the sequencer runs no instruction. -/
theorem sequencerRestsOutsideADecode : Obligations.SequencerRestsOutsideADecode := by
  unfold Obligations.SequencerRestsOutsideADecode
  intro s hup hin
  exact ⟨fun hst => step_of_settle ((fetch_nil hin).trans (fetchOp_of_rest hup hst)),
    fun hst => step_of_settle ((fetch_nil hin).trans (fetchOp_of_fatal hup hst))⟩

end Sys2Proof.Machine
end

section
/-! Every step keeps the invariant (10_state.md R22; 42_context_tracker.md R134): the rules for the updates of
the state, the shared operations, the instructions, what the outside world does; and O53. -/

namespace Sys2Proof.Machine

/-! ## The updates -/

namespace State.Inv

variable {s : State} (h : s.Inv)
include h

theorem setSt (v : St) : (s.setSt v).Inv := ⟨h.mem, h.tc, h.ctx, h.band⟩

theorem setClamped (v : Bool) : (s.setClamped v).Inv := ⟨h.mem, h.tc, h.ctx, h.band⟩

theorem setCsr (v : Csrs) : (s.setCsr v).Inv := ⟨h.mem, h.tc, h.ctx, h.band⟩

theorem setBd (v : Nat) : (s.setBd v).Inv := ⟨h.mem, h.tc, h.ctx, h.band⟩

theorem setTab (v : Tables) : (s.setTab v).Inv := ⟨h.mem, h.tc, h.ctx, h.band⟩

theorem setRdata (v : Word) : (s.setRdata v).Inv := ⟨h.mem, h.tc, h.ctx, h.band⟩

theorem setElem (v : Option Int) : (s.setElem v).Inv := ⟨h.mem, h.tc, h.ctx, h.band⟩

theorem setInputs (v : List Input) : (s.setInputs v).Inv := ⟨h.mem, h.tc, h.ctx, h.band⟩

theorem setMem {m : Memory} (hm : m.wf = true) : (s.setMem m).Inv := ⟨hm, h.tc, h.ctx, h.band⟩

theorem setTc {tc : Cells (BitVec 3)} (htc : tc.wf Config.coefSlots = true) : (s.setTc tc).Inv :=
  ⟨h.mem, htc, h.ctx, h.band⟩

theorem setX {x : Regs} (hctx : x.ctx.toNat < Config.nCtx) (hband : x.band.toNat < Config.nBands) :
    (s.setX x).Inv :=
  ⟨h.mem, h.tc, hctx, hband⟩

/-- A write of any registers but CTX and BAND. -/
theorem setX_same (x : Regs) (hctx : x.ctx = s.x.ctx := by rfl) (hband : x.band = s.x.band := by rfl) :
    (s.setX x).Inv :=
  h.setX (hctx ▸ h.ctx) (hband ▸ h.band)

/-! ## The shared operations -/

theorem incCnt (k : CntKind) : Ensures (incCnt k s) State.Inv := by
  intro t ht
  have hwf := incCnt_wf ht h.mem
  obtain ⟨⟨m, rfl⟩, -⟩ := incCnt_counted ht
  exact h.setMem hwf

theorem incEobbr : Ensures (incEobbr s) State.Inv := by
  intro t ht
  have hwf := incEobbr_wf ht h.mem
  obtain ⟨⟨m, rfl⟩, -⟩ := incEobbr_counted ht
  exact h.setMem hwf

theorem writeCoef : Ensures (writeCoef s) State.Inv := by
  intro t ht
  have hwf := writeCoef_wf ht h.mem
  obtain ⟨p, -, rfl⟩ := writeCoef_cases ht
  exact h.setMem hwf

theorem edgeWrite : Ensures (edgeWrite s) State.Inv := by
  intro t ht
  have hwf := edgeWrite_wf ht h.mem
  obtain ⟨p, -, -, -, rfl⟩ := edgeWrite_cases ht
  exact (h.setX_same _).setMem hwf

theorem initCtx : Ensures (initCtx s) State.Inv := by
  intro t ht
  obtain ⟨p, a, l, -, -, -, rfl⟩ := initCtx_cases ht
  exact h.setX (initCtxAt_lt _ _ _ _) h.band

theorem ctxUpdate : Ensures (ctxUpdate s) State.Inv := by
  intro t ht
  obtain ⟨e0, e1, -, -, rfl⟩ := ctxUpdate_cases ht
  exact h.setX (ctxForAt_lt _ _ _) h.band

theorem latchProbs : (latchProbs s).Inv := h.setX h.ctx (bandAt_lt _ _ _)

theorem setPos : (setPos s).Inv := h.setX_same _

theorem advanceC : (advanceC s).Inv := h.setX_same _

/-- POS has ten bits, so it names a slot of the token cache. -/
theorem writeTc (e : BitVec 3) : (writeTc e s).Inv := h.setTc (Cells.wf_write _ _ _ _ h.tc s.x.pos.isLt)

theorem rangeClamp : (rangeClamp s).Inv := (h.setClamped _).setX_same _

theorem setVal (v : BitVec 19) : (setVal v s).Inv := (h.setX_same _).setSt _

theorem readCat (pv : List Prob) : (readCat pv s).Inv := (h.setX_same _).setBd _

theorem readCategory (k : Nat) (pv : List Prob) : (readCategory k pv s).Inv := (h.readCat pv).setVal _

theorem blockFinish : (blockFinish s).Inv := (h.setCsr _).setSt _

theorem raiseFatal (code : BitVec 4) : (raiseFatal code s).Inv := (h.setCsr _).setSt _

theorem resetOp : (resetOp s).Inv := by
  obtain ⟨hx, htc, -⟩ := resetOp_frame s
  exact ⟨resetOp_wf s h.mem, htc ▸ h.tc, hx ▸ h.ctx, hx ▸ h.band⟩

theorem startOp : Ensures (startOp s) State.Inv := by
  intro t ht
  obtain ⟨-, -, rfl⟩ | ⟨-, -, rfl⟩ := startOp_cases ht
  · exact (h.setClamped _).setSt _
  · exact h

theorem zeroEffect : Ensures (zeroEffect s) State.Inv := by
  intro t ht
  obtain ⟨u, hu, hcases⟩ := zeroEffect_cases ht
  have hz : (zeroWritten u).Inv := (((h.incCnt _ u hu).setX_same _).setPos.writeTc 0).advanceC
  obtain ⟨-, rfl⟩ | ⟨-, v, hv, hpol⟩ := hcases
  · exact hz.setSt _
  · have hl := (hz.ctxUpdate v hv).latchProbs
    obtain ⟨-, rfl⟩ | ⟨-, w, hw, rfl⟩ := hpol
    · exact hl.setSt _
    · exact (hl.incEobbr w hw).setSt _

/-! ## The instructions -/

theorem execEob : Ensures (execEob s) State.Inv := (h.incCnt .eob).andThen fun _ hu => .next (hu.setSt _)

theorem execOne : Ensures (execOne s) State.Inv :=
  (h.incCnt .one).andThen fun _ hu => .next ((hu.setX_same _).setVal 1)

theorem execCat6 : Ensures (execCat6 s) State.Inv := by
  unfold Machine.execCat6
  split
  · exact .next (h.raiseFatal _)
  · exact .next (h.readCategory _ _)

theorem execBlockSetup : Ensures (execBlockSetup s) State.Inv :=
  have hs := ((h.setX_same _).setClamped false).setTc (Cells.wf_nil _)
  hs.initCtx.andThen fun _ hu => .next (hu.setSt _)

theorem execEobTest : Ensures (execEobTest s) State.Inv :=
  h.incEobbr.andThen fun _ hu => .ite (hu.setBd _).execEob (.next ((hu.setBd _).setSt _))

theorem execZeroTest : Ensures (execZeroTest s) State.Inv :=
  .ite (.next ((h.setBd _).setSt _)) (.next ((h.setBd _).setSt _))

theorem execOneTest : Ensures (execOneTest s) State.Inv :=
  .ite (h.setBd _).execOne (((h.setBd _).incCnt .more).andThen fun _ hu => .next (hu.setSt _))

theorem execHigherToken : Ensures (execHigherToken s) State.Inv := by
  unfold Machine.execHigherToken
  dsimp only
  generalize runTree s.par (s.par.higherTokenAt s.x.p.pivot) s.bd = r
  have hr : ∀ tok, ((s.setBd r.2).setX { s.x with token := tok }).Inv := fun _ => (h.setBd r.2).setX_same _
  cases r.1
  case two | three | four => exact .next ((hr _).setVal _)
  all_goals exact .next ((hr _).setSt _)

theorem execDequantSign : Ensures (execDequantSign s) State.Inv := by
  have hr : ∀ v c, ((s.setBd (s.par.boolDecAt s.bd probHalf).2).setX { s.x with v := v, coefv := c }).Inv :=
    fun _ _ => (h.setBd _).setX_same _
  unfold Machine.execDequantSign
  refine .next (State.Inv.setSt ?_ _)
  split
  · exact (hr _ _).rangeClamp
  · exact hr _ _

theorem execWriteCache : Ensures (execWriteCache s) State.Inv :=
  h.setPos.writeCoef.andThen fun u hu =>
    have hw := (hu.writeTc (u.par.energyClassAt u.x.token)).advanceC
    Ensures.andThen (.ite hw.ctxUpdate (.next hw)) fun _ hv => .next ((hv.setX_same _).setSt _)

theorem execCsrrd (r : CsrReg) : Ensures (execCsrrd r s) State.Inv := by
  cases r
  case status => exact .next (h.setRdata _)
  all_goals exact .ite (.refused _) (.next (h.setRdata _))

theorem execCsrwr (r : CsrReg) (v : Word) : Ensures (execCsrwr r v s) State.Inv := by
  cases r
  case ctrl =>
    unfold Machine.execCsrwr
    dsimp only
    split
    · exact h.startOp
    · exact .next h.resetOp
    · exact .ite (.refused _) (.next h)
  case status | count | finfo => exact .next h
  all_goals exact .ite (.refused _) (.next (h.setCsr _))

theorem exec (i : Instr) : Ensures (exec i s) State.Inv := by
  cases i with
  | start => exact h.startOp
  | srst b => exact .next h.resetOp
  | csrrd r => exact h.execCsrrd r
  | csrwr r v => exact h.execCsrwr r v
  | eob => exact h.execEob
  | zero => exact h.zeroEffect
  | one => exact h.execOne
  | two => exact .next (h.setVal 2)
  | three => exact .next (h.setVal 3)
  | four => exact .next (h.setVal 4)
  | cat1 => exact .next (h.readCategory _ _)
  | cat2 => exact .next (h.readCategory _ _)
  | cat3 => exact .next (h.readCategory _ _)
  | cat4 => exact .next (h.readCategory _ _)
  | cat5 => exact .next (h.readCategory _ _)
  | cat6 => exact h.execCat6
  | blockSetup => exact h.execBlockSetup
  | initCtx => exact h.initCtx
  | bandCtxSelect => exact .next (h.latchProbs.setSt _)
  | eobTest => exact h.execEobTest
  | zeroTest => exact h.execZeroTest
  | zeroAdvance => exact h.zeroEffect
  | oneTest => exact h.execOneTest
  | higherToken => exact h.execHigherToken
  | readCat pv => exact .next (h.readCat pv)
  | dequantSign => exact h.execDequantSign
  | rangeClamp => exact .next h.rangeClamp
  | writeCache => exact h.execWriteCache
  | ctxUpdate => exact h.ctxUpdate
  | edgeWrite => exact h.edgeWrite.andThen fun _ hu => .next hu.blockFinish
  | blockFinish => exact .next h.blockFinish

end State.Inv

/-! ## What a step does -/

section
variable {P : State → Prop} {s : State}

/-- The sequencer leaves the state as it is, stops, or runs an instruction. -/
theorem fetchOp_ensures (hs : P s) (hexec : ∀ i, Ensures (exec i s) P) : (fetchOp s).Ensures P := by
  unfold fetchOp
  split
  · exact Ensures.refused _
  · split
    case h_1 | h_2 => exact Ensures.next hs
    case h_3 => exact Ensures.fault _
    all_goals
      split
      · exact hexec _
      · exact Ensures.refused _

theorem fetchBus_ensures (hexec : ∀ i, Ensures (exec i s) P) (wr : Bool) (size off : Nat) (data : Word) :
    (fetchBus wr size off data s).Ensures P := by
  unfold fetchBus
  split
  · exact hexec _
  · exact Ensures.refused _

/-- The host's element access is made inside the space only. -/
theorem hostElement_ensures_of_lt {sp : Store} {i : Nat} {r : Result}
    (h : i < sp.size s.mem → Ensures r P) : (hostElement s sp i r).Ensures P := by
  refine hostAction_ensures ?_
  split
  · rename_i hi
    exact h hi
  · exact Ensures.refused _

end

theorem State.Inv.fetchInput {s : State} (h : s.Inv) (inp : Input) : (fetchInput inp s).Ensures State.Inv := by
  cases inp with
  | tick => exact fetchOp_ensures h h.exec
  | rst => exact Ensures.next h.resetOp
  | bus wr size off data => exact (fetchBus_ensures h.exec wr size off data).afterReset
  | busLanes off b0 b1 b2 b3 => exact (fetchBus_ensures h.exec true 4 off _).afterReset
  | busLanesRead off => exact (fetchBus_ensures h.exec false 4 off 0).afterReset
  | storeWrite sp i v =>
    exact (hostElement_ensures_of_lt fun hi => .next (h.setMem (Store.write_wf sp _ i v hi h.mem))).afterReset
  | storeRead sp i => exact (hostElement_ensures (.next (h.setElem _))).afterReset
  | storeFill sp v => exact (hostAction_ensures (.next (h.setMem (Store.fill_wf sp _ v h.mem)))).afterReset
  | supplyArray side p len =>
    exact (hostAction_ensures (.next (h.setMem (Memory.supply_wf _ side p len h.mem)))).afterReset
  | loadTables tab => exact (hostAction_ensures (.next (h.setTab tab))).afterReset
  | positionStream bd => exact (hostAction_ensures (.next (h.setBd bd))).afterReset
  | opWord nbits w =>
    refine Work.Ensures.afterReset ?_
    split
    · exact h.exec _
    · exact Ensures.refused _

theorem State.Inv.step {s : State} (h : s.Inv) : Ensures (step s) State.Inv := by
  refine step_ensures ?_
  unfold fetch
  split
  · exact fetchOp_ensures h h.exec
  · exact (h.setInputs _).fetchInput _

/-- Settles O53: `State.Inv.step`. -/
theorem everyStepKeepsTheInvariant : Obligations.EveryStepKeepsTheInvariant := by
  unfold Obligations.EveryStepKeepsTheInvariant
  exact fun _ _ h => h.step _

end Sys2Proof.Machine
end

section
/-! The words of the CSR block: STATUS bit by bit (O19), and the fields that a write stores (O22). -/

namespace Sys2Proof.Machine

/-! ## STATUS -/

/-- STATUS bit by bit (10_state.md R32). -/
theorem statusWord_bits (s : State) :
    s.statusWord.getLsbD 0 = s.st.busy ∧ s.statusWord.getLsbD 1 = s.st.isDone ∧
      s.statusWord.getLsbD 2 = s.st.isFatal ∧ s.statusWord.getLsbD 3 = s.clamped ∧
      s.statusWord.extractLsb' 4 28 = 0 := by
  have bits : ∀ busy done fatal clamped : Bool,
      let w := BitVec.ofNat 32 (busy.toNat + 2 * done.toNat + 4 * fatal.toNat + 8 * clamped.toNat)
      w.getLsbD 0 = busy ∧ w.getLsbD 1 = done ∧ w.getLsbD 2 = fatal ∧ w.getLsbD 3 = clamped ∧
        w.extractLsb' 4 28 = 0 := by decide
  exact bits _ _ _ _

/-- The three flags of ST, as the low bits of STATUS. -/
theorem statusWord_flags (s : State) : s.statusWord.extractLsb' 0 3 =
    BitVec.ofNat 3 (s.st.busy.toNat + 2 * s.st.isDone.toNat + 4 * s.st.isFatal.toNat) := by
  have flags : ∀ busy done fatal clamped : Bool,
      (BitVec.ofNat 32 (busy.toNat + 2 * done.toNat + 4 * fatal.toNat + 8 * clamped.toNat)).extractLsb' 0 3 =
        BitVec.ofNat 3 (busy.toNat + 2 * done.toNat + 4 * fatal.toNat) := by decide
  exact flags _ _ _ _

theorem St.busy_iff_code (t : St) : t.busy = true ↔ 1 ≤ t.code.toNat ∧ t.code.toNat ≤ 11 := by
  cases t <;> decide

theorem St.isDone_iff (t : St) : t.isDone = true ↔ t = .done := decide_eq_true_iff

theorem St.isFatal_iff (t : St) : t.isFatal = true ↔ t = .fatal := decide_eq_true_iff

/-- At most one of the three flags is set. -/
theorem St.flags_exclusive (t : St) :
    BitVec.ofNat 3 (t.busy.toNat + 2 * t.isDone.toNat + 4 * t.isFatal.toNat) ∈ [0, 1, 2, 4] := by
  cases t <;> decide

/-- Settles O19: the bits of STATUS (`statusWord_bits`, `statusWord_flags`) and what each flag says of ST. -/
theorem statusIsAFunctionOfStAndClamped : Obligations.StatusIsAFunctionOfStAndClamped := by
  unfold Obligations.StatusIsAFunctionOfStAndClamped
  intro s
  obtain ⟨hbusy, hdone, hfatal, hclamped, hreserved⟩ := statusWord_bits s
  have hflags := s.st.flags_exclusive
  rw [← statusWord_flags] at hflags
  rw [hbusy, hdone, hfatal]
  exact ⟨s.st.busy_iff_code, s.st.isDone_iff, s.st.isFatal_iff, hclamped, hreserved, by simpa using hflags, rfl,
    fun d => rfl, rfl, fun v => rfl⟩

/-! ## The fields of a RW register -/

/-- A write of a RW register between block decodes stores its defined fields (R199). -/
theorem execCsrwr_next {r : CsrReg} (hr : r.rw = true) {s : State} (hb : s.st.busy = false) (v : Word) :
    exec (.csrwr r v) s = .next (s.setCsr (s.csr.store r v)) := by
  cases r
  case ctrl | status | count | finfo => cases hr
  all_goals exact if_neg (by simp [hb])

/-- A half of a word as a signed number (30_encoding.md R99). -/
theorem toInt_half (h : BitVec 16) :
    h.toInt = if h.toNat < 32768 then (h.toNat : Int) else h.toNat - 65536 := by
  rw [BitVec.toInt_eq_toNat_cond]
  split_ifs <;> omega

theorem toNat_lowHalf (v : Word) : (v.extractLsb' 0 16).toNat = v.toNat % 65536 := by
  simp

theorem toNat_highHalf (v : Word) : (v.extractLsb' 16 16).toNat = v.toNat / 65536 := by
  have := v.isLt
  rw [BitVec.extractLsb'_toNat, Nat.shiftRight_eq_div_pow]
  omega

section
variable (r : Csrs) (v : Word)

theorem store_cfg_fields :
    (r.store .cfg v).bd = v.extractLsb' 0 4 ∧ (r.store .cfg v).statsEn = v.getLsbD 4 ∧
      (r.store .cfg v).rangeEn = v.getLsbD 5 := by
  simp [Csrs.store, Csrs.bd, Csrs.statsEn, Csrs.rangeEn, BitVec.extractLsb'_setWidth_of_le]

theorem store_blk0_fields :
    (r.store .blk0 v).tx = v.extractLsb' 0 2 ∧ (r.store .blk0 v).plane = v.extractLsb' 2 2 ∧
      (r.store .blk0 v).ptype = v.getLsbD 4 ∧ (r.store .blk0 v).ref = v.getLsbD 5 ∧
      (r.store .blk0 v).seg = v.extractLsb' 6 3 ∧ (r.store .blk0 v).scanid = v.extractLsb' 9 4 := by
  simp [Csrs.store, Csrs.tx, Csrs.plane, Csrs.ptype, Csrs.ref, Csrs.seg, Csrs.scanid,
    BitVec.extractLsb'_setWidth_of_le]

theorem store_blkpos_fields :
    (r.store .blkpos v).posX = v.toNat % 65536 ∧ (r.store .blkpos v).posY = v.toNat / 65536 :=
  ⟨toNat_lowHalf v, toNat_highHalf v⟩

theorem store_edge_fields :
    (r.store .edge v).dr =
        (if v.toNat % 65536 < 32768 then (v.toNat % 65536 : Int) else v.toNat % 65536 - 65536) ∧
      (r.store .edge v).db =
        (if v.toNat / 65536 < 32768 then (v.toNat / 65536 : Int) else v.toNat / 65536 - 65536) := by
  simp only [Csrs.store, Csrs.dr, Csrs.db, toInt_half, toNat_lowHalf, toNat_highHalf]
  simp

end

/-- Settles O22: `execCsrwr_next` and the fields of each register. -/
theorem csrFieldsAreTheBitsWritten : Obligations.CsrFieldsAreTheBitsWritten := by
  unfold Obligations.CsrFieldsAreTheBitsWritten
  intro s v hb
  refine ⟨⟨_, execCsrwr_next rfl hb v, ?_⟩, ⟨_, execCsrwr_next rfl hb v, ?_⟩, ⟨_, execCsrwr_next rfl hb v, ?_⟩,
    ⟨_, execCsrwr_next rfl hb v, ?_⟩⟩
  · exact store_cfg_fields s.csr v
  · exact store_blk0_fields s.csr v
  · exact store_blkpos_fields s.csr v
  · exact store_edge_fields s.csr v

end Sys2Proof.Machine
end

section
/-! The host reads and writes one element of a space between block decodes (10_state.md R40): the rules of
`Store.read` and `Store.write`; and O24. -/

namespace Sys2Proof.Machine

/-! ## The spaces -/

/-- The value that a host write of `v` leaves in an element: cut to the element's width, and a flag is set by
any value but 0. -/
def Store.cut (sp : Store) (v : Int) : Int :=
  match sp with
  | .coef _ => (BitVec.ofInt 36 v).toInt
  | .above _ | .left _ => if v = 0 then 0 else 1
  | .cnt | .eobbr => v % 4294967296

theorem toNat_ofInt32 (v : Int) : ((BitVec.ofInt 32 v).toNat : Int) = v % 4294967296 := by
  rw [BitVec.toNat_ofInt]
  omega

theorem toNat_decide_ne_zero (v : Int) : ((decide (v ≠ 0)).toNat : Int) = if v = 0 then 0 else 1 := by
  by_cases h : v = 0 <;> simp [h]

theorem Store.read_write_same (sp : Store) (m : Memory) (i : Nat) (v : Int) :
    sp.read (sp.write m i v) i = some (sp.cut v) := by
  cases sp <;> simp only [Store.read, Store.write, Store.cut, PerPlane.get_set_same, Cells.read_write_same,
    Option.map_some, toNat_ofInt32, toNat_decide_ne_zero]

/-- A write changes one element of one space. -/
theorem Store.read_write_other (sp sp' : Store) (m : Memory) (i j : Nat) (v : Int) (h : sp' ≠ sp ∨ j ≠ i) :
    sp'.read (sp.write m i v) j = sp'.read m j := by
  by_cases hsp : sp' = sp
  · subst hsp
    have hj : j ≠ i := h.resolve_left (absurd rfl)
    cases sp' <;> simp only [Store.read, Store.write, PerPlane.get_set_same, Cells.read_write_other _ _ _ _ hj]
  · cases sp <;> cases sp'
    case coef.coef p q | above.above p q | left.left p q =>
      have hq : q ≠ p := fun heq => hsp (heq ▸ rfl)
      simp only [Store.read, Store.write, PerPlane.get_set_other _ _ _ _ hq]
    case cnt.cnt | eobbr.eobbr => exact absurd rfl hsp
    all_goals rfl

theorem Store.len_write (sp : Store) (m : Memory) (i : Nat) (v : Int) (q : Plane) :
    ((sp.write m i v).above.get q).len = (m.above.get q).len ∧
      ((sp.write m i v).left.get q).len = (m.left.get q).len := by
  cases sp
  case above p => exact ⟨FlagArray.len_set_cells _ _ _ _, rfl⟩
  case left p => exact ⟨rfl, FlagArray.len_set_cells _ _ _ _⟩
  all_goals exact ⟨rfl, rfl⟩

/-! ## The access -/

section
variable {s : State} {sp : Store} {i : Nat}

theorem hostElement_of_lt (hb : s.st.busy = false) (hi : i < sp.size s.mem) (r : Result) :
    hostElement s sp i r = .settle r := by
  simp [hostElement, hostAction, hb, hi]

theorem hostElement_outside (hb : s.st.busy = false) (hi : sp.size s.mem ≤ i) (r : Result) :
    hostElement s sp i r = .settle (.refused (.outsideSpace sp)) := by
  simp [hostElement, hostAction, hb, hi]

/-- An input that is made as an access of an element is settled as that access. -/
theorem step_of_element {inp : Input} {rest : List Input} {r r' : Result} (hup : s.resetDone = true)
    (hin : s.inputs = inp :: rest)
    (hinp : fetchInput inp (s.setInputs rest) = if s.resetDone then hostElement (s.setInputs rest) sp i r
      else .settle (.refused .beforeReset))
    (h : hostElement (s.setInputs rest) sp i r = .settle r') : step s = r' := by
  refine step_of_settle ?_
  rw [fetch_cons hin, hinp, if_pos hup, h]

end

/-- Settles O24: `step_of_element`, and the rules of `Store.write` for what is written. -/
theorem hostElementAccess : Obligations.HostElementAccess := by
  unfold Obligations.HostElementAccess
  intro s sp i hup hb
  refine ⟨fun hi => ⟨fun v rest hin => ?_, fun rest hin => ?_⟩, ?_⟩
  · exact ⟨sp.write s.mem i v, step_of_element hup hin rfl (hostElement_of_lt hb hi _),
      sp.read_write_same s.mem i v, fun sp' j => sp.read_write_other sp' s.mem i j v, sp.len_write s.mem i v⟩
  · exact step_of_element hup hin rfl (hostElement_of_lt hb hi _)
  · rintro hi inp rest hin (rfl | ⟨v, rfl⟩)
    · exact step_of_element hup hin rfl (hostElement_outside hb hi _)
    · exact step_of_element hup hin rfl (hostElement_outside hb hi _)

end Sys2Proof.Machine
end

section
/-! The CSR block behind its bus (20_memory.md R65, R66): which accesses decode, what an access by byte lanes
does; O11 and O58. -/

namespace Sys2Proof.Machine

section
variable {s : State} {inp : Input} {rest : List Input} {r : CsrReg}

/-! ## Undefined accesses -/

/-- No word starts off a multiple of 4 or past the eight words. -/
theorem csrAt_eq_none {off : Nat} (h : off % 4 ≠ 0 ∨ 0x20 ≤ off) : csrAt off = none := by
  have away : off ≠ 0x00 ∧ off ≠ 0x04 ∧ off ≠ 0x08 ∧ off ≠ 0x0C ∧ off ≠ 0x10 ∧ off ≠ 0x14 ∧ off ≠ 0x18 ∧
      off ≠ 0x1C := by omega
  simp [csrAt, away]

theorem decode_bus_undefined {size off : Nat} (h : size ≠ 4 ∨ off % 4 ≠ 0 ∨ 0x20 ≤ off) (wr : Bool)
    (data : Word) : decode (.bus wr size off data) = .error .csrAccess := by
  rw [decode, decodeBus]
  split
  · rfl
  · rename_i hsize
    rw [csrAt_eq_none (h.resolve_left hsize)]

/-- An input that is made as an access of the CSR block is refused where the access does not decode. -/
theorem step_of_undefined_access {wr : Bool} {size off : Nat} {data : Word} {e : DecodeError}
    (hup : s.resetDone = true) (hin : s.inputs = inp :: rest)
    (hbus : fetchInput inp (s.setInputs rest) = if s.resetDone then fetchBus wr size off data (s.setInputs rest)
      else .settle (.refused .beforeReset))
    (h : decode (.bus wr size off data) = .error e) : step s = .refused .csrAccess := by
  refine step_of_settle ?_
  rw [fetch_cons hin, hbus, if_pos hup, fetchBus, h]

/-! ## Accesses by byte lanes -/

theorem decode_bus_read (r : CsrReg) (data : Word) : decode (.bus false 4 r.offset data) = .ok (.csrrd r) := by
  cases r <;> rfl

/-- A written word is data, except in CTRL, where it may be a command. -/
theorem decode_bus_write (hr : r ≠ .ctrl) (v : Word) : decode (.bus true 4 r.offset v) = .ok (.csrwr r v) := by
  cases r
  case ctrl => exact absurd rfl hr
  all_goals rfl

theorem step_of_busLanesRead (hup : s.resetDone = true) (hr : s.st.busy = false ∨ r = .status)
    (hin : s.inputs = .busLanesRead r.offset :: rest) :
    step s = .next ((s.setInputs rest).setRdata (s.csrWord r)) := by
  rw [step_of_access hup hin rfl (decode_bus_read r 0)]
  exact execCsrrd_next hr

theorem step_of_busLanes {b0 b1 b2 b3 : Byte} (hup : s.resetDone = true) (hb : s.st.busy = false)
    (hr : r.rw = true) (hin : s.inputs = .busLanes r.offset b0 b1 b2 b3 :: rest) :
    step s = .next ((s.setInputs rest).setCsr (s.csr.store r (s.par.csrByteOrder.word b0 b1 b2 b3))) := by
  have hctrl : r ≠ .ctrl := by
    rintro rfl
    cases hr
  rw [step_of_access hup hin rfl (decode_bus_write hctrl _)]
  exact execCsrwr_next (s := s.setInputs rest) hr hb _

/-- BLKPOS and EDGE have no reserved bits: they read back the whole word written (10_state.md R35, R36). -/
theorem csrWord_store (s : State) (hr : r = .blkpos ∨ r = .edge) (v : Word) :
    (s.setCsr (s.csr.store r v)).csrWord r = v := by
  obtain rfl | rfl := hr <;> rfl

theorem csrWord_setInputs (s : State) (l : List Input) (r : CsrReg) : (s.setInputs l).csrWord r = s.csrWord r := by
  cases r <;> rfl

end

/-- Settles O11: none of the three forms of the access decodes (`decode_bus_undefined`). -/
theorem undefinedCsrAccessIsRefused : Obligations.UndefinedCsrAccessIsRefused := by
  unfold Obligations.UndefinedCsrAccessIsRefused
  intro s rest hup
  refine ⟨fun wr size off data hin h => ?_, fun off b0 b1 b2 b3 hin h => ?_, fun off hin h => ?_⟩
  · exact step_of_undefined_access hup hin rfl (decode_bus_undefined h wr data)
  · exact step_of_undefined_access hup hin rfl (decode_bus_undefined (.inr h) true _)
  · exact step_of_undefined_access hup hin rfl (decode_bus_undefined (.inr h) false 0)

/-- Settles O58: a read by lanes returns the register's word (`step_of_busLanesRead`); after a write by lanes
that word is the one that the bytes spell, and its lanes are the bytes (`ByteOrder.lanes_word`). -/
theorem byteLanesFollowTheByteOrder : Obligations.ByteLanesFollowTheByteOrder := by
  unfold Obligations.ByteLanesFollowTheByteOrder
  refine ⟨fun s r rest hup hr hin => ?_, fun s r b0 b1 b2 b3 rest hup hb hr hin => ?_⟩
  · have hstep := step_of_busLanesRead hup hr hin
    refine ⟨hstep, fun t ht => ?_⟩
    cases hstep.symm.trans ht
    exact ⟨fun ho => by rw [State.setRdata_rlanes, State.setInputs_par, ho]; rfl,
      fun ho => by rw [State.setRdata_rlanes, State.setInputs_par, ho]; rfl⟩
  · have hrw : r.rw = true := by obtain rfl | rfl := hr <;> rfl
    have hwrite := step_of_busLanes hup hb hrw hin
    set u := (s.setInputs (.busLanesRead r.offset :: rest)).setCsr
      (s.csr.store r (s.par.csrByteOrder.word b0 b1 b2 b3))
    have hread : step u = .next ((u.setInputs rest).setRdata (u.csrWord r)) :=
      step_of_busLanesRead hup (.inl hb) rfl
    have hword : u.csrWord r = s.par.csrByteOrder.word b0 b1 b2 b3 :=
      csrWord_store (s.setInputs _) hr _
    refine ⟨(u.setInputs rest).setRdata (u.csrWord r), ?_, rfl, ?_⟩
    · simp only [Host.Core.run, Sys2Proof.core, hwrite, hread]
    · rw [State.setRdata_rlanes, hword]
      exact ByteOrder.lanes_word _ b0 b1 b2 b3

end Sys2Proof.Machine
end

section
/-! The linear indices of the counters (20_memory.md R62): bounds, injectivity; O47. -/

namespace Sys2Proof.Machine

theorem CntKind.num_lt (k : CntKind) : k.num < 4 := by
  cases k <;> decide

theorem CntKind.num_injective : ∀ {k k' : CntKind}, k.num = k'.num → k = k' := by
  rintro ⟨⟩ ⟨⟩ ⟨⟩ <;> rfl

/-- The part that a block fixes is its three fields as digits. -/
theorem cntPrefix_injective {tx tx' : BitVec 2} {pt pt' rf rf' : Bool}
    (h : cntPrefix tx pt rf = cntPrefix tx' pt' rf') : tx = tx' ∧ pt = pt' ∧ rf = rf' := by
  have bit_injective : ∀ a b : Bool, a.toNat = b.toNat → a = b := by decide
  have hpt := pt.toNat_lt
  have hpt' := pt'.toNat_lt
  have hrf := rf.toNat_lt
  have hrf' := rf'.toNat_lt
  unfold cntPrefix at h
  exact ⟨BitVec.eq_of_toNat_eq (by omega), bit_injective _ _ (by omega), bit_injective _ _ (by omega)⟩

section
variable {tx tx' : BitVec 2} {pt pt' rf rf' : Bool} {band band' ctx ctx' : BitVec 3}

theorem eobbrIndex_lt (hband : band.toNat < 6) (hctx : ctx.toNat < 6) : eobbrIndex tx pt rf band ctx < 576 := by
  have hblock := cntPrefix_lt tx pt rf
  unfold eobbrIndex
  omega

theorem cntIndex_lt (hband : band.toNat < 6) (hctx : ctx.toNat < 6) (k : CntKind) :
    cntIndex tx pt rf band ctx k < 2304 := by
  have hindex := eobbrIndex_lt (tx := tx) (pt := pt) (rf := rf) hband hctx
  have hnum := k.num_lt
  unfold cntIndex
  omega

theorem eobbrIndex_injective (hband : band.toNat < 6) (hband' : band'.toNat < 6) (hctx : ctx.toNat < 6)
    (hctx' : ctx'.toNat < 6) (h : eobbrIndex tx pt rf band ctx = eobbrIndex tx' pt' rf' band' ctx') :
    tx = tx' ∧ pt = pt' ∧ rf = rf' ∧ band = band' ∧ ctx = ctx' := by
  unfold eobbrIndex at h
  obtain ⟨htx, hpt, hrf⟩ : tx = tx' ∧ pt = pt' ∧ rf = rf' := cntPrefix_injective (by omega)
  exact ⟨htx, hpt, hrf, BitVec.eq_of_toNat_eq (by omega), BitVec.eq_of_toNat_eq (by omega)⟩

/-- The kind is the last digit of the index, in base 4. -/
theorem cntIndex_eq_iff (k k' : CntKind) : cntIndex tx pt rf band ctx k = cntIndex tx' pt' rf' band' ctx' k' ↔
    eobbrIndex tx pt rf band ctx = eobbrIndex tx' pt' rf' band' ctx' ∧ k = k' := by
  constructor
  · intro h
    have hnum := k.num_lt
    have hnum' := k'.num_lt
    unfold cntIndex at h
    exact ⟨by omega, CntKind.num_injective (by omega)⟩
  · rintro ⟨h, rfl⟩
    rw [cntIndex, cntIndex, h]

end

/-- Settles O47: the formulas are the definitions; an index is read digit by digit. -/
theorem counterIndicesAreInSpaceAndDistinct : Obligations.CounterIndicesAreInSpaceAndDistinct := by
  unfold Obligations.CounterIndicesAreInSpaceAndDistinct
  intro tx tx' pt pt' rf rf' band band' ctx ctx' k k' hband hband' hctx hctx'
  refine ⟨by cases k <;> rfl, rfl, cntIndex_lt hband hctx k, eobbrIndex_lt hband hctx, fun h => ?_,
    eobbrIndex_injective hband hband' hctx hctx'⟩
  obtain ⟨hindex, hk⟩ := (cntIndex_eq_iff k k').mp h
  obtain ⟨htx, hpt, hrf, hb, hc⟩ := eobbrIndex_injective hband hband' hctx hctx' hindex
  exact ⟨htx, hpt, hrf, hb, hc, hk⟩

end Sys2Proof.Machine
end

section
/-! Which instruction writes which part of the state (20_memory.md R60 to R62): the rules for the updates of the
state, the shared operations, the instructions; and O49. -/

namespace Sys2Proof.Machine

/-- The parts of the state whose writers the spec names. -/
inductive Part
  | coef | flags | cnt | eobbr | cache | ctx | count | finfo | rwRegs

/-- The part is in `t` as it is in `s`. The cache goes with C, which says how much of it is in use. -/
def Part.Kept (s t : State) : Part → Prop
  | .coef => t.mem.coef = s.mem.coef
  | .flags => t.mem.above = s.mem.above ∧ t.mem.left = s.mem.left
  | .cnt => t.mem.cnt = s.mem.cnt
  | .eobbr => t.mem.eobbr = s.mem.eobbr
  | .cache => t.tc = s.tc ∧ t.x.c = s.x.c
  | .ctx => t.x.ctx = s.x.ctx
  | .count => t.csr.count = s.csr.count
  | .finfo => t.csr.fcode = s.csr.fcode ∧ t.csr.fpos = s.csr.fpos
  | .rwRegs => t.csr.cfg = s.csr.cfg ∧ t.csr.blk0 = s.csr.blk0 ∧ t.csr.blkpos = s.csr.blkpos ∧
      t.csr.edge = s.csr.edge

/-- Only the parts in `W` may differ between the two states. -/
def WritesOnly (W : Part → Prop) (s t : State) : Prop := ∀ p, ¬ W p → p.Kept s t

namespace WritesOnly

theorem refl (W : Part → Prop) (s : State) : WritesOnly W s s := by
  rintro ⟨⟩ - <;> simp [Part.Kept]

variable {W : Part → Prop} {s t u : State} (h : WritesOnly W s t)
include h

/-! ## The updates -/

/-- An update of one part that is in `W`. -/
theorem write {q : Part} (hq : W q)
    (hu : ∀ p, p = q ∨ (p.Kept s t → p.Kept s u) := by rintro ⟨⟩ <;> simp [Part.Kept]) : WritesOnly W s u := by
  intro p hp
  obtain rfl | hkeep := hu p
  · exact absurd hq hp
  · exact hkeep (h p hp)

theorem setSt (v : St) : WritesOnly W s (t.setSt v) := h

theorem setClamped (v : Bool) : WritesOnly W s (t.setClamped v) := h

theorem setBd (v : Nat) : WritesOnly W s (t.setBd v) := h

theorem setRdata (v : Word) : WritesOnly W s (t.setRdata v) := h

/-- A write of any registers but C and CTX. -/
theorem setX_same (x : Regs) (hc : x.c = t.x.c := by rfl) (hctx : x.ctx = t.x.ctx := by rfl) :
    WritesOnly W s (t.setX x) := by
  rintro ⟨⟩ hp
  case cache => exact ⟨(h .cache hp).1, hc.trans (h .cache hp).2⟩
  case ctx => exact hctx.trans (h .ctx hp)
  all_goals exact h _ hp

theorem setC (hW : W .cache) (x : Regs) (hctx : x.ctx = t.x.ctx := by rfl) : WritesOnly W s (t.setX x) :=
  h.write hW (by rintro ⟨⟩ <;> simp [Part.Kept, hctx])

theorem setCtx (hW : W .ctx) (v : BitVec 3) : WritesOnly W s (t.setX { t.x with ctx := v }) :=
  h.write hW

theorem setTc (hW : W .cache) (v : Cells (BitVec 3)) : WritesOnly W s (t.setTc v) :=
  h.write hW

theorem setCoef (hW : W .coef) (v : PerPlane (Cells (BitVec 36))) :
    WritesOnly W s (t.setMem { t.mem with coef := v }) := h.write hW

theorem setFlags (hW : W .flags) (a l : PerPlane FlagArray) :
    WritesOnly W s (t.setMem { t.mem with above := a, left := l }) := h.write hW

theorem setCnt (hW : W .cnt) (v : Cells (BitVec 32)) : WritesOnly W s (t.setMem { t.mem with cnt := v }) :=
  h.write hW

theorem setEobbr (hW : W .eobbr) (v : Cells (BitVec 32)) : WritesOnly W s (t.setMem { t.mem with eobbr := v }) :=
  h.write hW

theorem blockFinish (hW : W .count) : WritesOnly W s (blockFinish t) :=
  h.write hW (by rintro ⟨⟩ <;> simp [Part.Kept, Machine.blockFinish])

theorem raiseFatal (hW : W .finfo) (code : BitVec 4) : WritesOnly W s (raiseFatal code t) :=
  h.write hW (by rintro ⟨⟩ <;> simp [Part.Kept, Machine.raiseFatal])

/-- COUNT and FINFO are read-only to the host (45_block_decode_and_host.md R199). -/
theorem store (hW : W .rwRegs) (r : CsrReg) (v : Word) : WritesOnly W s (t.setCsr (t.csr.store r v)) := by
  have hro : (t.csr.store r v).count = t.csr.count ∧ (t.csr.store r v).fcode = t.csr.fcode ∧
      (t.csr.store r v).fpos = t.csr.fpos := by
    cases r <;> exact ⟨rfl, rfl, rfl⟩
  exact h.write hW (by rintro ⟨⟩ <;> simp [Part.Kept, hro])

/-! ## The shared operations -/

theorem incCnt (k : CntKind) (hW : t.csr.statsEn = true → W .cnt) : Ensures (incCnt k t) (WritesOnly W s) := by
  intro u hu
  obtain ⟨-, rfl⟩ | ⟨hen, n, -, rfl⟩ := incCnt_cases hu
  · exact h
  · exact h.setCnt (hW hen) _

theorem incEobbr (hW : t.csr.statsEn = true → W .eobbr) : Ensures (incEobbr t) (WritesOnly W s) := by
  intro u hu
  obtain ⟨-, rfl⟩ | ⟨hen, n, -, rfl⟩ := incEobbr_cases hu
  · exact h
  · exact h.setEobbr (hW hen) _

theorem initCtx (hW : W .ctx) : Ensures (initCtx t) (WritesOnly W s) := by
  intro u hu
  obtain ⟨p, a, l, -, -, -, rfl⟩ := initCtx_cases hu
  exact h.setCtx hW _

theorem ctxUpdate (hW : W .ctx) : Ensures (ctxUpdate t) (WritesOnly W s) := by
  intro u hu
  obtain ⟨e0, e1, -, -, rfl⟩ := ctxUpdate_cases hu
  exact h.setCtx hW _

theorem writeCoef (hW : W .coef) : Ensures (writeCoef t) (WritesOnly W s) := by
  intro u hu
  obtain ⟨p, -, rfl⟩ := writeCoef_cases hu
  exact h.setCoef hW _

theorem edgeWrite (hW : W .flags) : Ensures (edgeWrite t) (WritesOnly W s) := by
  intro u hu
  obtain ⟨p, -, -, -, rfl⟩ := edgeWrite_cases hu
  exact (h.setX_same _).setFlags hW _ _

theorem latchProbs : WritesOnly W s (latchProbs t) := (h.setX_same _).setX_same _

theorem boolRead (p : Prob) : WritesOnly W s (boolRead p t).2 := h.setBd _

theorem advanceC (hW : W .cache) : WritesOnly W s (advanceC t) := h.setC hW _

theorem rangeClamp : WritesOnly W s (rangeClamp t) := (h.setClamped _).setX_same _

theorem setVal (v : BitVec 19) : WritesOnly W s (setVal v t) := (h.setX_same _).setSt _

theorem readCat (pv : List Prob) : WritesOnly W s (readCat pv t) := (h.setX_same _).setBd _

theorem readCategory (k : Nat) (pv : List Prob) : WritesOnly W s (readCategory k pv t) := (h.readCat pv).setVal _

theorem startOp : Ensures (startOp t) (WritesOnly W s) := by
  intro u hu
  obtain ⟨-, -, rfl⟩ | ⟨-, -, rfl⟩ := startOp_cases hu
  · exact (h.setClamped _).setSt _
  · exact h

/-- ZERO counts the branch counter of the position entered under the policy PER_POSITION only
(43_token_decoder.md R150). -/
theorem zeroEffect (hcnt : t.csr.statsEn = true → W .cnt)
    (heobbr : t.csr.statsEn = true → t.par.eobbrPolicy = .perPosition → W .eobbr) (hcache : W .cache)
    (hctx : W .ctx) : Ensures (zeroEffect t) (WritesOnly W s) := by
  intro r hr
  obtain ⟨u, hu, hcases⟩ := zeroEffect_cases hr
  have hz : WritesOnly W s (zeroWritten u) :=
    ((((h.incCnt .zero hcnt u hu).setX_same _).setX_same _).setTc hcache _).advanceC hcache
  have hbz : SameBlock t (zeroWritten u) := ((((incCnt_sameBlock _ _ _ hu).setX _).setX _).setTc _).setX _
  obtain ⟨-, rfl⟩ | ⟨-, v, hv, hpol⟩ := hcases
  · exact hz.setSt _
  · have hl : WritesOnly W s (Machine.latchProbs v) := (hz.ctxUpdate hctx v hv).latchProbs
    have ha : SameSurroundings t (Machine.latchProbs v) :=
      (hbz.trans (ctxUpdate_sameBlock _ _ hv)).latchProbs.around
    obtain ⟨-, rfl⟩ | ⟨hpos, w, hw, rfl⟩ := hpol
    · exact hl.setSt _
    · have heob : (Machine.latchProbs v).csr.statsEn = true → W .eobbr := fun hen =>
        heobbr (ha.statsEn ▸ hen) (ha.par ▸ hpos)
      exact (hl.incEobbr heob w hw).setSt _

/-! ## The instructions -/

theorem execEob (hcnt : t.csr.statsEn = true → W .cnt) : Ensures (execEob t) (WritesOnly W s) :=
  (h.incCnt .eob hcnt).andThen fun _ hu => .next (hu.setSt _)

theorem execOne (hcnt : t.csr.statsEn = true → W .cnt) : Ensures (execOne t) (WritesOnly W s) :=
  (h.incCnt .one hcnt).andThen fun _ hu => .next ((hu.setX_same _).setVal _)

theorem execCat6 (hW : W .finfo) : Ensures (execCat6 t) (WritesOnly W s) := by
  unfold Machine.execCat6
  split
  · exact .next (h.raiseFatal hW _)
  · exact .next (h.readCategory _ _)

theorem execBlockSetup (hcache : W .cache) (hctx : W .ctx) : Ensures (execBlockSetup t) (WritesOnly W s) :=
  ((((h.setC hcache _).setClamped _).setTc hcache _).initCtx hctx).andThen fun _ hu => .next (hu.setSt _)

theorem execEobTest (hcnt : t.csr.statsEn = true → W .cnt) (heobbr : t.csr.statsEn = true → W .eobbr) :
    Ensures (execEobTest t) (WritesOnly W s) := by
  intro r hr
  obtain ⟨u, hu, hr⟩ := (andThen_eq_next _ _ _).mp hr
  have hw : WritesOnly W s u := h.incEobbr heobbr u hu
  have hen : u.csr.statsEn = t.csr.statsEn := (incEobbr_sameBlock _ _ hu).around.statsEn
  have hb : WritesOnly W s (Machine.boolRead u.x.p.eob u).2 := hw.boolRead _
  exact Ensures.ite (hb.execEob fun h => hcnt (hen ▸ h)) (.next (hb.setSt _)) r hr

theorem execZeroTest : Ensures (execZeroTest t) (WritesOnly W s) :=
  .ite (.next ((h.boolRead _).setSt _)) (.next ((h.boolRead _).setSt _))

theorem execOneTest (hcnt : t.csr.statsEn = true → W .cnt) : Ensures (execOneTest t) (WritesOnly W s) :=
  have hb : WritesOnly W s (Machine.boolRead t.x.p.one t).2 := h.boolRead _
  .ite (hb.execOne hcnt) ((hb.incCnt .more hcnt).andThen fun _ hu => .next (hu.setSt _))

theorem execHigherToken : Ensures (execHigherToken t) (WritesOnly W s) := by
  unfold Machine.execHigherToken
  dsimp only
  generalize runTree t.par (t.par.higherTokenAt t.x.p.pivot) t.bd = r
  have hr : WritesOnly W s ((t.setBd r.2).setX { t.x with token := r.1.token }) := (h.setBd r.2).setX_same _
  cases r.1
  case two => exact .next (hr.setVal 2)
  case three => exact .next (hr.setVal 3)
  case four => exact .next (hr.setVal 4)
  all_goals exact .next (hr.setSt .catx)

theorem execDequantSign : Ensures (execDequantSign t) (WritesOnly W s) := by
  unfold Machine.execDequantSign
  refine .next (WritesOnly.setSt ?_ _)
  split
  · exact ((h.setBd _).setX_same _).rangeClamp
  · exact (h.setBd _).setX_same _

theorem execWriteCache (hcoef : W .coef) (hcache : W .cache) (hctx : W .ctx) :
    Ensures (execWriteCache t) (WritesOnly W s) :=
  ((h.setX_same _).writeCoef hcoef).andThen fun _ hu =>
    have hw := (hu.setTc hcache _).advanceC hcache
    Ensures.andThen (.ite (hw.ctxUpdate hctx) (.next hw)) fun _ hv => .next ((hv.setX_same _).setSt _)

theorem execCsrrd (r : CsrReg) : Ensures (execCsrrd r t) (WritesOnly W s) := by
  cases r
  case status => exact .next (h.setRdata _)
  all_goals exact .ite (.refused _) (.next (h.setRdata _))

theorem execCsrwr (hW : W .rwRegs) {r : CsrReg} (hr : r ≠ .ctrl) (v : Word) :
    Ensures (execCsrwr r v t) (WritesOnly W s) := by
  cases r
  case ctrl => exact absurd rfl hr
  case status | count | finfo => exact .next h
  all_goals exact .ite (.refused _) (.next (h.store hW _ v))

end WritesOnly

/-- The parts that an instruction may write in `s`; a reset and a write of CTRL aside. -/
def MayWrite (i : Instr) (s : State) : Part → Prop
  | .coef => i = .writeCache
  | .flags => i = .edgeWrite
  | .cnt => s.csr.statsEn = true ∧
      (i = .eob ∨ i = .eobTest ∨ i = .one ∨ i = .oneTest ∨ i = .zero ∨ i = .zeroAdvance)
  | .eobbr => s.csr.statsEn = true ∧
      (i = .eobTest ∨ (i = .zero ∨ i = .zeroAdvance) ∧ s.par.eobbrPolicy ≠ .perEobTest)
  | .cache => i = .writeCache ∨ i = .zero ∨ i = .zeroAdvance ∨ i = .blockSetup
  | .ctx => i = .writeCache ∨ i = .zero ∨ i = .zeroAdvance ∨ i = .blockSetup ∨ i = .initCtx ∨ i = .ctxUpdate
  | .count => i = .edgeWrite ∨ i = .blockFinish
  | .finfo => i = .cat6
  | .rwRegs => ∃ r v, i = .csrwr r v

theorem exec_writesOnly {i : Instr} (hsrst : ∀ b, i ≠ .srst b) (hctrl : ∀ v, i ≠ .csrwr .ctrl v) (s : State) :
    Ensures (exec i s) (WritesOnly (MayWrite i s) s) := by
  have hs : WritesOnly (MayWrite i s) s s := .refl _ s
  cases i with
  | srst b => exact absurd rfl (hsrst b)
  | start => exact hs.startOp
  | csrrd r => exact hs.execCsrrd r
  | csrwr r v => exact hs.execCsrwr ⟨r, v, rfl⟩ (fun h => hctrl v (h ▸ rfl)) v
  | eob => exact hs.execEob fun hen => ⟨hen, by simp⟩
  | zero | zeroAdvance =>
    exact hs.zeroEffect (fun hen => ⟨hen, by simp⟩) (fun hen hpol => ⟨hen, by simp [hpol]⟩) (by simp [MayWrite])
      (by simp [MayWrite])
  | one => exact hs.execOne fun hen => ⟨hen, by simp⟩
  | two => exact .next (hs.setVal 2)
  | three => exact .next (hs.setVal 3)
  | four => exact .next (hs.setVal 4)
  | cat1 => exact .next (hs.readCategory _ _)
  | cat2 => exact .next (hs.readCategory _ _)
  | cat3 => exact .next (hs.readCategory _ _)
  | cat4 => exact .next (hs.readCategory _ _)
  | cat5 => exact .next (hs.readCategory _ _)
  | cat6 => exact hs.execCat6 rfl
  | blockSetup => exact hs.execBlockSetup (by simp [MayWrite]) (by simp [MayWrite])
  | initCtx => exact hs.initCtx (by simp [MayWrite])
  | bandCtxSelect => exact .next (hs.latchProbs.setSt _)
  | eobTest => exact hs.execEobTest (fun hen => ⟨hen, by simp⟩) fun hen => ⟨hen, by simp⟩
  | zeroTest => exact hs.execZeroTest
  | oneTest => exact hs.execOneTest fun hen => ⟨hen, by simp⟩
  | higherToken => exact hs.execHigherToken
  | readCat pv => exact .next (hs.readCat pv)
  | dequantSign => exact hs.execDequantSign
  | rangeClamp => exact .next hs.rangeClamp
  | writeCache => exact hs.execWriteCache rfl (.inl rfl) (.inl rfl)
  | ctxUpdate => exact hs.ctxUpdate (by simp [MayWrite])
  | edgeWrite => exact (hs.edgeWrite rfl).andThen fun _ hu => .next (hu.blockFinish (.inl rfl))
  | blockFinish => exact .next (hs.blockFinish (.inr rfl))

/-- Settles O49: `exec_writesOnly`, read for each part. -/
theorem onlyTheNamedInstructionsWrite : Obligations.OnlyTheNamedInstructionsWrite := by
  unfold Obligations.OnlyTheNamedInstructionsWrite
  intro i s t hexec hsrst hctrl
  have hkept : WritesOnly (MayWrite i s) s t := exec_writesOnly hsrst hctrl s t hexec
  have hcounters : s.csr.statsEn = false → ¬ MayWrite i s .cnt ∧ ¬ MayWrite i s .eobbr := by
    intro hoff
    simp [MayWrite, hoff]
  refine ⟨hkept .coef, hkept .flags, fun hoff => (hcounters hoff).imp (hkept .cnt) (hkept .eobbr),
    fun _ _ _ _ _ _ => hkept .cnt ?_, fun _ _ => hkept .eobbr ?_, fun _ _ _ _ => hkept .cache ?_,
    fun _ _ _ _ _ _ => hkept .ctx ?_, fun _ _ => hkept .count ?_, hkept .finfo, fun _ => hkept .rwRegs ?_⟩
  all_goals
    simp only [MayWrite]
    tauto

end Sys2Proof.Machine
end

section
/-! The bits of the stream read and written (30_encoding.md R94 to R98): numbers most significant bit first,
the opcode bits of a token, a token statement; O4. -/

namespace Sys2Proof

/-! ## Numbers as bits (R96) -/

/-- The fold of `ofBitsMsb` from any start value. -/
theorem foldl_bits (l : List Bool) (a : Nat) :
    l.foldl (fun e b => 2 * e + b.toNat) a = a * 2 ^ l.length + ofBitsMsb l := by
  induction l generalizing a with
  | nil => simp [ofBitsMsb]
  | cons b l ih =>
    have hcons : ofBitsMsb (b :: l) = b.toNat * 2 ^ l.length + ofBitsMsb l := by
      simpa [ofBitsMsb] using ih b.toNat
    rw [List.foldl_cons, ih, hcons, List.length_cons]
    ring

theorem ofBitsMsb_cons (b : Bool) (l : List Bool) :
    ofBitsMsb (b :: l) = b.toNat * 2 ^ l.length + ofBitsMsb l := by
  simpa [ofBitsMsb] using foldl_bits l b.toNat

/-- Bits are determined by their number and the number that they spell. -/
theorem ofBitsMsb_injective {l l' : List Bool} (hlen : l.length = l'.length)
    (h : ofBitsMsb l = ofBitsMsb l') : l = l' := by
  induction l generalizing l' with
  | nil => exact (List.length_eq_zero_iff.mp hlen.symm).symm
  | cons b l ih =>
    obtain _ | ⟨b', l'⟩ := l'
    · cases hlen
    have hlen' : l.length = l'.length := Nat.succ.inj hlen
    have hl := Machine.ofBitsMsb_lt l
    have hl' := Machine.ofBitsMsb_lt l'
    rw [ofBitsMsb_cons, ofBitsMsb_cons, hlen'] at h
    rw [hlen'] at hl
    obtain rfl : b = b' := by
      by_contra hb
      obtain ⟨rfl, rfl⟩ | ⟨rfl, rfl⟩ : b = true ∧ b' = false ∨ b = false ∧ b' = true := by
        cases b <;> simp_all
      all_goals
        simp only [Bool.toNat_true, Bool.toNat_false] at h
        omega
    rw [ih hlen' (Nat.add_left_cancel h)]

@[simp] theorem length_bitsMsb (n w : Nat) : (bitsMsb n w).length = n := by
  induction n with
  | zero => rfl
  | succ n ih => simp [bitsMsb, ih]

theorem ofBitsMsb_bitsMsb (n w : Nat) : ofBitsMsb (bitsMsb n w) = w % 2 ^ n := by
  induction n with
  | zero => simp [bitsMsb, ofBitsMsb, Nat.mod_one]
  | succ n ih =>
    have hbit : (w / 2 ^ n % 2 == 1).toNat = w / 2 ^ n % 2 := by
      obtain h | h := Nat.mod_two_eq_zero_or_one (w / 2 ^ n) <;> rw [h] <;> rfl
    rw [bitsMsb, ofBitsMsb_cons, length_bitsMsb, ih, hbit, Nat.mod_pow_succ]
    ring

theorem bitsMsb_ofBitsMsb (l : List Bool) : bitsMsb l.length (ofBitsMsb l) = l :=
  ofBitsMsb_injective (length_bitsMsb _ _)
    (by rw [ofBitsMsb_bitsMsb, Nat.mod_eq_of_lt (Machine.ofBitsMsb_lt l)])

theorem takeBits_eq_some_iff {n : Nat} {bits x r : List Bool} :
    takeBits n bits = some (x, r) ↔ bits = x ++ r ∧ x.length = n := by
  induction n generalizing bits x r with
  | zero =>
    simp only [takeBits, Option.some.injEq, Prod.mk.injEq, List.length_eq_zero_iff]
    constructor
    · rintro ⟨rfl, rfl⟩
      exact ⟨rfl, rfl⟩
    · rintro ⟨rfl, rfl⟩
      exact ⟨rfl, rfl⟩
  | succ n ih =>
    cases bits with
    | nil =>
      simp only [takeBits, reduceCtorEq, false_iff]
      rintro ⟨hx, hn⟩
      simp_all
    | cons b bits =>
      simp only [takeBits, Option.map_eq_some_iff, Prod.exists, Prod.mk.injEq, ih]
      constructor
      · rintro ⟨x', r', ⟨rfl, rfl⟩, rfl, rfl⟩
        exact ⟨rfl, rfl⟩
      · rintro ⟨hx, hn⟩
        obtain _ | ⟨b', x'⟩ := x
        · cases hn
        obtain ⟨rfl, rfl⟩ := List.cons.inj hx
        exact ⟨x', r, ⟨rfl, Nat.succ.inj hn⟩, rfl, rfl⟩

/-! ## Tokens (R94) -/

theorem decodeToken_opcodeBits {t : Token} (ht : t ≠ .eob) (r : List Bool) :
    decodeToken (t.opcodeBits ++ r) = some (t, r) := by
  cases t
  case eob => exact absurd rfl ht
  all_goals rfl

/-- A token is read from its own opcode bits only; EOB is read from none. -/
theorem decodeToken_cases {bits r : List Bool} {t : Token} (h : decodeToken bits = some (t, r)) :
    t ≠ .eob ∧ bits = t.opcodeBits ++ r := by
  unfold decodeToken at h
  split at h
  all_goals simp only [Option.some.injEq, Prod.mk.injEq, reduceCtorEq] at h
  all_goals
    obtain ⟨rfl, rfl⟩ := h
    exact ⟨nofun, rfl⟩

/-! ## Statements (R94, R96 to R98, R110) -/

section
variable {bd : BitVec 4} {s : TokenStmt} {w : Nat}

theorem TokenStmt.wf_iff : s.wf bd = true ↔
    ∃ w, s.tok.extBits bd = some w ∧ s.ext < 2 ^ w ∧ (s.tok.signed = false → s.neg = false) := by
  unfold TokenStmt.wf
  cases s.tok.extBits bd
  · simp
  · cases s.tok.signed <;> simp

/-- The sign bit as it stands in the stream, for a token that has one (R98). -/
def TokenStmt.signBits (s : TokenStmt) : List Bool := if s.tok.signed then [s.neg] else []

theorem TokenStmt.bits_eq (hw : s.tok.extBits bd = some w) :
    s.bits bd = s.tok.opcodeBits ++ (bitsMsb w s.ext ++ s.signBits) := by
  rw [TokenStmt.bits, hw, List.append_assoc]
  rfl

theorem decodeStmt_bits (ht : s.tok ≠ .eob) (hs : s.wf bd = true) (rest : List Bool) :
    decodeStmt bd (s.bits bd ++ rest) = some (s, rest) := by
  obtain ⟨w, hw, hext, hneg⟩ := TokenStmt.wf_iff.mp hs
  rw [TokenStmt.bits_eq hw, List.append_assoc, List.append_assoc, decodeStmt, decodeToken_opcodeBits ht]
  have hx : takeBits w (bitsMsb w s.ext ++ (s.signBits ++ rest)) =
      some (bitsMsb w s.ext, s.signBits ++ rest) := takeBits_eq_some_iff.mpr ⟨rfl, length_bitsMsb w s.ext⟩
  have hval : ofBitsMsb (bitsMsb w s.ext) = s.ext := by rw [ofBitsMsb_bitsMsb, Nat.mod_eq_of_lt hext]
  simp only [hw, hx, hval]
  obtain ⟨t, ext, neg⟩ := s
  cases hsg : t.signed
  · obtain rfl : neg = false := hneg hsg
    simp [TokenStmt.signBits, hsg]
  · simp [TokenStmt.signBits, hsg]

theorem decodeStmt_cases {bits rest : List Bool} (h : decodeStmt bd bits = some (s, rest)) :
    s.tok ≠ .eob ∧ s.wf bd = true ∧ bits = s.bits bd ++ rest := by
  unfold decodeStmt at h
  split at h
  · cases h
  rename_i t r htok
  split at h
  · cases h
  rename_i w hw
  split at h
  · cases h
  rename_i x r' hx
  obtain ⟨hne, rfl⟩ := decodeToken_cases htok
  obtain ⟨rfl, rfl⟩ := takeBits_eq_some_iff.mp hx
  have key : ∀ neg, (t.signed = false → neg = false) → r' = TokenStmt.signBits ⟨t, ofBitsMsb x, neg⟩ ++ rest →
      s = ⟨t, ofBitsMsb x, neg⟩ →
      s.tok ≠ .eob ∧ s.wf bd = true ∧ t.opcodeBits ++ (x ++ r') = s.bits bd ++ rest := by
    rintro neg hneg rfl rfl
    refine ⟨hne, TokenStmt.wf_iff.mpr ⟨x.length, hw, Machine.ofBitsMsb_lt x, hneg⟩, ?_⟩
    rw [TokenStmt.bits_eq hw, bitsMsb_ofBitsMsb]
    simp only [List.append_assoc]
  split at h
  · rename_i hsg
    split at h
    · cases h
    · cases h
      exact key _ (by simp [hsg]) (by simp [TokenStmt.signBits, hsg]) rfl
  · rename_i hsg
    cases h
    exact key false (fun _ => rfl) (by simp [TokenStmt.signBits, hsg]) rfl

end

/-- Settles O4: `decodeStmt_bits`. -/
theorem statementDecodingInvertsItsBits : Obligations.StatementDecodingInvertsItsBits := by
  unfold Obligations.StatementDecodingInvertsItsBits
  exact fun _ _ rest ht hs => decodeStmt_bits ht hs rest

end Sys2Proof
end

section
/-! The tokens of a whole block and their bit script (30_encoding.md R93, R112): the decoder of blocks and the
script, each taken apart at the first token; O5 and O6. -/

namespace Sys2Proof

section
variable {bd : BitVec 4} {left : Nat} {test : Bool}

/-- The bit that lets a token follow, where an end-of-block test is made (R93). -/
def goOnBits (test : Bool) : List Bool := if test then [!eobInd] else []

/-! ## The script -/

theorem encodeBlock_eob (test : Bool) {s : TokenStmt} (hs : s.tok = .eob) (ss : List TokenStmt) :
    encodeBlock bd test (s :: ss) = [eobInd] := by
  rw [encodeBlock, if_pos hs]

theorem encodeBlock_token (test : Bool) {s : TokenStmt} (hs : s.tok ≠ .eob) (ss : List TokenStmt) :
    encodeBlock bd test (s :: ss) = goOnBits test ++ (s.bits bd ++ encodeBlock bd (s.tok ≠ .zero) ss) := by
  rw [encodeBlock, if_neg hs, List.append_assoc]
  rfl

/-! ## Legal blocks -/

theorem legalBlock_eob_iff {s : TokenStmt} (hs : s.tok = .eob) (ss : List TokenStmt) :
    legalBlock bd (left + 1) test (s :: ss) = true ↔ test = true ∧ s = ⟨.eob, 0, false⟩ ∧ ss = [] := by
  obtain ⟨tok, ext, neg⟩ := s
  obtain rfl : tok = .eob := hs
  simp [legalBlock, and_assoc]

theorem legalBlock_token_iff {s : TokenStmt} (hs : s.tok ≠ .eob) (ss : List TokenStmt) :
    legalBlock bd (left + 1) test (s :: ss) = true ↔
      s.wf bd = true ∧ legalBlock bd left (s.tok ≠ .zero) ss = true := by
  rw [legalBlock, if_neg hs, Bool.and_eq_true]

/-! ## The decoder of blocks -/

theorem decodeBlock_eob (rest : List Bool) :
    decodeBlock bd (left + 1) true (eobInd :: rest) = some ([⟨.eob, 0, false⟩], rest) := by
  simp [decodeBlock]

/-- Behind a test that lets a token follow, or where none is made, a token is read and then the rest of the
block. -/
theorem decodeBlock_goOn (r : List Bool) :
    decodeBlock bd (left + 1) test (goOnBits test ++ r) = (decodeStmt bd r).bind fun q =>
      (decodeBlock bd left (q.1.tok ≠ .zero) q.2).map fun p => (q.1 :: p.1, p.2) := by
  have hgo : (!eobInd) ≠ eobInd := by decide
  cases test <;> cases h : decodeStmt bd r <;> simp [decodeBlock, goOnBits, h, hgo]

/-- What is read with a position left begins with EOB at a test, or with a token behind the bit that lets it
follow. -/
theorem decodeBlock_cases {bits rest : List Bool} {ss : List TokenStmt}
    (h : decodeBlock bd (left + 1) test bits = some (ss, rest)) :
    (test = true ∧ bits = eobInd :: rest ∧ ss = [⟨.eob, 0, false⟩]) ∨
    (∃ s r r' ss', bits = goOnBits test ++ r ∧ decodeStmt bd r = some (s, r') ∧
      decodeBlock bd left (s.tok ≠ .zero) r' = some (ss', rest) ∧ ss = s :: ss') := by
  have token : ∀ r, bits = goOnBits test ++ r → ∃ s r r' ss', bits = goOnBits test ++ r ∧
      decodeStmt bd r = some (s, r') ∧ decodeBlock bd left (s.tok ≠ .zero) r' = some (ss', rest) ∧
      ss = s :: ss' := by
    rintro r rfl
    rw [decodeBlock_goOn] at h
    obtain ⟨⟨s, r'⟩, hs, h⟩ := Option.bind_eq_some_iff.mp h
    obtain ⟨⟨ss', rest'⟩, hss, he⟩ := Option.map_eq_some_iff.mp h
    cases he
    exact ⟨s, r, r', ss', rfl, hs, hss, rfl⟩
  cases test with
  | false => exact .inr (token bits rfl)
  | true =>
    obtain _ | ⟨b, r⟩ := bits
    · cases h
    · by_cases hb : b = eobInd
      · subst hb
        rw [decodeBlock_eob] at h
        cases h
        exact .inl ⟨rfl, rfl, rfl⟩
      · obtain rfl : b = !eobInd := Bool.eq_not_of_ne hb
        exact .inr (token r rfl)

end

/-- The tokens of a legal block are read back from its script. -/
theorem decodeBlock_encodeBlock {bd : BitVec 4} {left : Nat} {test : Bool} {ss : List TokenStmt}
    (h : legalBlock bd left test ss = true) (rest : List Bool) :
    decodeBlock bd left test (encodeBlock bd test ss ++ rest) = some (ss, rest) := by
  induction left generalizing test ss with
  | zero =>
    obtain rfl := List.isEmpty_iff.mp h
    rfl
  | succ left ih =>
    obtain _ | ⟨s, ss⟩ := ss
    · cases h
    by_cases hs : s.tok = .eob
    · obtain ⟨rfl, rfl, rfl⟩ := (legalBlock_eob_iff hs ss).mp h
      exact decodeBlock_eob rest
    · obtain ⟨hwf, hss⟩ := (legalBlock_token_iff hs ss).mp h
      rw [encodeBlock_token test hs, List.append_assoc, List.append_assoc, decodeBlock_goOn,
        decodeStmt_bits hs hwf, Option.bind_some, ih hss, Option.map_some]

/-- What is read as a block is legal, and it was read from its script. -/
theorem legalBlock_of_decodeBlock {bd : BitVec 4} {left : Nat} {test : Bool} {bits rest : List Bool}
    {ss : List TokenStmt} (h : decodeBlock bd left test bits = some (ss, rest)) :
    legalBlock bd left test ss = true ∧ bits = encodeBlock bd test ss ++ rest := by
  induction left generalizing test bits ss with
  | zero =>
    cases h
    exact ⟨rfl, rfl⟩
  | succ left ih =>
    obtain ⟨rfl, rfl, rfl⟩ | ⟨s, r, r', ss', rfl, hs, hss, rfl⟩ := decodeBlock_cases h
    · exact ⟨(legalBlock_eob_iff rfl []).mpr ⟨rfl, rfl, rfl⟩, rfl⟩
    · obtain ⟨hlegal, rfl⟩ := ih hss
      obtain ⟨hne, hwf, rfl⟩ := decodeStmt_cases hs
      refine ⟨(legalBlock_token_iff hne ss').mpr ⟨hwf, hlegal⟩, ?_⟩
      rw [encodeBlock_token test hne, List.append_assoc, List.append_assoc]

/-- Settles O5: `decodeBlock_encodeBlock`, by induction on the positions left. -/
theorem blockDecodingInvertsItsBits : Obligations.BlockDecodingInvertsItsBits := by
  unfold Obligations.BlockDecodingInvertsItsBits
  exact fun _ _ _ _ rest h => decodeBlock_encodeBlock h rest

/-- Settles O6: `legalBlock_of_decodeBlock`, by induction on the positions left. -/
theorem blockDecodingIsUnambiguous : Obligations.BlockDecodingIsUnambiguous := by
  unfold Obligations.BlockDecodingIsUnambiguous
  exact fun _ _ _ _ _ _ h => legalBlock_of_decodeBlock h

end Sys2Proof
end

section
/-! The words of the instructions (30_encoding.md R91, R94, R103): which words command through CTRL, and that
every instruction with a word of its own is decoded from it; O1, O2, O3, O7. -/

namespace Sys2Proof

/-! ## Command words (R91) -/

/-- The words with bits 31:2 clear. -/
theorem reservedBits_eq_zero_iff (w : Word) : w.extractLsb' 2 30 = 0 ↔ w = 0 ∨ w = 1 ∨ w = 2 ∨ w = 3 := by
  have hw := w.isLt
  simp only [BitVec.toNat_eq, BitVec.extractLsb'_toNat, Nat.shiftRight_eq_div_pow,
    BitVec.ofNat_eq_ofNat, BitVec.toNat_ofNat]
  omega

/-- The three command words. -/
theorem decodeCtrl_eq (w : Word) : decodeCtrl w =
    if w = 1 then some .start else if w = 2 then some (.srst false)
    else if w = 3 then some (.srst true) else none := by
  by_cases h : w.extractLsb' 2 30 = 0
  · obtain rfl | rfl | rfl | rfl := (reservedBits_eq_zero_iff w).mp h <;> rfl
  · have hw : w ≠ 1 ∧ w ≠ 2 ∧ w ≠ 3 := by
      rw [reservedBits_eq_zero_iff] at h
      tauto
    obtain ⟨h1, h2, h3⟩ := hw
    rw [decodeCtrl, if_pos h, if_neg h1, if_neg h2, if_neg h3]

theorem decodeCtrl_start_iff (w : Word) : decodeCtrl w = some .start ↔ w = 1 := by
  rw [decodeCtrl_eq]
  split_ifs <;> simp_all

theorem decodeCtrl_srst_iff (w : Word) : (∃ b, decodeCtrl w = some (.srst b)) ↔ w = 2 ∨ w = 3 := by
  rw [decodeCtrl_eq]
  split_ifs <;> simp_all

theorem decodeCtrl_none_iff (w : Word) : decodeCtrl w = none ↔ ¬ (w = 1 ∨ w = 2 ∨ w = 3) := by
  rw [decodeCtrl_eq]
  split_ifs <;> simp_all

theorem decode_bus_ctrl (w : Word) : decode (.bus true 4 0x00 w) = .ok ((decodeCtrl w).getD (.csrwr .ctrl w)) :=
  rfl

/-- SRST's mask leaves bit 0 open. -/
theorem and_srstMask_iff (w : Word) : w &&& 0xFFFFFFFE#32 = 0x00000002#32 ↔ w = 2 ∨ w = 3 := by
  constructor
  · intro h
    have hres : w.extractLsb' 2 30 = 0 := by
      have hmask : (0xFFFFFFFE#32).extractLsb' 2 30 = BitVec.allOnes 30 := by decide
      calc w.extractLsb' 2 30 = (w &&& 0xFFFFFFFE#32).extractLsb' 2 30 := by
            rw [BitVec.extractLsb'_and, hmask, BitVec.and_allOnes]
        _ = 0 := by rw [h]; decide
    obtain rfl | rfl | hw := (reservedBits_eq_zero_iff w).mp hres
    · exact absurd h (by decide)
    · exact absurd h (by decide)
    · exact hw
  · rintro (rfl | rfl) <;> rfl

/-- Settles O1: the commands are those of `decodeCtrl_eq`, and the masks select their words. -/
theorem ctrlWordsDecodeByTheirLowBits : Obligations.CtrlWordsDecodeByTheirLowBits := by
  unfold Obligations.CtrlWordsDecodeByTheirLowBits
  refine ⟨fun w => ⟨fun h => ?_, fun h h1 => ?_, fun h h1 h0 => ?_, ?_, ?_, ?_, decode_bus_ctrl w⟩,
    Machine.decode_bus_read, fun r v hr => Machine.decode_bus_write hr v⟩
  · rw [decodeCtrl, if_pos h]
  · rw [decodeCtrl, if_neg (not_not_intro h), if_pos h1]
  · rw [decodeCtrl, if_neg (not_not_intro h), h1, if_neg Bool.false_ne_true, if_pos h0]
  · rintro rfl
    rfl
  · rw [decodeCtrl_srst_iff, and_srstMask_iff]
  · have hall : (0xFFFFFFFF#32 : Word) = BitVec.allOnes 32 := by decide
    rw [decodeCtrl_start_iff, hall, BitVec.and_allOnes]
    rfl

/-! ## Every instruction -/

/-- A write of CTRL that is no command is its own word. -/
theorem decode_encode_csrwr {r : CsrReg} {v : Word} (h : WellFormed (.csrwr r v)) :
    decode (encode (.csrwr r v)) = .ok (.csrwr r v) := by
  by_cases hr : r = .ctrl
  · subst hr
    have hnone : decodeCtrl v = none := by
      rw [decodeCtrl_none_iff]
      intro hv
      rw [WellFormed, Instr.illFormed, if_pos hv] at h
      cases h
    exact (decode_bus_ctrl v).trans (by rw [hnone, Option.getD_none])
  · exact Machine.decode_bus_write hr v

theorem decode_encode {i : Instr} (hwf : WellFormed i) (hown : i.hasOwnWord = true) :
    decode (encode i) = .ok i := by
  cases i with
  | srst b => cases b <;> rfl
  | csrrd r => exact Machine.decode_bus_read r 0
  | csrwr r v => exact decode_encode_csrwr hwf
  | readCat pv =>
    obtain rfl : pv = [] := List.isEmpty_iff.mp hown
    rfl
  | initCtx | rangeClamp | ctxUpdate | blockFinish => cases hown
  | _ => rfl

/-- Settles O2: `decode_encode`, by cases on the instruction. -/
theorem decodeInvertsEncode : Obligations.DecodeInvertsEncode := by
  unfold Obligations.DecodeInvertsEncode
  exact fun _ => decode_encode

/-- Settles O3: each encoding is the code of a state, whose operation the decoder gives. -/
theorem subOperationsStandUnderTheirState : Obligations.SubOperationsStandUnderTheirState := by
  unfold Obligations.SubOperationsStandUnderTheirState
  exact ⟨rfl, rfl, rfl, rfl, fun _ => rfl⟩

/-- Settles O7: the decoder evaluated on the eight words. -/
theorem writtenOutWordsDecode : Obligations.WrittenOutWordsDecode := by
  unfold Obligations.WrittenOutWordsDecode
  decide

end Sys2Proof
end

section
/-! A value token above ONE from its bits to the coefficient (30_encoding.md R93 to R98; 43_token_decoder.md R143 to
R165): what each operation on the way makes of the bits that the stream delivers; O57. -/

namespace Sys2Proof.Machine

/-! ## Runs -/

theorem run_succ {k : Nat} {s t : State} (h : step s = .next t) :
    Host.Core.run Sys2Proof.core (k + 1) s = Host.Core.run Sys2Proof.core k t := by
  simp only [Host.Core.run, Sys2Proof.core, h]

theorem run_add {j k : Nat} {s t : State} (h : Host.Core.run Sys2Proof.core j s = .next t) :
    Host.Core.run Sys2Proof.core (j + k) s = Host.Core.run Sys2Proof.core k t := by
  induction j generalizing s with
  | zero =>
    cases h
    rw [Nat.zero_add]
  | succ j ih =>
    cases hstep : step s with
    | next u =>
      rw [run_succ hstep] at h
      rw [Nat.succ_add, run_succ hstep, ih h]
    | fault | refused => simp [Host.Core.run, Sys2Proof.core, hstep] at h

section
variable {s : State} {bd : Nat}

/-- In a state other than CATX the step runs the operation of the state's code. -/
theorem step_of_st {a : St} {i : Instr} (hup : s.resetDone = true) (hin : s.inputs = []) (hst : s.st = a)
    (ha : a.busy = true ∧ a ≠ .catx) (hi : decode (.op a.code) = .ok i) : step s = exec i s := by
  subst hst
  exact step_eq_exec hup hin ha.1 (sequencerInstr_of_decode ha.2 hi)

/-! ## The two tests -/

theorem execZeroTest_of_notZero (h : s.par.Delivers [(s.x.p.zero, true)] s.bd bd) :
    execZeroTest s = .next ((s.setBd bd).setSt .onet) := by
  obtain ⟨hbit, rfl⟩ := h
  simp [execZeroTest, boolRead, hbit, zeroInd]

/-- `s` in HTOK, with the counters `cnt` and the stream at `bd`. -/
abbrev testsPassed (s : State) (cnt : Cells (BitVec 32)) (bd : Nat) : State :=
  ((s.setBd bd).setMem { s.mem with cnt := cnt }).setSt .htok

theorem execOneTest_of_notOne (h : s.par.Delivers [(s.x.p.one, true)] s.bd bd)
    (hcount : CounterReady s s.mem.cnt (s.cntHere .more)) :
    ∃ m, execOneTest s = .next (testsPassed s m bd) := by
  obtain ⟨hbit, rfl⟩ := h
  have hread : boolRead s.x.p.one s = (true, s.setBd (s.par.boolDecAt s.bd s.x.p.one).2) := by
    rw [boolRead, hbit]
  obtain ⟨t, ht⟩ := incCnt_completes (k := .more) (s := s.setBd (s.par.boolDecAt s.bd s.x.p.one).2) hcount
  obtain ⟨⟨m, rfl⟩, -⟩ := incCnt_counted ht
  refine ⟨m, ?_⟩
  simp only [execOneTest, hread, ht]
  rfl

/-- Two steps from ZEROT to HTOK, where the bits say neither ZERO nor ONE. -/
theorem run_tests {bd' : Nat} (hup : s.resetDone = true) (hin : s.inputs = []) (hst : s.st = .zerot)
    (hzero : s.par.Delivers [(s.x.p.zero, true)] s.bd bd) (hone : s.par.Delivers [(s.x.p.one, true)] bd bd')
    (hcount : CounterReady s s.mem.cnt (s.cntHere .more)) :
    ∃ m, Host.Core.run Sys2Proof.core 2 s = .next (testsPassed s m bd') := by
  have hstep : step s = exec .zeroTest s := step_of_st hup hin hst (by decide) rfl
  have hzt := hstep.trans (execZeroTest_of_notZero hzero)
  obtain ⟨m, hexec⟩ := execOneTest_of_notOne (s := (s.setBd bd).setSt .onet) hone hcount
  have hstep' : step ((s.setBd bd).setSt .onet) = exec .oneTest _ := step_of_st hup hin rfl ⟨rfl, nofun⟩ rfl
  exact ⟨m, by rw [run_succ hzt, run_succ (hstep'.trans hexec)]; rfl⟩

/-! ## The value -/

theorem length_extVector {tab : Tables} {b : BitVec 4} {tok : Token} {vec : List Prob}
    (h : tab.extVector b tok = some vec) : vec.length ≤ 18 := by
  cases tok
  case cat6 =>
    obtain ⟨w, hw, rfl⟩ := Option.map_eq_some_iff.mp h
    have hle : w ≤ 18 := by
      unfold cat6Bits at hw
      split_ifs at hw <;> cases hw <;> decide
    simpa [Tables.cat6Vector] using hle
  all_goals
    cases h
    simp [Tables.catVector, catBits]

/-- A category token reads its vector and adds its base (R155 to R160). -/
theorem exec_category {tok : Token} {vec : List Prob} (hcat : tok.isCategory)
    (hvec : s.tab.extVector s.csr.bd tok = some vec) :
    ∃ k, exec tok.instr s = .next (readCategory k vec s) ∧ catBase k ≤ 67 ∧ ∀ e, tok.magnitude e = catBase k + e := by
  obtain rfl | rfl | rfl | rfl | rfl | rfl := hcat
  case inr.inr.inr.inr.inr =>
    obtain ⟨w, hw, rfl⟩ := Option.map_eq_some_iff.mp hvec
    refine ⟨6, ?_, by decide, fun _ => rfl⟩
    simp only [Token.instr, exec, execCat6, hw]
  all_goals
    cases hvec
    exact ⟨_, rfl, by decide, fun _ => rfl⟩

/-- `s` in DQS, with a token, its extension and its magnitude loaded and the stream at `bd`. -/
abbrev valueLoaded (s : State) (tok : Token) (ext : BitVec 18) (biti : BitVec 5) (val : BitVec 19)
    (bd : Nat) : State :=
  ((s.setX { s.x with token := tok, ext := ext, biti := biti, val := val }).setBd bd).setSt .dqs

/-- In CATX the token that TOKEN holds is loaded with its extension. -/
theorem exec_category_of_delivers {vec : List Prob} {ext : List Bool} (hcat : s.x.token.isCategory)
    (hvec : s.tab.extVector s.csr.bd s.x.token = some vec) (hlen : ext.length = vec.length)
    (hd : s.par.Delivers (vec.zip ext) s.bd bd) :
    ∃ e n val, exec s.x.token.instr s = .next (valueLoaded s s.x.token e n val bd) ∧
      val.toNat = s.x.token.magnitude (ofBitsMsb ext) := by
  obtain ⟨k, hexec, hbase, hmag⟩ := exec_category hcat hvec
  have hbits : s.par.bitsRead vec s.bd = (ext, bd) := bitsRead_of_delivers _ _ _ _ _ hlen hd
  have hval := readCategory_val k vec s hbase (length_extVector hvec)
  rw [hbits] at hval
  have hloaded : readCategory k vec s = valueLoaded s s.x.token (readCategory k vec s).x.ext
      (readCategory k vec s).x.biti (readCategory k vec s).x.val bd := by
    simp only [readCategory_eq, hbits]
    rfl
  exact ⟨_, _, _, hexec.trans (congrArg _ hloaded), hval.trans (hmag _).symm⟩

theorem dequantize_toNat_div (val : BitVec 19) (q : BitVec 16) (tx : BitVec 2) :
    (dequantize val q tx).toNat = val.toNat * q.toNat / if tx = 3 then 2 else 1 := by
  rw [dequantize_toNat, txMax]
  split
  · rfl
  · rw [Nat.div_one]

/-- `s` in WRC, with the magnitude in VAL dequantized and signed and the stream at `bd`. -/
abbrev coefReady (s : State) (neg : Bool) (bd : Nat) : State :=
  ((s.setBd bd).setX { s.x with
    v := dequantize s.x.val s.quantizer s.csr.tx
    coefv := applySign (dequantize s.x.val s.quantizer s.csr.tx) neg }).setSt .wrc

/-- DEQUANT_SIGN without RANGE_CLAMP, on a stream that delivers the sign (R165). -/
theorem execDequantSign_of_sign {neg : Bool} (h : s.par.Delivers [(128#8, neg)] s.bd bd)
    (hrange : s.csr.rangeEn = false) :
    execDequantSign s = .next (coefReady s neg bd) := by
  obtain ⟨hbit, rfl⟩ := h
  have hread : boolRead probHalf s = (neg, s.setBd (s.par.boolDecAt s.bd 128#8).2) := by
    rw [boolRead, probHalf]
    exact Prod.ext hbit rfl
  simp [execDequantSign, hread, hrange]

/-! ## The token above ONE -/

/-- `s` with a token in TOKEN and the stream at `bd`. -/
abbrev tokenRead (s : State) (tok : Token) (bd : Nat) : State :=
  (s.setBd bd).setX { s.x with token := tok }

section
variable {path : List (Prob × Bool)} {tok : HigherTok}
  (hpath : HTree.Path (s.par.higherTokenAt s.x.p.pivot) path tok) (hd : s.par.Delivers path s.bd bd)
include hpath hd

/-- HIGHER_TOKEN goes on in CATX with a category (R145). -/
theorem execHigherToken_category (hcat : tok.token.isCategory) :
    execHigherToken s = .next ((tokenRead s tok.token bd).setSt .catx) := by
  rw [execHigherToken, runTree_of_path _ _ _ _ _ _ hpath hd]
  cases tok
  case two | three | four => simp [HigherTok.token, Token.isCategory] at hcat
  all_goals rfl

/-- HIGHER_TOKEN loads the ordinal of TWO, THREE and FOUR (R145, R152 to R154). -/
theorem execHigherToken_small (hcat : ¬ tok.token.isCategory) : execHigherToken s =
    .next (setVal (BitVec.ofNat 19 (tok.token.magnitude 0)) (tokenRead s tok.token bd)) := by
  rw [execHigherToken, runTree_of_path _ _ _ _ _ _ hpath hd]
  cases tok
  case two | three | four => rfl
  all_goals simp [HigherTok.token, Token.isCategory] at hcat

end

theorem extVector_of_not_isCategory {tab : Tables} {b : BitVec 4} {tok : Token} (hcat : ¬ tok.isCategory) :
    tab.extVector b tok = some [] := by
  cases tok
  case cat1 | cat2 | cat3 | cat4 | cat5 | cat6 => simp [Token.isCategory] at hcat
  all_goals rfl

/-- From HTOK the token and its extension are read in one or two steps. -/
theorem run_higherToken {path : List (Prob × Bool)} {tok : HigherTok} {vec : List Prob} {ext : List Bool}
    {bd' : Nat} (hup : s.resetDone = true) (hin : s.inputs = []) (hst : s.st = .htok)
    (hpath : HTree.Path (s.par.higherTokenAt s.x.p.pivot) path tok)
    (hvec : s.tab.extVector s.csr.bd tok.token = some vec) (hlen : ext.length = vec.length)
    (hd : s.par.Delivers path s.bd bd) (hext : s.par.Delivers (vec.zip ext) bd bd') :
    ∃ k e n val, k ≤ 2 ∧ Host.Core.run Sys2Proof.core k s = .next (valueLoaded s tok.token e n val bd') ∧
      val.toNat = tok.token.magnitude (ofBitsMsb ext) := by
  have hstep : step s = exec .higherToken s := step_of_st hup hin hst (by decide) rfl
  change step s = execHigherToken s at hstep
  by_cases hcat : tok.token.isCategory
  · rw [execHigherToken_category hpath hd hcat] at hstep
    obtain ⟨e, n, val, hexec, hval⟩ :=
      exec_category_of_delivers (s := (tokenRead s tok.token bd).setSt .catx) hcat hvec hlen hext
    have hcatx := (step_eq_exec (s := (tokenRead s tok.token bd).setSt .catx) hup hin rfl
      (sequencerInstr_catx hcat)).trans hexec
    exact ⟨2, e, n, val, Nat.le_refl _, by rw [run_succ hstep, run_succ hcatx]; rfl, hval⟩
  · rw [execHigherToken_small hpath hd hcat] at hstep
    cases hvec.symm.trans (extVector_of_not_isCategory hcat)
    obtain rfl := List.length_eq_zero_iff.mp hlen
    obtain rfl : bd = bd' := hext
    refine ⟨1, s.x.ext, s.x.biti, _, by decide, by rw [run_succ hstep]; rfl, ?_⟩
    cases tok <;> rfl

end

/-- Settles O57: the zero test and the one test let the token through, `run_higherToken` loads its magnitude, and
DEQUANT_SIGN makes the coefficient of it. -/
theorem valueTokenIsDecodedFromItsBits : Obligations.ValueTokenIsDecodedFromItsBits := by
  unfold Obligations.ValueTokenIsDecodedFromItsBits
  intro s path tok vec ext neg bd' hup hin hst hrange hcount hpath hvec hlen hd
  obtain ⟨b4, hd, hsign⟩ := (delivers_append _ _ _ _ _).mp hd
  obtain ⟨b3, hd, hext⟩ := (delivers_append _ _ _ _ _).mp hd
  obtain ⟨b2, hd, hhigher⟩ := (delivers_append _ _ _ _ _).mp hd
  obtain ⟨b1, hzero, hone⟩ := (delivers_append _ [_] [_] _ _).mp hd
  obtain ⟨m, htests⟩ := run_tests hup hin hst hzero hone hcount
  obtain ⟨k, e, n, val, hk, hhtok, hval⟩ :=
    run_higherToken (s := testsPassed s m b2) hup hin rfl hpath hvec hlen hhigher hext
  have hdqs : step (valueLoaded (testsPassed s m b2) tok.token e n val b4) = exec .dequantSign _ :=
    step_of_st hup hin rfl ⟨rfl, nofun⟩ rfl
  have hsigned := hdqs.trans (execDequantSign_of_sign hsign hrange)
  refine ⟨2 + (k + 1), coefReady (valueLoaded (testsPassed s m b2) tok.token e n val b4) neg bd', by omega, ?_,
    rfl, rfl, rfl, hval, ?_, rfl, rfl, rfl, rfl, rfl, rfl⟩
  · rw [run_add htests, run_add hhtok, run_succ hsigned]
    rfl
  · exact (applySign_toInt _ neg).trans (by rw [dequantize_toNat_div]; rfl)

end Sys2Proof.Machine
end

section
/-! The category value reader (41_category_value_reader.md R120 to R123): EXT and BITI hold the bits read and their
count without loss, as a well-formed vector is no longer than EXT is wide; O30. -/

namespace Sys2Proof.Machine

/-- A word holds the number of as many bits as it is wide. -/
theorem toNat_ofBitsMsb {w : Nat} {bits : List Bool} (h : bits.length ≤ w) :
    (BitVec.ofNat w (ofBitsMsb bits)).toNat = ofBitsMsb bits :=
  (BitVec.toNat_ofNat ..).trans <|
    Nat.mod_eq_of_lt ((ofBitsMsb_lt bits).trans_le (Nat.pow_le_pow_right Nat.two_pos h))

/-- EXT after READ_CAT is the number that the bits read spell. -/
theorem readCat_ext_toNat {pv : List Prob} (h : pv.length ≤ 18) (s : State) :
    (readCat pv s).x.ext.toNat = ofBitsMsb (s.par.bitsRead pv s.bd).1 := by
  rw [readCat_eq]
  exact toNat_ofBitsMsb ((length_bitsRead ..).trans_le h)

/-- BITI after READ_CAT counts the bits read. -/
theorem readCat_biti_toNat {pv : List Prob} (h : pv.length ≤ 18) (s : State) :
    (readCat pv s).x.biti.toNat = pv.length := by
  rw [readCat_eq]
  exact (BitVec.toNat_ofNat ..).trans (Nat.mod_eq_of_lt (by omega))

/-- READ_CAT leaves the bool decoder where reading its vector leaves it. -/
theorem readCat_bd (pv : List Prob) (s : State) : (readCat pv s).bd = (s.par.bitsRead pv s.bd).2 := by
  rw [readCat_eq]
  rfl

/-- Settles O30: the bits are those of `Params.bitsRead`, which the stream delivers (`delivers_bitsRead`);
`readCat_eq` is the frame. -/
theorem readCatReadsExactlyItsVector : Obligations.ReadCatReadsExactlyItsVector := by
  unfold Obligations.ReadCatReadsExactlyItsVector
  intro s pv hlen
  have hcount : (s.par.bitsRead pv s.bd).1.length = pv.length := length_bitsRead ..
  have hext := readCat_ext_toNat hlen s
  refine ⟨readCat pv s, (s.par.bitsRead pv s.bd).1, rfl, hcount, ?delivers, hext, ?bound,
    readCat_biti_toNat hlen s, ?frame⟩
  case delivers => exact readCat_bd pv s ▸ delivers_bitsRead ..
  case bound => exact hext ▸ hcount ▸ ofBitsMsb_lt _
  case frame =>
    rw [readCat_eq]
    rfl

end Sys2Proof.Machine
end

section
/-! The context tracker (42_context_tracker.md R131, R133): CTX_UPDATE is refused without both neighbours, O42; a
slice read is determined by its length and its elements, O43. -/

namespace Sys2Proof.Machine

/-- A slice reads as a list exactly when the list has its length and its elements. -/
theorem Cells.readSlice_eq_some_iff {α : Type} {m : Cells α} {lo n : Nat} {vs : List α} :
    m.readSlice lo n = some vs ↔ vs.length = n ∧ ∀ i, i < n → vs[i]? = m.read (lo + i) := by
  refine ⟨getElem?_readSlice m lo n vs, ?_⟩
  rintro ⟨rfl, hget⟩
  induction vs generalizing lo with
  | nil => rfl
  | cons v vs ih =>
    have hv : m.read lo = some v := (hget 0 (Nat.succ_pos _)).symm
    have hvs : m.readSlice (lo + 1) vs.length = some vs :=
      ih fun i hi => (hget (i + 1) (Nat.succ_lt_succ hi)).trans (by rw [Nat.add_right_comm, Nat.add_assoc])
    simp [readSlice, hv, hvs]

/-- CTX_UPDATE refuses a neighbour without a cache entry. -/
theorem ctxUpdate_of_none {s : State}
    (h : s.tc.read (s.nbPos s.x.c.toNat false).toNat = none ∨ s.tc.read (s.nbPos s.x.c.toNat true).toNat = none) :
    ctxUpdate s = .refused .nbIllFormed := by
  unfold ctxUpdate
  split
  case h_1 e0 e1 h0 h1 => simp [h0, h1] at h
  case h_2 => rfl

/-- Settles O42: `exec` runs `ctxUpdate`, whose two cases are `ctxUpdate_of_read` and `ctxUpdate_of_none`. -/
theorem ctxUpdateReadsTwoNeighbours : Obligations.CtxUpdateReadsTwoNeighbours := by
  unfold Obligations.CtxUpdateReadsTwoNeighbours
  exact fun s => ⟨fun e0 e1 h0 h1 => ctxUpdate_of_read h0 h1, ctxUpdate_of_none⟩

/-- Settles O43: each list is the slice that INIT_CTX reads (`Cells.readSlice_eq_some_iff`). -/
theorem initCtxReadsTheTwoSlices : Obligations.InitCtxReadsTheTwoSlices := by
  unfold Obligations.InitCtxReadsTheTwoSlices
  intro s p a l hp halen hllen ha hl
  have habove := Cells.readSlice_eq_some_iff.mpr ⟨halen, ha⟩
  have hleft := Cells.readSlice_eq_some_iff.mpr ⟨hllen, hl⟩
  exact initCtx_of_slices hp habove hleft

end Sys2Proof.Machine
end

section
/-! The operations of the token decoder that count (43_token_decoder.md R142, R144, R149, R151): what `INC` does where
its counter holds a value, and one bool read; O25, O26, O35 and O37. -/

namespace Sys2Proof.Machine

theorem Counted.nil (en : Bool) (m : Cells (BitVec 32)) : Counted en m m [] := fun _ => by simp

section
variable {s : State} {bd : Nat} {b : Bool}

/-- A bool read on a stream that delivers its bit. -/
theorem boolRead_of_delivers {p : Prob} (h : s.par.Delivers [(p, b)] s.bd bd) : boolRead p s = (b, s.setBd bd) := by
  obtain ⟨hbit, rfl⟩ := h
  rw [boolRead, hbit]

theorem incCnt_of_ready {k : CntKind} (h : CounterReady s s.mem.cnt (s.cntHere k)) :
    ∃ m, incCnt k s = .next (s.setMem { s.mem with cnt := m }) ∧
      Counted s.csr.statsEn s.mem.cnt m [s.cntHere k] := by
  obtain ⟨t, ht⟩ := incCnt_completes h
  obtain ⟨⟨m, rfl⟩, hc⟩ := incCnt_counted ht
  exact ⟨m, ht, hc⟩

theorem incEobbr_of_ready (h : CounterReady s s.mem.eobbr s.eobbrHere) :
    ∃ m, incEobbr s = .next (s.setMem { s.mem with eobbr := m }) ∧
      Counted s.csr.statsEn s.mem.eobbr m [s.eobbrHere] := by
  obtain ⟨t, ht⟩ := incEobbr_completes h
  obtain ⟨⟨m, rfl⟩, hc⟩ := incEobbr_counted ht
  exact ⟨m, ht, hc⟩

/-! ## EOB -/

theorem execEob_of_ready (h : CounterReady s s.mem.cnt (s.cntHere .eob)) :
    ∃ m, execEob s = .next ((s.setMem { s.mem with cnt := m }).setSt .edge) ∧
      Counted s.csr.statsEn s.mem.cnt m [s.cntHere .eob] := by
  obtain ⟨m, hinc, hc⟩ := incCnt_of_ready h
  exact ⟨m, by rw [execEob, hinc, andThen_next], hc⟩

/-- EOB_TEST on a bit: the branch is counted and the stream stands at `bd`, then the bit decides. -/
theorem execEobTest_of_delivers (hd : s.par.Delivers [(s.x.p.eob, b)] s.bd bd)
    (h : CounterReady s s.mem.eobbr s.eobbrHere) :
    ∃ m, Counted s.csr.statsEn s.mem.eobbr m [s.eobbrHere] ∧
      execEobTest s = if b = false then execEob ((s.setMem { s.mem with eobbr := m }).setBd bd)
        else .next (((s.setMem { s.mem with eobbr := m }).setBd bd).setSt .zerot) := by
  obtain ⟨m, hinc, hc⟩ := incEobbr_of_ready h
  have hread := boolRead_of_delivers (s := s.setMem { s.mem with eobbr := m }) hd
  exact ⟨m, hc, by rw [execEobTest, hinc, andThen_next, State.setMem_x, hread]; rfl⟩

/-! ## ONE -/

theorem execOne_of_ready (h : CounterReady s s.mem.cnt (s.cntHere .one)) :
    ∃ m, execOne s =
        .next (((s.setMem { s.mem with cnt := m }).setX { s.x with token := .one, val := 1 }).setSt .dqs) ∧
      Counted s.csr.statsEn s.mem.cnt m [s.cntHere .one] := by
  obtain ⟨m, hinc, hc⟩ := incCnt_of_ready h
  exact ⟨m, by rw [execOne, hinc, andThen_next]; rfl, hc⟩

/-- ONE_TEST on a bit: the stream stands at `bd`, then the bit decides. -/
theorem execOneTest_of_delivers (hd : s.par.Delivers [(s.x.p.one, b)] s.bd bd) :
    execOneTest s = if b = false then execOne (s.setBd bd)
      else andThen (incCnt .more (s.setBd bd)) fun t => .next (t.setSt .htok) := by
  rw [execOneTest, boolRead_of_delivers hd]
  rfl

end

/-! ## The obligations -/

/-- Settles O25: `execEob_of_ready`, whose next state shows what it changes. -/
theorem eobEndsTheBlock : Obligations.EobEndsTheBlock := by
  unfold Obligations.EobEndsTheBlock
  intro s hready
  obtain ⟨m, hexec, hc⟩ := execEob_of_ready hready
  exact ⟨_, hexec, rfl, rfl, rfl, rfl, rfl, rfl, by constructor <;> rfl, rfl, rfl, rfl, hc, .nil _ _⟩

/-- Settles O26: `execOne_of_ready`, whose next state shows what it changes. -/
theorem oneHasMagnitudeOne : Obligations.OneHasMagnitudeOne := by
  unfold Obligations.OneHasMagnitudeOne
  intro s hready
  obtain ⟨m, hexec, hc⟩ := execOne_of_ready hready
  exact ⟨_, hexec, rfl, rfl, rfl, rfl, rfl, rfl, by constructor <;> rfl, rfl, rfl, rfl, hc, .nil _ _⟩

/-- Settles O35: on bit 0 the token EOB runs in the state in which the branch is counted and the bit read. -/
theorem eobTestReadsOneBit : Obligations.EobTestReadsOneBit := by
  unfold Obligations.EobTestReadsOneBit
  intro s b bd' hd hbranch heob
  obtain ⟨m, hc, hexec⟩ := execEobTest_of_delivers hd hbranch
  cases b with
  | false =>
    obtain ⟨m', hexec', hc'⟩ :=
      execEob_of_ready (s := (s.setMem { s.mem with eobbr := m }).setBd bd') (heob rfl)
    exact ⟨_, hexec.trans hexec', rfl, rfl, rfl, rfl, rfl, rfl, by constructor <;> rfl, rfl, rfl, rfl, hc', hc⟩
  | true =>
    exact ⟨_, hexec, rfl, rfl, rfl, rfl, rfl, rfl, by constructor <;> rfl, rfl, rfl, rfl, .nil _ _, hc⟩

/-- Settles O37: in the state in which the bit is read, bit 0 runs the token ONE and bit 1 counts MORE. -/
theorem oneTestReadsOneBit : Obligations.OneTestReadsOneBit := by
  unfold Obligations.OneTestReadsOneBit
  intro s b bd' hd hready
  have hexec := execOneTest_of_delivers hd
  cases b with
  | false =>
    obtain ⟨m, hexec', hc⟩ := execOne_of_ready (s := s.setBd bd') hready
    exact ⟨_, hexec.trans hexec', rfl, rfl, rfl, rfl, rfl, rfl, by constructor <;> rfl, rfl, rfl, rfl, hc, .nil _ _⟩
  | true =>
    obtain ⟨m, hinc, hc⟩ := incCnt_of_ready (s := s.setBd bd') (k := .more) hready
    rw [if_neg nofun, hinc, andThen_next] at hexec
    exact ⟨_, hexec, rfl, rfl, rfl, rfl, rfl, rfl, by constructor <;> rfl, rfl, rfl, rfl, hc, .nil _ _⟩

end Sys2Proof.Machine
end

section
/-! A ZERO token (43_token_decoder.md R150): its effect at the last position, before it, and where a neighbour of the
position entered has no cache entry; O28 and O29. -/

namespace Sys2Proof.Machine

/-- Under PER_POSITION the branch counter of the position that ZERO enters is counted. -/
def countEntered (s : State) : Result :=
  match s.par.eobbrPolicy with
  | .perPosition => incEobbr s
  | .perEobTest => .next s

/-- The branch counters that ZERO counts at the band and context of `s`. -/
def enteredCounters (s : State) : List Nat :=
  match s.par.eobbrPolicy with
  | .perPosition => [s.eobbrHere]
  | .perEobTest => []

theorem countEntered_of_ready {s : State}
    (h : s.par.eobbrPolicy = .perPosition → CounterReady s s.mem.eobbr s.eobbrHere) :
    ∃ m, countEntered s = .next (s.setMem { s.mem with eobbr := m }) ∧
      Counted s.csr.statsEn s.mem.eobbr m (enteredCounters s) := by
  unfold countEntered enteredCounters
  split
  case h_1 hpol => exact incEobbr_of_ready (h hpol)
  case h_2 => exact ⟨s.mem.eobbr, rfl, .nil _ _⟩

/-- The state in which a ZERO token that was counted in `u` has entered the next position, with the context `ctx`. -/
def zeroEntered (u : State) (ctx : BitVec 3) : State :=
  latchProbs ((zeroWritten u).setX { (zeroWritten u).x with ctx := ctx })

theorem zeroEntered_x (u : State) (ctx : BitVec 3) : (zeroEntered u ctx).x = { u.x with
    dqsel := u.par.zrunDq.apply u.x.dqsel
    pos := u.scanPos u.x.c.toNat
    c := u.x.c + 1
    ctx := ctx
    band := u.tab.bandAt u.csr.tx (u.x.c + 1).toNat
    p := u.tab.probAt u.csr.tx u.csr.ptype u.csr.ref (u.tab.bandAt u.csr.tx (u.x.c + 1).toNat) ctx } := rfl

theorem zeroEntered_frame (u : State) (ctx : BitVec 3) : (zeroEntered u ctx).tc = (zeroWritten u).tc ∧
    (zeroEntered u ctx).csr = u.csr ∧ (zeroEntered u ctx).bd = u.bd ∧
    (zeroEntered u ctx).clamped = u.clamped :=
  ⟨rfl, rfl, rfl, rfl⟩

section
variable {s u : State} (hu : incCnt .zero s = .next u)
include hu

theorem zeroEffect_last (hc : u.x.c + 1 = u.x.maxeob) : zeroEffect s = .next ((zeroWritten u).setSt .edge) := by
  rw [zeroEffect, hu, andThen_next]
  exact if_pos hc

/-- Before the last position ZERO goes on with CTX_UPDATE, the latches and the count of the position entered. -/
theorem zeroEffect_before (hc : u.x.c + 1 ≠ u.x.maxeob) :
    zeroEffect s = andThen (ctxUpdate (zeroWritten u)) fun v =>
      andThen (countEntered (latchProbs v)) fun w => .next (w.setSt .zerot) := by
  rw [zeroEffect, hu, andThen_next]
  refine (if_neg hc).trans (congrArg _ (funext fun v => ?_))
  unfold countEntered
  dsimp only
  cases (latchProbs v).par.eobbrPolicy <;> rfl

/-- Before the last position a ZERO token enters the next one: CTX is that of the neighbours' cache entries, and the
band and the probabilities are latched. -/
theorem zeroEffect_enters {e0 e1 : BitVec 3} (hc : u.x.c + 1 ≠ u.x.maxeob)
    (h0 : (zeroWritten u).tc.read (u.nbPos (u.x.c + 1).toNat false).toNat = some e0)
    (h1 : (zeroWritten u).tc.read (u.nbPos (u.x.c + 1).toNat true).toNat = some e1)
    (hready : u.par.eobbrPolicy = .perPosition → CounterReady u u.mem.eobbr
      (zeroEntered u (u.par.ctxForAt e0 e1)).eobbrHere) :
    ∃ m, zeroEffect s =
        .next (((zeroEntered u (u.par.ctxForAt e0 e1)).setMem { u.mem with eobbr := m }).setSt .zerot) ∧
      Counted u.csr.statsEn u.mem.eobbr m (enteredCounters (zeroEntered u (u.par.ctxForAt e0 e1))) := by
  obtain ⟨m, hcount, hm⟩ := countEntered_of_ready (s := zeroEntered u (u.par.ctxForAt e0 e1)) hready
  refine ⟨m, ?_, hm⟩
  rw [zeroEffect_before hu hc, ctxUpdate_of_read (s := zeroWritten u) h0 h1, andThen_next]
  change andThen (countEntered (zeroEntered u (u.par.ctxForAt e0 e1))) _ = _
  rw [hcount]
  rfl

end

/-- The token ZERO and the operation ZERO_ADVANCE have one effect. -/
theorem exec_zero_eq {i : Instr} (hi : i = .zero ∨ i = .zeroAdvance) (s : State) : exec i s = zeroEffect s := by
  obtain rfl | rfl := hi <;> rfl

/-- Settles O28: `zeroEffect_last`, whose next state shows what it changes. -/
theorem zeroAtTheLastPosition : Obligations.ZeroAtTheLastPosition := by
  unfold Obligations.ZeroAtTheLastPosition
  intro s i hi hlast hready
  obtain ⟨m, hinc, hc⟩ := incCnt_of_ready hready
  refine ⟨_, (exec_zero_eq hi s).trans (zeroEffect_last hinc hlast), rfl, rfl, fun q => Cells.read_write .., rfl,
    rfl, rfl, by constructor <;> rfl, rfl, rfl, rfl, hc, .nil _ _⟩

/-- Settles O29: `zeroEffect_enters`, where CTX_UPDATE reads the cache with the position's entry written; without both
entries it refuses (`zeroEffect_before`). -/
theorem zeroBeforeTheLastPosition : Obligations.ZeroBeforeTheLastPosition := by
  unfold Obligations.ZeroBeforeTheLastPosition
  intro s i ctx' band' hi hbefore hready pos n0 n1 cache
  obtain ⟨m, hinc, hc⟩ := incCnt_of_ready hready
  have hcache : ∀ q, (zeroWritten (s.setMem { s.mem with cnt := m })).tc.read q = cache q :=
    fun q => Cells.read_write ..
  rw [exec_zero_eq hi]
  refine ⟨fun e0 e1 h0 h1 hctx hband hbranch => ?_, fun hnone => ?_⟩
  · subst hctx hband
    obtain ⟨m', hexec, hc'⟩ :=
      zeroEffect_enters hinc hbefore ((hcache _).trans h0) ((hcache _).trans h1) hbranch
    obtain ⟨htc, hcsr, hbd, hclamped⟩ :=
      zeroEntered_frame (s.setMem { s.mem with cnt := m }) (s.par.ctxForAt e0 e1)
    have haround := (zeroEffect_sameBlock s _ hexec).around
    exact ⟨_, hexec, rfl, zeroEntered_x _ _, fun q => htc ▸ hcache q, hcsr, hbd, hclamped, haround, rfl, rfl, rfl,
      hc, hc'⟩
  · rw [zeroEffect_before hinc hbefore, ctxUpdate_of_none (hnone.imp (hcache _).trans (hcache _).trans)]
    rfl

end Sys2Proof.Machine
end

section
/-! The tokens and operations that read the stream without counting, and BAND_CTX_SELECT (43_token_decoder.md R141,
R143, R145, R152 to R160); O27, O31, O32, O34, O36 and O38. -/

namespace Sys2Proof.Machine

/-! ## Categories -/

/-- A category token with a vector of `n` probabilities: what it reads and what it loads. -/
theorem readCategory_loads {k base n : Nat} {pv : List Prob} (hk : catBase k = base) (hbase : base ≤ 67)
    (hpv : pv.length = n) (hn : n ≤ 18) (s : State) :
    ∃ bits : List Bool, bits.length = n ∧ s.par.Delivers (pv.zip bits) s.bd (readCategory k pv s).bd ∧
      (readCategory k pv s).x.val.toNat = base + ofBitsMsb bits ∧
      (readCategory k pv s).x.ext.toNat = ofBitsMsb bits ∧ (readCategory k pv s).x.biti.toNat = n ∧
      readCategory k pv s = { s with
        x := { s.x with
          ext := (readCategory k pv s).x.ext
          biti := (readCategory k pv s).x.biti
          val := (readCategory k pv s).x.val }
        bd := (readCategory k pv s).bd
        st := .dqs } := by
  subst hk hpv
  refine ⟨(s.par.bitsRead pv s.bd).1, length_bitsRead .., ?delivers, readCategory_val k pv s hbase hn,
    readCat_ext_toNat hn s, readCat_biti_toNat hn s, ?frame⟩
  case delivers =>
    rw [readCategory_eq]
    exact delivers_bitsRead ..
  case frame => rw [readCategory_eq]

/-- Settles O31: `readCategory_loads` with the vector and the base of each category. -/
theorem categoriesLoadBasePlusExtension : Obligations.CategoriesLoadBasePlusExtension := by
  unfold Obligations.CategoriesLoadBasePlusExtension
  intro s i k base hrow
  have hcat : exec i s = .next (readCategory k (s.tab.catVector k) s) ∧ catBase k = base ∧ base ≤ 67 ∧
      catBits k = k ∧ k ≤ 18 := by
    obtain h | h | h | h | h := hrow <;> cases h <;> exact ⟨rfl, rfl, by decide, rfl, by decide⟩
  obtain ⟨hexec, hk, hbase, hbits, hle⟩ := hcat
  have hvec : s.tab.catVector k = (List.range k).map (s.tab.catpAt k) := by rw [Tables.catVector, hbits]
  rw [hvec] at hexec
  obtain ⟨bits, hloads⟩ := readCategory_loads (pv := (List.range k).map (s.tab.catpAt k)) hk hbase (by simp) hle s
  exact ⟨_, bits, hexec, hloads⟩

/-- Settles O32: `readCategory_loads` with the vector of the bit depth's width. -/
theorem category6WidthFollowsTheBitDepth : Obligations.Category6WidthFollowsTheBitDepth := by
  unfold Obligations.Category6WidthFollowsTheBitDepth
  intro s w hdepth
  have hwidth : cat6Bits s.csr.bd = some w ∧ w ≤ 18 := by
    obtain ⟨h, rfl⟩ | ⟨h, rfl⟩ | ⟨h, rfl⟩ := hdepth <;> rw [h] <;> decide
  obtain ⟨hw, hle⟩ := hwidth
  have hexec : exec .cat6 s = .next (readCategory 6 (s.tab.cat6Vector s.csr.bd w) s) := by
    simp only [exec, execCat6, hw]
  obtain ⟨bits, hloads⟩ := readCategory_loads (k := 6) (pv := s.tab.cat6Vector s.csr.bd w) rfl (by decide)
    (by simp [Tables.cat6Vector]) hle s
  exact ⟨_, bits, hexec, hloads⟩

/-- Settles O27: each of the three is `setVal` of its ordinal. -/
theorem smallTokensLoadTheirOrdinal : Obligations.SmallTokensLoadTheirOrdinal := by
  unfold Obligations.SmallTokensLoadTheirOrdinal
  exact fun s => ⟨rfl, rfl, rfl⟩

/-! ## The operations of the states -/

/-- Settles O34: `latchProbs_eq`. -/
theorem bandSelectLatchesTheRow : Obligations.BandSelectLatchesTheRow := by
  unfold Obligations.BandSelectLatchesTheRow
  intro s
  change Host.Outcome.next ((latchProbs s).setSt .eobt) = _
  rw [latchProbs_eq]
  rfl

/-- Settles O36: whatever bit is delivered, it alone decides between the two states. -/
theorem zeroTestReadsOneBit : Obligations.ZeroTestReadsOneBit := by
  unfold Obligations.ZeroTestReadsOneBit
  intro s
  obtain ⟨b, bd, hread, hd⟩ := boolRead_cases s.x.p.zero s
  have hexec : execZeroTest s = .next ((s.setBd bd).setSt (if b = false then .zadv else .onet)) := by
    rw [execZeroTest, hread]
    cases b <;> rfl
  exact ⟨_, b, hexec, hd, rfl⟩

/-- Settles O38: the run of the pivot's tree follows a path (`runTree_cases`), whose token decides. -/
theorem higherTokenFollowsThePivot : Obligations.HigherTokenFollowsThePivot := by
  unfold Obligations.HigherTokenFollowsThePivot
  intro s
  obtain ⟨path, hpath, hd⟩ := runTree_cases s.par (s.par.higherTokenAt s.x.p.pivot) s.bd
  simp only [exec, execHigherToken]
  generalize runTree s.par (s.par.higherTokenAt s.x.p.pivot) s.bd = r at *
  obtain ⟨tok, bd⟩ := r
  cases tok <;> exact ⟨_, path, _, rfl, hpath, hd, rfl⟩

end Sys2Proof.Machine
end

section
/-! The coefficient of a value token: dequantized, signed and clamped (43_token_decoder.md R165 to R167), then stored
(R170); O39, O40 and O41. -/

namespace Sys2Proof.Machine

/-! ## RANGE_CLAMP -/

/-- The clamp changes a coefficient exactly if it changes the number. -/
theorem clampedFlag_eq (old : Bool) (before after : BitVec 36) :
    clampedFlag old before after = (old || decide (after.toInt ≠ before.toInt)) := by
  simp only [clampedFlag, ne_eq, BitVec.toInt_inj]

theorem rangeClamp_coefv_toInt (s : State) : (rangeClamp s).x.coefv.toInt =
    min (max s.x.coefv.toInt (-((s.par.rangeLimitsAt s.csr.bd).below : Int)))
      ((s.par.rangeLimitsAt s.csr.bd).above : Int) :=
  clampTo_toInt _ _

theorem rangeClamp_clamped (s : State) : (rangeClamp s).clamped =
    (s.clamped || decide ((rangeClamp s).x.coefv.toInt ≠ s.x.coefv.toInt)) :=
  clampedFlag_eq _ _ _

/-- Settles O40: `rangeClamp_coefv_toInt` and `rangeClamp_clamped`; zero lies between the limits. -/
theorem rangeClampKeepsTheLimits : Obligations.RangeClampKeepsTheLimits := by
  unfold Obligations.RangeClampKeepsTheLimits
  intro s
  have hcoefv := rangeClamp_coefv_toInt s
  exact ⟨rangeClamp s, rfl, ⟨hcoefv, by omega, by omega⟩, rangeClamp_clamped s, rfl⟩

/-! ## DEQUANT_SIGN -/

/-- DEQUANT_SIGN with RANGE_CLAMP, on a stream that delivers the sign (R165, R166). -/
theorem execDequantSign_of_sign_clamped {s : State} {neg : Bool} {bd : Nat}
    (h : s.par.Delivers [(128#8, neg)] s.bd bd) (hrange : s.csr.rangeEn = true) :
    execDequantSign s = .next ((rangeClamp (coefReady s neg bd)).setSt .wrc) := by
  rw [execDequantSign, boolRead_of_delivers (p := probHalf) h]
  simp only [State.setX_csr, State.setBd_csr, hrange, if_true]
  rfl

/-- V is the product, halved with floor at the largest size. -/
theorem coefReady_v_toNat (s : State) (neg : Bool) (bd : Nat) : (coefReady s neg bd).x.v.toNat =
    if s.csr.tx = 3 then s.x.val.toNat * s.quantizer.toNat / 2 else s.x.val.toNat * s.quantizer.toNat :=
  dequantize_toNat _ _ _

theorem coefReady_coefv_toInt (s : State) (neg : Bool) (bd : Nat) : (coefReady s neg bd).x.coefv.toInt =
    if neg then -((coefReady s neg bd).x.v.toNat : Int) else (coefReady s neg bd).x.v.toNat :=
  applySign_toInt _ _

/-- Settles O39: `coefReady` is the state with the signed value, and RANGE_EN decides whether it is clamped. -/
theorem dequantSignIsExact : Obligations.DequantSignIsExact := by
  unfold Obligations.DequantSignIsExact
  intro s
  obtain ⟨neg, bd, -, hd⟩ := boolRead_cases 128#8 s
  have hv := coefReady_v_toNat s neg bd
  have hsigned := coefReady_coefv_toInt s neg bd
  cases hrange : s.csr.rangeEn with
  | false =>
    exact ⟨_, neg, execDequantSign_of_sign hd hrange, hd, hv, ⟨hsigned, by simp⟩, rfl⟩
  | true =>
    have hclamped := rangeClamp_coefv_toInt (coefReady s neg bd)
    have hflag := rangeClamp_clamped (coefReady s neg bd)
    rw [hclamped, hsigned] at hflag
    rw [hsigned] at hclamped
    exact ⟨_, neg, execDequantSign_of_sign_clamped hd hrange, hd, hv, ⟨hclamped, hflag⟩, rfl⟩

/-! ## WRITE_CACHE -/

/-- The state in which WRITE_CACHE has stored the coefficient and the cache entry and advanced C. -/
def coefStored (s : State) (p : Plane) : State :=
  advanceC (writeTc (s.par.energyClassAt s.x.token) ((setPos s).setMem { s.mem with
    coef := s.mem.coef.set p ((s.mem.coef.get p).write (s.scanPos s.x.c.toNat).toNat s.x.coefv) }))

theorem coefStored_cache (s : State) (p : Plane) (q : Nat) : (coefStored s p).tc.read q =
    if q = (s.scanPos s.x.c.toNat).toNat then some (s.par.energyClassAt s.x.token) else s.tc.read q :=
  Cells.read_write ..

/-- The one element of the one plane is stored. -/
theorem coefStored_coef (s : State) (p q : Plane) (a : Nat) : ((coefStored s p).mem.coef.get q).read a =
    if q = p ∧ a = (s.scanPos s.x.c.toNat).toNat then some s.x.coefv else (s.mem.coef.get q).read a := by
  change ((s.mem.coef.set p _).get q).read a = _
  rw [PerPlane.get_set]
  by_cases hq : q = p
  · subst hq
    simp [Cells.read_write]
  · simp [hq]

/-- With a legal plane WRITE_CACHE stores the coefficient; before the last position it goes on with CTX_UPDATE. -/
theorem execWriteCache_of_plane {s : State} {p : Plane} (hp : planeOf s.csr.plane = some p) :
    execWriteCache s = andThen
      (if (s.x.c + 1).toNat < s.x.maxeob.toNat then ctxUpdate (coefStored s p) else .next (coefStored s p)) fun v =>
        .next ((v.setX { v.x with dqsel := true }).setSt (if v.x.c = v.x.maxeob then .edge else .select)) := by
  rw [execWriteCache, writeCoef_of_plane (s := setPos s) hp, andThen_next]
  rfl

/-- Settles O41: the two positions of WRITE_CACHE, where CTX_UPDATE reads the cache with the entry written. -/
theorem writeCacheStoresOneCoefficient : Obligations.WriteCacheStoresOneCoefficient := by
  unfold Obligations.WriteCacheStoresOneCoefficient
  intro s p hp pos cache n0 n1
  have hcache : ∀ q, (coefStored s p).tc.read q = cache q := coefStored_cache s p
  have hcoef := coefStored_coef s p
  have hexec : exec .writeCache s = _ := execWriteCache_of_plane hp
  refine ⟨fun hlt hnone => ?_, fun ctx' hcase => ?_⟩
  · rw [hexec, if_pos hlt, ctxUpdate_of_none (hnone.imp (hcache _).trans (hcache _).trans)]
    rfl
  · obtain ⟨hlast, rfl⟩ | ⟨hlt, e0, e1, h0, h1, rfl⟩ := hcase
    · have hnot : ¬ (s.x.c + 1).toNat < s.x.maxeob.toNat := by rw [hlast]; omega
      rw [if_neg hnot, andThen_next] at hexec
      exact ⟨_, hexec, rfl, rfl, hcache, hcoef, rfl, rfl, rfl, rfl, by constructor <;> rfl⟩
    · rw [if_pos hlt, ctxUpdate_of_read ((hcache _).trans h0) ((hcache _).trans h1), andThen_next] at hexec
      exact ⟨_, hexec, rfl, rfl, hcache, hcoef, rfl, rfl, rfl, rfl, by constructor <;> rfl⟩

end Sys2Proof.Machine
end

section
/-! A block decode ends (43_token_decoder.md R176): by induction on the bound of the steps left, each step of the
sequencer advances it; O56. -/

namespace Sys2Proof.Machine

/-! ## The sequencer keeps the block -/

/-- The host's commands have no code of ST. -/
theorem isHostCommand_sequencerInstr {st : St} {tok : Token} {i : Instr} (h : sequencerInstr st tok = some i) :
    isHostCommand i = false := by
  cases st
  case catx =>
    cases tok
    case zero | one | two | three | four | eob => cases h
    all_goals
      cases h
      rfl
  case idle | done | fatal => cases h
  all_goals
    cases h
    rfl

/-- With nothing pending, a step keeps the block. -/
theorem step_sameBlock {s : State} (hin : s.inputs = []) : Ensures (step s) (SameBlock s) := by
  refine step_ensures ?_
  rw [fetch_nil hin]
  unfold fetchOp
  split
  · exact Ensures.refused _
  · split
    case h_1 | h_2 => exact Ensures.next (.refl s)
    case h_3 => exact Ensures.fault _
    all_goals
      split
      · rename_i hi
        exact exec_sameBlock (isHostCommand_sequencerInstr hi) s
      · exact Ensures.refused _

/-! ## The end -/

/-- `k` steps from `s` end the block decode: in DONE with COUNT in range, in FATAL, or refused at a counter without a
value. -/
def State.EndsAfter (s : State) (k : Nat) : Prop :=
  (∃ t, Host.Core.run Sys2Proof.core k s = .next t ∧
    (t.final ∧ t.csr.count.toNat ≤ maxEobOf s.csr.tx ∨ t.faulted)) ∨
  (Host.Core.run Sys2Proof.core k s = .refused (.precondition .p8) ∧ ¬ s.CountersFilled)

/-- What holds of the rest of a decode holds of it from the step before: the size is the same, and a counter that is
missing later was missing before. -/
theorem State.EndsAfter.succ {s t : State} {k : Nat} (hstep : step s = .next t) (hb : SameBlock s t)
    (h : t.EndsAfter k) : s.EndsAfter (k + 1) := by
  unfold State.EndsAfter at h ⊢
  rw [run_succ hstep, ← hb.around.tx]
  exact h.imp_right fun ⟨hrun, hmissing⟩ => ⟨hrun, fun hs => hmissing (hb.filled hs)⟩

/-- A block decode ends within the steps left. -/
theorem State.Decoding.endsAfter {n : Nat} {s : State} (hd : s.Decoding) (hin : s.inputs = [])
    (hn : s.stepsLeft ≤ n) : ∃ k, k ≤ n ∧ s.EndsAfter k := by
  induction n generalizing s with
  | zero => exact absurd (stepsLeft_pos hd.busy) (by omega)
  | succ n ih =>
    obtain ⟨t, hstep, hin', hless, -, -, hdec | ⟨hdone, -, hcount⟩ | ⟨hfatal, -, -⟩⟩ | ⟨hrefused, hmissing⟩ :=
      step_advances hd hin
    · obtain ⟨k, hk, hend⟩ := ih hdec hin' (by omega)
      exact ⟨k + 1, by omega, hend.succ hstep (step_sameBlock hin t hstep)⟩
    · exact ⟨1, by omega, .inl ⟨t, run_succ hstep, .inl ⟨hdone, hcount⟩⟩⟩
    · exact ⟨1, by omega, .inl ⟨t, run_succ hstep, .inr hfatal⟩⟩
    · exact ⟨1, by omega, .inr ⟨by simp [Host.Core.run, Sys2Proof.core, hrefused], hmissing⟩⟩

/-- The steps left are at most eight a position and nine more (43_token_decoder.md R176). -/
theorem State.Decoding.stepsLeft_le {s : State} (hd : s.Decoding) : s.stepsLeft ≤ 8 * maxEobOf s.csr.tx + 9 := by
  by_cases hs : s.st = .setup
  · simp [State.stepsLeft, hs, St.busy]
  · have hrank := s.st.rank_le
    obtain ⟨-, hmax⟩ := hd.sizes hs
    rw [stepsLeft_of_busy hd.busy hs, hmax]
    omega

/-- Settles O56: `State.Decoding.endsAfter` with the bound `State.Decoding.stepsLeft_le`. -/
theorem blockDecodeRunsToTheEnd : Obligations.BlockDecodeRunsToTheEnd := by
  unfold Obligations.BlockDecodeRunsToTheEnd
  exact fun s hd hin => hd.endsAfter hin (hd.stepsLeft_le.trans (Nat.le_succ _))

end Sys2Proof.Machine
end

section
/-! The edge context writer (44_edge_context_writer.md R180, R181): what it leaves in one array of flags, and O45. -/

namespace Sys2Proof.Machine

/-- The arrays of one side after the edge writer has written `n` units of plane `p` from `lo`, at the signed distance
`d` to the frame's edge. -/
def edgeWritten (f : PerPlane FlagArray) (p : Plane) (lo n : Nat) (d : Int) (flag : Bool) : PerPlane FlagArray :=
  f.set p { f.get p with cells := (f.get p).cells.writeSlice lo (edgeFlags n (clippedUnits n d) flag) }

theorem edgeWritten_len (f : PerPlane FlagArray) (p : Plane) (lo n : Nat) (d : Int) (flag : Bool) (q : Plane) :
    ((edgeWritten f p lo n d flag).get q).len = (f.get q).len :=
  FlagArray.len_set_cells f p q _

/-- A unit is in bounds exactly if it lies before the last `clippedUnits`, counted in integers as the spec does. -/
theorem lt_sub_clippedUnits_iff {lo n i : Nat} (d : Int) (hi : lo ≤ i) :
    i - lo < n - clippedUnits n d ↔ (i : Int) - lo < (n : Int) - min (n : Int) (max 0 (-d)) := by
  unfold clippedUnits
  omega

/-- The units of the slice hold the flag where they are in bounds and 0 elsewhere; every other element is as before. -/
theorem edgeWritten_read (f : PerPlane FlagArray) (p : Plane) (lo n : Nat) (d : Int) (flag : Bool) (q : Plane)
    (i : Nat) :
    ((edgeWritten f p lo n d flag).get q).cells.read i =
      if q = p ∧ lo ≤ i ∧ i < lo + n then
        some (flag && decide ((i : Int) - lo < (n : Int) - min (n : Int) (max 0 (-d))))
      else (f.get q).cells.read i := by
  rw [edgeWritten, PerPlane.get_set]
  by_cases hq : q = p
  · subst hq
    simp only [if_true, true_and, Cells.read_writeSlice, length_edgeFlags]
    split
    · rename_i hslice
      obtain ⟨hlo, hhi⟩ := hslice
      rw [getElem?_edgeFlags _ _ _ _ (by omega), Bool.and_comm, decide_eq_decide.mpr (lt_sub_clippedUnits_iff d hlo)]
    · rfl
  · simp [hq]

/-- EDGE_WRITE of a legal plane with its slices inside the arrays: both slices, then BLOCK_FINISH. -/
theorem exec_edgeWrite_of_room {s : State} {p : Plane} (hp : planeOf s.csr.plane = some p)
    (ha : s.csr.posX + s.x.nunits.toNat ≤ (s.mem.above.get p).len)
    (hl : s.csr.posY + s.x.nunits.toNat ≤ (s.mem.left.get p).len) :
    exec .edgeWrite s = .next (blockFinish ((s.setX { s.x with hasnz := hasNonzero s.x.c }).setMem { s.mem with
      above := edgeWritten s.mem.above p s.csr.posX s.x.nunits.toNat s.csr.dr (hasNonzero s.x.c)
      left := edgeWritten s.mem.left p s.csr.posY s.x.nunits.toNat s.csr.db (hasNonzero s.x.c) })) := by
  change andThen (edgeWrite s) _ = _
  rw [edgeWrite_of_room hp ha hl]
  rfl

/-- Settles O45: the two sides are `edgeWritten`, whose elements `edgeWritten_read` gives. -/
theorem edgeWriteClipsToTheFrame : Obligations.EdgeWriteClipsToTheFrame := by
  unfold Obligations.EdgeWriteClipsToTheFrame
  intro s p hp n flag ha hl
  exact ⟨_, exec_edgeWrite_of_room hp ha hl, rfl, rfl, edgeWritten_read _ _ _ _ _ _, edgeWritten_read _ _ _ _ _ _,
    fun q => ⟨edgeWritten_len _ _ _ _ _ _ q, edgeWritten_len _ _ _ _ _ _ q⟩, rfl, rfl, rfl, rfl, rfl,
    by constructor <;> rfl⟩

end Sys2Proof.Machine
end

section
/-! Non-interference of the coefficient buffers (44_edge_context_writer.md R183; 20_memory.md R60): an operation run
with other buffers has the same outcome but for the buffers. Shown for the shared operations, then for every
instruction; O51. -/

namespace Sys2Proof.Machine

/-! ## Two outcomes that agree but for the buffers -/

/-- The state with other coefficient buffers. -/
def State.withCoef (s : State) (c : PerPlane (Cells (BitVec 36))) : State :=
  { s with mem := { s.mem with coef := c } }

/-- The two outcomes are of the same kind and differ in the coefficient buffers only. -/
def AgreeButCoef (r r' : Result) : Prop :=
  match r with
  | .next t => ∃ c, r' = .next (t.withCoef c)
  | .fault e => r' = .fault e
  | .refused e => r' = .refused e

/-- The coefficient buffers do not influence the operation. -/
def CoefBlind (f : State → Result) : Prop := ∀ s c, AgreeButCoef (f s) (f (s.withCoef c))

namespace AgreeButCoef

theorem next {t : State} (c : PerPlane (Cells (BitVec 36))) : AgreeButCoef (.next t) (.next (t.withCoef c)) :=
  ⟨c, rfl⟩

theorem refused (e : Refusal) : AgreeButCoef (.refused e) (.refused e) := rfl

theorem andThen {r r' : Result} {f : State → Result} (h : AgreeButCoef r r') (hf : CoefBlind f) :
    AgreeButCoef (andThen r f) (andThen r' f) := by
  cases r with
  | next t =>
    obtain ⟨c, rfl⟩ := h
    exact hf t c
  | fault e => exact congrArg (Machine.andThen · f) h
  | refused e => exact congrArg (Machine.andThen · f) h

theorem ite {p : Prop} [Decidable p] {r r' q q' : Result} (h : AgreeButCoef r r') (k : AgreeButCoef q q') :
    AgreeButCoef (if p then r else q) (if p then r' else q') := by
  split
  · exact h
  · exact k

end AgreeButCoef

namespace State

variable (s : State) (c : PerPlane (Cells (BitVec 36)))

@[simp] theorem withCoef_st : (s.withCoef c).st = s.st := rfl
@[simp] theorem withCoef_x : (s.withCoef c).x = s.x := rfl
@[simp] theorem withCoef_tc : (s.withCoef c).tc = s.tc := rfl
@[simp] theorem withCoef_csr : (s.withCoef c).csr = s.csr := rfl
@[simp] theorem withCoef_par : (s.withCoef c).par = s.par := rfl
@[simp] theorem withCoef_bd : (s.withCoef c).bd = s.bd := rfl
@[simp] theorem withCoef_above : (s.withCoef c).mem.above = s.mem.above := rfl
@[simp] theorem withCoef_left : (s.withCoef c).mem.left = s.mem.left := rfl
@[simp] theorem withCoef_cnt : (s.withCoef c).mem.cnt = s.mem.cnt := rfl
@[simp] theorem withCoef_eobbr : (s.withCoef c).mem.eobbr = s.mem.eobbr := rfl
@[simp] theorem withCoef_cntHere (k : CntKind) : (s.withCoef c).cntHere k = s.cntHere k := rfl
@[simp] theorem withCoef_eobbrHere : (s.withCoef c).eobbrHere = s.eobbrHere := rfl
@[simp] theorem withCoef_nbPos (i : Nat) (j : Bool) : (s.withCoef c).nbPos i j = s.nbPos i j := rfl
@[simp] theorem withCoef_violatedPrecond : violatedPrecond (s.withCoef c) = violatedPrecond s := rfl

end State

@[simp] theorem latchProbs_withCoef (s : State) (c : PerPlane (Cells (BitVec 36))) :
    latchProbs (s.withCoef c) = (latchProbs s).withCoef c := rfl

/-! ## The shared operations -/

namespace CoefBlind

theorem incCnt (k : CntKind) : CoefBlind (incCnt k) := by
  intro s c
  unfold Machine.incCnt
  simp only [State.withCoef_csr, State.withCoef_cnt, State.withCoef_cntHere]
  refine .ite ?_ (.next c)
  split
  · exact .refused _
  · exact .next c

theorem incEobbr : CoefBlind incEobbr := by
  intro s c
  unfold Machine.incEobbr
  simp only [State.withCoef_csr, State.withCoef_eobbr, State.withCoef_eobbrHere]
  refine .ite ?_ (.next c)
  split
  · exact .refused _
  · exact .next c

theorem initCtx : CoefBlind initCtx := by
  intro s c
  unfold Machine.initCtx
  simp only [State.withCoef_csr, State.withCoef_x, State.withCoef_above, State.withCoef_left]
  split
  · exact .refused _
  · split
    · exact .refused _
    · split
      · exact .refused _
      · exact .next c

theorem ctxUpdate : CoefBlind ctxUpdate := by
  intro s c
  unfold Machine.ctxUpdate
  simp only [State.withCoef_tc, State.withCoef_x, State.withCoef_nbPos]
  split
  · exact .next c
  · exact .refused _

/-- The one operation that writes a buffer reads nothing of it. -/
theorem writeCoef : CoefBlind writeCoef := by
  intro s c
  unfold Machine.writeCoef
  simp only [State.withCoef_csr]
  split
  · exact .refused _
  · exact .next _

theorem edgeWrite : CoefBlind edgeWrite := by
  intro s c
  unfold Machine.edgeWrite
  simp only [State.withCoef_csr, State.withCoef_x, State.withCoef_above, State.withCoef_left]
  split
  · exact .refused _
  · exact .ite (.refused _) (.ite (.refused _) (.next c))

theorem zeroEffect : CoefBlind zeroEffect := by
  intro s c
  refine (incCnt .zero s c).andThen fun u c => .ite (.next c) ?_
  refine (ctxUpdate (zeroWritten u) c).andThen fun v c => ?_
  simp only [latchProbs_withCoef, State.withCoef_par]
  split
  · exact (incEobbr (latchProbs v) c).andThen fun _ c => .next c
  · exact .next c

/-- A reset that abandons a decode drops the same elements of the buffers, whatever they hold. -/
theorem abandon_withCoef (s : State) (c : PerPlane (Cells (BitVec 36))) :
    ∃ c', abandon (s.withCoef c) = (abandon s).withCoef c' := by
  cases hplane : planeOf s.csr.plane <;> cases hstats : s.csr.statsEn <;>
    simp only [abandon, State.withCoef_csr, hplane, hstats] <;> exact ⟨_, rfl⟩

theorem resetOp : CoefBlind fun s => .next (resetOp s) := by
  intro s c
  unfold Machine.resetOp
  by_cases hb : s.st.busy = true
  · obtain ⟨c', hc'⟩ := abandon_withCoef s c
    simp only [State.withCoef_st, hb, if_true, hc']
    exact .next c'
  · simp only [State.withCoef_st, hb]
    exact .next c

theorem startOp : CoefBlind startOp := by
  intro s c
  unfold Machine.startOp
  simp only [State.withCoef_st, State.withCoef_violatedPrecond]
  split
  case h_1 | h_2 =>
    split
    · exact .refused _
    · exact .next c
  all_goals exact .next c

/-! ## The instructions -/

theorem execEob : CoefBlind execEob := fun s c => (incCnt .eob s c).andThen fun _ c => .next c

theorem execOne : CoefBlind execOne := fun s c => (incCnt .one s c).andThen fun _ c => .next c

theorem execCat6 : CoefBlind execCat6 := by
  intro s c
  unfold Machine.execCat6
  simp only [State.withCoef_csr]
  split
  · exact .next c
  · exact .next c

theorem execBlockSetup : CoefBlind execBlockSetup := fun _ c =>
  (initCtx _ c).andThen fun _ c => .next c

theorem execEobTest : CoefBlind execEobTest := fun s c =>
  (incEobbr s c).andThen fun u c => .ite (execEob (boolRead u.x.p.eob u).2 c) (.next c)

theorem execZeroTest : CoefBlind execZeroTest := fun _ c => .ite (.next c) (.next c)

theorem execOneTest : CoefBlind execOneTest := fun s c =>
  .ite (execOne (boolRead s.x.p.one s).2 c)
    ((incCnt .more (boolRead s.x.p.one s).2 c).andThen fun _ c => .next c)

theorem execHigherToken : CoefBlind execHigherToken := by
  intro s c
  unfold Machine.execHigherToken
  simp only [State.withCoef_par, State.withCoef_x, State.withCoef_bd]
  split
  all_goals exact .next c

theorem execDequantSign : CoefBlind execDequantSign := by
  intro s c
  obtain ⟨neg, bd, -, hsign⟩ := boolRead_cases 128#8 s
  cases hrange : s.csr.rangeEn with
  | false =>
    rw [execDequantSign_of_sign hsign hrange, execDequantSign_of_sign (s := s.withCoef c) hsign hrange]
    exact .next c
  | true =>
    rw [execDequantSign_of_sign_clamped hsign hrange,
      execDequantSign_of_sign_clamped (s := s.withCoef c) hsign hrange]
    exact .next c

theorem execWriteCache : CoefBlind execWriteCache := fun s c =>
  (writeCoef (setPos s) c).andThen fun u c =>
    AgreeButCoef.andThen (.ite (ctxUpdate (advanceC (writeTc (u.par.energyClassAt u.x.token) u)) c) (.next c))
      fun _ c => .next c

theorem execCsrrd (r : CsrReg) : CoefBlind (execCsrrd r) := by
  intro s c
  cases r
  case status => exact .next c
  all_goals exact .ite (.refused _) (.next c)

theorem execCsrwr (r : CsrReg) (v : Word) : CoefBlind (execCsrwr r v) := by
  intro s c
  cases r
  case ctrl =>
    unfold Machine.execCsrwr
    dsimp only
    split
    · exact startOp s c
    · exact resetOp s c
    · exact .ite (.refused _) (.next c)
  case status | count | finfo => exact .next c
  all_goals exact .ite (.refused _) (.next c)

theorem exec (i : Instr) : CoefBlind (exec i) := by
  intro s c
  cases i with
  | start => exact startOp s c
  | srst b => exact resetOp s c
  | csrrd r => exact execCsrrd r s c
  | csrwr r v => exact execCsrwr r v s c
  | eob => exact execEob s c
  | zero | zeroAdvance => exact zeroEffect s c
  | one => exact execOne s c
  | cat6 => exact execCat6 s c
  | blockSetup => exact execBlockSetup s c
  | initCtx => exact initCtx s c
  | eobTest => exact execEobTest s c
  | zeroTest => exact execZeroTest s c
  | oneTest => exact execOneTest s c
  | higherToken => exact execHigherToken s c
  | dequantSign => exact execDequantSign s c
  | writeCache => exact execWriteCache s c
  | ctxUpdate => exact ctxUpdate s c
  | edgeWrite => exact (edgeWrite s c).andThen fun _ c => .next c
  | two | three | four | cat1 | cat2 | cat3 | cat4 | cat5 | bandCtxSelect | readCat | rangeClamp | blockFinish =>
    exact .next c

end CoefBlind

/-- Settles O51: `CoefBlind.exec`, whose `withCoef` and `AgreeButCoef` the statement writes out. -/
theorem coefficientsInfluenceNothing : Obligations.CoefficientsInfluenceNothing := by
  unfold Obligations.CoefficientsInfluenceNothing
  exact CoefBlind.exec

end Sys2Proof.Machine
end

section
/-! START (45_block_decode_and_host.md R190, R192): what it does in each state, and the state in which an accepted
one leaves TD; O17, O18 and O54. -/

namespace Sys2Proof.Machine

/-- The state in which an accepted START leaves TD. -/
def State.started (s : State) : State := (s.setClamped false).setSt .setup

section
variable {s : State}

/-- In IDLE and DONE the check of the preconditions decides. -/
theorem startOp_of_rest (hst : s.st = .idle ∨ s.st = .done) :
    (violatedPrecond s = none → startOp s = .next s.started) ∧
      ∀ q, violatedPrecond s = some q → startOp s = .refused (.precondition q) := by
  unfold startOp
  obtain h | h := hst <;> rw [h] <;> exact ⟨fun hv => by rw [hv]; rfl, fun q hv => by rw [hv]⟩

theorem startOp_of_ready {p : Plane} (hst : s.st = .idle ∨ s.st = .done) (h : s.Ready p) :
    startOp s = .next s.started :=
  (startOp_of_rest hst).1 ((violatedPrecond_eq_none_iff s).mpr ⟨p, h⟩)

theorem startOp_of_not_ready (hst : s.st = .idle ∨ s.st = .done) (h : ¬ ∃ p, s.Ready p) :
    ∃ q, startOp s = .refused (.precondition q) := by
  rw [← violatedPrecond_eq_none_iff] at h
  obtain ⟨q, hq⟩ := Option.ne_none_iff_exists'.mp h
  exact ⟨q, (startOp_of_rest hst).2 q hq⟩

theorem startOp_of_busy_or_fatal (hst : s.st.busy = true ∨ s.st = .fatal) : startOp s = .next s := by
  unfold startOp
  cases h : s.st
  case idle | done => simp [h, St.busy] at hst
  all_goals rfl

/-- BUSY alone: D3 of 92_eei_decisions.md. -/
theorem statusWord_started (s : State) : s.started.statusWord = 1 := rfl

/-- START makes the preconditions that it has checked the first state of a decode: the sizes, the position and the
cache are asked for after SETUP only. -/
theorem State.Ready.decoding_started {p : Plane} (h : s.Ready p) (hinv : s.Inv) (hup : s.resetDone = true) :
    s.started.Decoding where
  inv := (hinv.setClamped false).setSt .setup
  up := hup
  busy := rfl
  plane := ⟨p, h.p1, h.p3, h.p4, fun _ => ⟨h.p5a, h.p5l⟩⟩
  order := ⟨h.p6.inRange, h.p6.injective, h.p6.neighbours⟩
  sizes hs := absurd rfl hs
  position hs := absurd rfl hs
  cache hs := absurd rfl hs
  latched := by simp [State.started]
  token := nofun

end

/-- Settles O17: `startOp_of_ready` and `startOp_of_not_ready`. -/
theorem startRunsExactlyWhenReady : Obligations.StartRunsExactlyWhenReady := by
  unfold Obligations.StartRunsExactlyWhenReady
  exact fun s hst => ⟨fun p h => ⟨_, startOp_of_ready hst h, rfl, statusWord_started s⟩, startOp_of_not_ready hst⟩

/-- Settles O18: `startOp_of_busy_or_fatal`. -/
theorem startIsIgnoredWhileBusyOrFatal : Obligations.StartIsIgnoredWhileBusyOrFatal := by
  unfold Obligations.StartIsIgnoredWhileBusyOrFatal
  exact fun s => startOp_of_busy_or_fatal

/-- Settles O54: `State.Ready.decoding_started`; START writes no counter and no field of the block. -/
theorem startEntersADecode : Obligations.StartEntersADecode := by
  unfold Obligations.StartEntersADecode
  exact fun s p hinv hup hst h => ⟨_, startOp_of_ready hst h, h.decoding_started hinv hup, id⟩

end Sys2Proof.Machine
end

section
/-! CSRRD and CSRWR (45_block_decode_and_host.md R198, R199): the fields of the word that each register reads as, what
a register reads after a write of it or of another, and the words of CTRL; O20 and O21. -/

namespace Sys2Proof.Machine

/-! ## The word of a register -/

/-- Past its width a bit vector has zeros only: the reserved bits of a register read 0. -/
theorem extractLsb'_eq_zero_of_le {w start len : Nat} (b : BitVec w) (h : w ≤ start) :
    b.extractLsb' start len = 0 := by
  ext i hi
  have hout : b.getLsbD (start + i) = false := BitVec.getLsbD_of_ge _ _ (by omega)
  simp [hout]

/-- The mask of a register's defined bits keeps what the register stores and reads. -/
theorem setWidth_setWidth_eq_and (r k : Nat) (v : BitVec (r + k)) :
    (v.setWidth k).setWidth (r + k) = v &&& (BitVec.allOnes k).setWidth (r + k) := by
  rw [BitVec.and_setWidth_allOnes]
  exact (BitVec.setWidth_eq_append (Nat.le_add_left k r)).trans (by simp)

section
variable (s : State)

theorem csrWord_cfg_fields :
    (s.csrWord .cfg).extractLsb' 0 4 = s.csr.bd ∧ (s.csrWord .cfg).getLsbD 4 = s.csr.statsEn ∧
      (s.csrWord .cfg).getLsbD 5 = s.csr.rangeEn ∧ (s.csrWord .cfg).extractLsb' 6 26 = 0 := by
  simp [State.csrWord, Csrs.bd, Csrs.statsEn, Csrs.rangeEn, BitVec.extractLsb'_setWidth_of_le,
    extractLsb'_eq_zero_of_le]

theorem csrWord_blk0_fields :
    (s.csrWord .blk0).extractLsb' 0 2 = s.csr.tx ∧ (s.csrWord .blk0).extractLsb' 2 2 = s.csr.plane ∧
      (s.csrWord .blk0).getLsbD 4 = s.csr.ptype ∧ (s.csrWord .blk0).getLsbD 5 = s.csr.ref ∧
      (s.csrWord .blk0).extractLsb' 6 3 = s.csr.seg ∧ (s.csrWord .blk0).extractLsb' 9 4 = s.csr.scanid ∧
      (s.csrWord .blk0).extractLsb' 13 19 = 0 := by
  simp [State.csrWord, Csrs.tx, Csrs.plane, Csrs.ptype, Csrs.ref, Csrs.seg, Csrs.scanid,
    BitVec.extractLsb'_setWidth_of_le, extractLsb'_eq_zero_of_le]

theorem csrWord_count_toNat : (s.csrWord .count).toNat = s.csr.count.toNat :=
  BitVec.toNat_setWidth_of_le (by decide)

/-- FINFO is the position above the cause (10_state.md R38). -/
theorem csrWord_finfo_toNat : (s.csrWord .finfo).toNat = s.csr.fcode.toNat + 16 * s.csr.fpos.toNat := by
  rw [State.csrWord, BitVec.toNat_setWidth_of_le (by decide), BitVec.toNat_append, Nat.shiftLeft_eq, Nat.mul_comm,
    ← Nat.two_pow_add_eq_or_of_lt s.csr.fcode.isLt, Nat.add_comm]

end

/-- Settles O20: `execCsrrd_next`, and the fields of each register's word. -/
theorem csrReadReturnsTheWord : Obligations.CsrReadReturnsTheWord := by
  unfold Obligations.CsrReadReturnsTheWord
  intro s r hr
  refine ⟨s.csrWord r, execCsrrd_next hr, ?_, ?_, ?_, ?_, ?_, ?_, ?_, ?_⟩ <;> rintro rfl
  case refine_1 | refine_2 => rfl
  case refine_3 => exact csrWord_cfg_fields s
  case refine_4 => exact csrWord_blk0_fields s
  case refine_5 | refine_6 => exact ⟨rfl, rfl⟩
  case refine_7 => exact csrWord_count_toNat s
  case refine_8 => exact csrWord_finfo_toNat s

/-! ## A register after a write -/

theorem csrWord_store_same {r : CsrReg} (hr : r.rw = true) (s : State) (v : Word) :
    (s.setCsr (s.csr.store r v)).csrWord r = v &&& definedBits r := by
  cases r
  case ctrl | status | count | finfo => cases hr
  case cfg => exact setWidth_setWidth_eq_and 26 6 v
  case blk0 => exact setWidth_setWidth_eq_and 19 13 v
  case blkpos | edge => exact (BitVec.and_allOnes (x := v)).symm

theorem csrWord_store_other {r r' : CsrReg} (h : r' ≠ r) (s : State) (v : Word) :
    (s.setCsr (s.csr.store r v)).csrWord r' = s.csrWord r' := by
  cases r <;> cases r'
  case cfg.cfg | blk0.blk0 | blkpos.blkpos | edge.edge => exact absurd rfl h
  all_goals rfl

/-! ## A write of CTRL -/

/-- A word without a command is ignored, but for 0 while BUSY. -/
theorem execCsrwr_ctrl_of_none {v : Word} (hv : decodeCtrl v = none) {s : State}
    (hidle : v ≠ 0 ∨ s.st.busy = false) : exec (.csrwr .ctrl v) s = .next s := by
  have hnot : ¬ (s.st.busy = true ∧ v = 0) := by
    rintro ⟨hbusy, rfl⟩
    simp [hbusy] at hidle
  simp only [exec, execCsrwr, hv, if_neg hnot]

/-- Settles O21: a RW register stores (`execCsrwr_next`) what `csrWord_store_same` and `csrWord_store_other` read;
CTRL's word decodes to START, SRST or nothing. -/
theorem csrWriteStoresTheDefinedFields : Obligations.CsrWriteStoresTheDefinedFields := by
  unfold Obligations.CsrWriteStoresTheDefinedFields
  refine ⟨fun s r v hr hb => ?rw, fun s r v hr => ?readOnly, fun s v => ⟨?start, ?srst, fun h1 h2 h3 => ?ignored⟩⟩
  case rw =>
    exact ⟨_, execCsrwr_next hr hb v, csrWord_store_same hr s v, fun r' h => csrWord_store_other h s v⟩
  case readOnly => obtain rfl | rfl | rfl := hr <;> rfl
  case start =>
    rintro rfl
    rfl
  case srst => rintro (rfl | rfl) b <;> rfl
  case ignored => exact execCsrwr_ctrl_of_none ((decodeCtrl_none_iff v).mpr (by tauto))

end Sys2Proof.Machine
end

section
/-! The two ends of a block decode: BLOCK_SETUP and BLOCK_FINISH (45_block_decode_and_host.md R193, R195); O44 and
O46. -/

namespace Sys2Proof.Machine

/-- The state in which BLOCK_SETUP reads the two slices: the sizes are set, C, DQSEL and CLAMPED cleared, the cache
empty. -/
def blockPrepared (s : State) : State :=
  ((s.setX { s.x with
    nunits := BitVec.ofNat 4 (unitsOf s.csr.tx)
    maxeob := BitVec.ofNat 11 (maxEobOf s.csr.tx)
    c := 0
    dqsel := false }).setClamped false).setTc []

/-- NUNITS holds the units of every level. -/
theorem blockPrepared_nunits (s : State) : (blockPrepared s).x.nunits.toNat = unitsOf s.csr.tx := by
  have hle := unitsOf_le s.csr.tx
  exact (BitVec.toNat_ofNat ..).trans (Nat.mod_eq_of_lt (by omega))

/-- MAXEOB holds the positions of every level. -/
theorem blockPrepared_maxeob (s : State) : (blockPrepared s).x.maxeob.toNat = maxEobOf s.csr.tx := by
  have hle := maxEobOf_le s.csr.tx
  exact (BitVec.toNat_ofNat ..).trans (Nat.mod_eq_of_lt (by omega))

/-- On two slices of as many flags as the block has units, BLOCK_SETUP goes on with INIT_CTX of them. -/
theorem exec_blockSetup_of_slices {s : State} {p : Plane} {a l : List Bool} (hp : planeOf s.csr.plane = some p)
    (ha : (s.mem.above.get p).cells.readSlice s.csr.posX (unitsOf s.csr.tx) = some a)
    (hl : (s.mem.left.get p).cells.readSlice s.csr.posY (unitsOf s.csr.tx) = some l) :
    exec .blockSetup s = .next (((blockPrepared s).setX { (blockPrepared s).x with
      ctx := s.par.initCtxAt s.csr.tx a l }).setSt .select) := by
  rw [← blockPrepared_nunits] at ha hl
  change andThen (initCtx (blockPrepared s)) _ = _
  rw [initCtx_of_slices (s := blockPrepared s) hp ha hl]
  rfl

/-- Settles O44: the lists are the slices (`Cells.readSlice_eq_some_iff`) that `exec_blockSetup_of_slices` reads. -/
theorem blockSetupPreparesTheBlock : Obligations.BlockSetupPreparesTheBlock := by
  unfold Obligations.BlockSetupPreparesTheBlock
  intro s p a l hp halen hllen ha hl
  have habove := Cells.readSlice_eq_some_iff.mpr ⟨halen, halen ▸ ha⟩
  have hleft := Cells.readSlice_eq_some_iff.mpr ⟨hllen, hllen ▸ hl⟩
  exact ⟨_, exec_blockSetup_of_slices hp habove hleft, blockPrepared_nunits s, blockPrepared_maxeob s,
    fun q => rfl, rfl⟩

/-- Settles O46: BLOCK_FINISH is the two updates. -/
theorem blockFinishReturnsTheCount : Obligations.BlockFinishReturnsTheCount := by
  unfold Obligations.BlockFinishReturnsTheCount
  exact fun s => rfl

end Sys2Proof.Machine
end

section
/-! P8 of 45_block_decode_and_host.md R192: with statistics enabled, each operation that reaches a counter without a
value is refused; O59. -/

namespace Sys2Proof.Machine

theorem andThen_refused (e : Refusal) (f : State → Result) : andThen (.refused e) f = .refused e := rfl

section
variable {s : State} (hen : s.csr.statsEn = true)
include hen

/-! ## The two kinds of counter -/

theorem incCnt_of_missing {k : CntKind} (h : s.mem.cnt.read (s.cntHere k) = none) :
    incCnt k s = .refused (.precondition .p8) := by
  simp [incCnt, hen, h]

theorem incEobbr_of_missing (h : s.mem.eobbr.read s.eobbrHere = none) :
    incEobbr s = .refused (.precondition .p8) := by
  simp [incEobbr, hen, h]

theorem countEntered_of_missing (hpol : s.par.eobbrPolicy = .perPosition)
    (h : s.mem.eobbr.read s.eobbrHere = none) : countEntered s = .refused (.precondition .p8) := by
  rw [countEntered, hpol]
  exact incEobbr_of_missing hen h

/-! ## The operations -/

theorem execEob_of_missing (h : s.mem.cnt.read (s.cntHere .eob) = none) :
    execEob s = .refused (.precondition .p8) := by
  rw [execEob, incCnt_of_missing hen h, andThen_refused]

theorem execOne_of_missing (h : s.mem.cnt.read (s.cntHere .one) = none) :
    execOne s = .refused (.precondition .p8) := by
  rw [execOne, incCnt_of_missing hen h, andThen_refused]

theorem zeroEffect_of_missing (h : s.mem.cnt.read (s.cntHere .zero) = none) :
    zeroEffect s = .refused (.precondition .p8) := by
  rw [zeroEffect, incCnt_of_missing hen h, andThen_refused]

theorem execEobTest_of_missing (h : s.mem.eobbr.read s.eobbrHere = none) :
    execEobTest s = .refused (.precondition .p8) := by
  rw [execEobTest, incEobbr_of_missing hen h, andThen_refused]

/-- On bit 0 the token EOB is counted after the branch. -/
theorem execEobTest_of_missing_eob {bd : Nat} (hbranch : ∃ n, s.mem.eobbr.read s.eobbrHere = some n)
    (h : s.mem.cnt.read (s.cntHere .eob) = none) (hd : s.par.Delivers [(s.x.p.eob, false)] s.bd bd) :
    execEobTest s = .refused (.precondition .p8) := by
  obtain ⟨m, -, hexec⟩ := execEobTest_of_delivers hd fun _ => hbranch
  rw [hexec, if_pos rfl]
  exact execEob_of_missing (s := (s.setMem { s.mem with eobbr := m }).setBd bd) hen h

theorem execOneTest_of_missing_one {bd : Nat} (h : s.mem.cnt.read (s.cntHere .one) = none)
    (hd : s.par.Delivers [(s.x.p.one, false)] s.bd bd) : execOneTest s = .refused (.precondition .p8) := by
  rw [execOneTest_of_delivers hd, if_pos rfl]
  exact execOne_of_missing (s := s.setBd bd) hen h

theorem execOneTest_of_missing_more {bd : Nat} (h : s.mem.cnt.read (s.cntHere .more) = none)
    (hd : s.par.Delivers [(s.x.p.one, true)] s.bd bd) : execOneTest s = .refused (.precondition .p8) := by
  rw [execOneTest_of_delivers hd, if_neg nofun, incCnt_of_missing (s := s.setBd bd) hen h, andThen_refused]

end

/-- Under PER_POSITION a ZERO counted in `u` is refused at the branch counter of the band and context it enters. -/
theorem zeroEffect_of_missing_entered {s u : State} {e0 e1 : BitVec 3} (hu : incCnt .zero s = .next u)
    (hen : u.csr.statsEn = true) (hpol : u.par.eobbrPolicy = .perPosition) (hc : u.x.c + 1 ≠ u.x.maxeob)
    (h0 : (zeroWritten u).tc.read (u.nbPos (u.x.c + 1).toNat false).toNat = some e0)
    (h1 : (zeroWritten u).tc.read (u.nbPos (u.x.c + 1).toNat true).toNat = some e1)
    (h : u.mem.eobbr.read (zeroEntered u (u.par.ctxForAt e0 e1)).eobbrHere = none) :
    zeroEffect s = .refused (.precondition .p8) := by
  rw [zeroEffect_before hu hc, ctxUpdate_of_read (s := zeroWritten u) h0 h1, andThen_next]
  change andThen (countEntered (zeroEntered u (u.par.ctxForAt e0 e1))) _ = _
  rw [countEntered_of_missing (s := zeroEntered u (u.par.ctxForAt e0 e1)) hen hpol h, andThen_refused]

/-- Settles O59: the refusal of each operation; ZERO enters a position whose cache has the entry 0 written. -/
theorem counterWithoutValueIsRefused : Obligations.CounterWithoutValueIsRefused := by
  unfold Obligations.CounterWithoutValueIsRefused
  intro s hen cnt eobbr
  refine ⟨execEob_of_missing hen, fun h => ⟨zeroEffect_of_missing hen h, zeroEffect_of_missing hen h⟩,
    execOne_of_missing hen, execEobTest_of_missing hen, fun n bd' hn => execEobTest_of_missing_eob hen ⟨n, hn⟩,
    fun bd' => execOneTest_of_missing_one hen, fun bd' => execOneTest_of_missing_more hen, ?_⟩
  intro i n e0 e1 hi hpol hc hn cache h0 h1 h
  have hinc := incCnt_of_read (k := .zero) hen hn
  rw [exec_zero_eq hi]
  exact zeroEffect_of_missing_entered hinc hen hpol hc ((Cells.read_write ..).trans h0)
    ((Cells.read_write ..).trans h1) h

end Sys2Proof.Machine
end

section
/-! FATAL: how CATEGORY6 enters it (60_exceptions.md R210, R214), and that only a reset leads out of it (R215, R216);
O33 and O50. -/

namespace Sys2Proof.Machine

/-! ## The fatal entry -/

theorem cat6Bits_eq_none {bd : BitVec 4} (h8 : bd ≠ 8) (h10 : bd ≠ 10) (h12 : bd ≠ 12) : cat6Bits bd = none := by
  rw [cat6Bits, if_neg h8, if_neg h10, if_neg h12]

theorem execCat6_of_noWidth {s : State} (h : cat6Bits s.csr.bd = none) :
    execCat6 s = .next (raiseFatal cat6BitDepth s) := by
  rw [execCat6, h]

theorem statusWord_of_fatal {s : State} (hst : s.st = .fatal) :
    s.statusWord.getLsbD 2 = true ∧ s.statusWord.getLsbD 0 = false ∧ s.statusWord.getLsbD 1 = false := by
  obtain ⟨hbusy, hdone, hfatal, -⟩ := statusWord_bits s
  rw [hbusy, hdone, hfatal, hst]
  exact ⟨rfl, rfl, rfl⟩

/-- Settles O33: a bit depth without a width takes the fatal entry. -/
theorem category6BitDepthIsFatal : Obligations.Category6BitDepthIsFatal := by
  unfold Obligations.Category6BitDepthIsFatal
  exact fun s h8 h10 h12 => ⟨_, execCat6_of_noWidth (cat6Bits_eq_none h8 h10 h12), rfl, statusWord_of_fatal rfl⟩

/-! ## The way out -/

/-- `t` is still in FATAL, with the FINFO of `s`, unless a reset has led to IDLE; `reset` says that one was asked for. -/
def State.FatalUnless (s : State) (reset : Prop) (t : State) : Prop :=
  (t.st = .fatal ∧ t.csr.fcode = s.csr.fcode ∧ t.csr.fpos = s.csr.fpos) ∨ (t.st = .idle ∧ reset)

/-- The inputs that ask for a reset: `rst`, and SRST in either form of a write of CTRL. -/
def Input.AsksReset (o : ByteOrder) (inp : Input) : Prop :=
  inp = .rst ∨ (∃ v : Word, (v = 2 ∨ v = 3) ∧ inp = .bus true 4 0 v) ∨
    ∃ b0 b1 b2 b3, inp = .busLanes 0 b0 b1 b2 b3 ∧ (o.word b0 b1 b2 b3 = 2 ∨ o.word b0 b1 b2 b3 = 3)

theorem Work.Ensures.mono {w : Work} {P Q : State → Prop} (h : w.Ensures P) (hPQ : ∀ t, P t → Q t) : w.Ensures Q := by
  cases w with
  | run i s => exact Machine.Ensures.mono h hPQ
  | settle r => exact Machine.Ensures.mono h hPQ

theorem State.FatalUnless.mono {s t : State} {p q : Prop} (h : s.FatalUnless p t) (hpq : p → q) : s.FatalUnless q t :=
  h.imp_right (And.imp_right hpq)

theorem eq_zero_of_csrAt_ctrl {off : Nat} (h : csrAt off = some .ctrl) : off = 0 := by
  by_contra h0
  rw [csrAt, if_neg h0] at h
  split_ifs at h <;> cases h

/-- What an access of the CSR block decodes to: a read, a write of another register than CTRL, or a
write of CTRL, whose word may be a command (R91). -/
theorem decode_bus_cases {wr : Bool} {size off : Nat} {data : Word} {i : Instr}
    (h : decode (.bus wr size off data) = .ok i) :
    (∃ r, i = .csrrd r) ∨ (∃ r, r ≠ .ctrl ∧ i = .csrwr r data) ∨
      ((wr = true ∧ size = 4 ∧ off = 0) ∧ i = (decodeCtrl data).getD (.csrwr .ctrl data)) := by
  rw [decode, decodeBus] at h
  split at h
  · cases h
  · rename_i hsize
    split at h
    · cases h
    · rename_i r hr
      cases wr
      case false =>
        cases h
        exact .inl ⟨r, rfl⟩
      case true =>
        cases r
        case ctrl =>
          cases h
          exact .inr (.inr ⟨⟨rfl, not_not.mp hsize, eq_zero_of_csrAt_ctrl hr⟩, rfl⟩)
        all_goals
          cases h
          exact .inr (.inl ⟨_, by nofun, rfl⟩)

section
variable {s : State} (hst : s.st = .fatal)
include hst

theorem execCsrrd_fatalUnless (r : CsrReg) (reset : Prop) : Ensures (execCsrrd r s) (s.FatalUnless reset) := by
  rw [execCsrrd_next (.inl (by rw [hst]; rfl))]
  exact .next (.inl ⟨hst, rfl, rfl⟩)

/-- FINFO is read-only to the host (45_block_decode_and_host.md R199). -/
theorem execCsrwr_fatalUnless {r : CsrReg} (hr : r ≠ .ctrl) (v : Word) (reset : Prop) :
    Ensures (execCsrwr r v s) (s.FatalUnless reset) := by
  cases r
  case ctrl => exact absurd rfl hr
  case status | count | finfo => exact .next (.inl ⟨hst, rfl, rfl⟩)
  all_goals exact .ite (.refused _) (.next (.inl ⟨hst, rfl, rfl⟩))

/-- Of the words written to CTRL, SRST's alone have an effect: START is ignored (R216), as are the others. -/
theorem exec_ctrl_fatalUnless (v : Word) :
    Ensures (exec ((decodeCtrl v).getD (.csrwr .ctrl v)) s) (s.FatalUnless (v = 2 ∨ v = 3)) := by
  have hstay : Ensures (.next s) (s.FatalUnless (v = 2 ∨ v = 3)) := .next (.inl ⟨hst, rfl, rfl⟩)
  by_cases hsrst : v = 2 ∨ v = 3
  · obtain ⟨b, hb⟩ := (decodeCtrl_srst_iff v).mpr hsrst
    rw [hb]
    exact .next (.inr ⟨(resetOp_control s).1, hsrst⟩)
  · by_cases hstart : v = 1
    · rw [(decodeCtrl_start_iff v).mpr hstart]
      change Ensures (startOp s) _
      rwa [startOp_of_busy_or_fatal (.inr hst)]
    · have hnone : decodeCtrl v = none := (decodeCtrl_none_iff v).mpr (not_or.mpr ⟨hstart, hsrst⟩)
      rw [hnone, Option.getD_none]
      rwa [execCsrwr_ctrl_of_none hnone (.inr (by rw [hst]; rfl))]

theorem fetchBus_fatalUnless (wr : Bool) (size off : Nat) (data : Word) :
    (fetchBus wr size off data s).Ensures
      (s.FatalUnless ((wr = true ∧ size = 4 ∧ off = 0) ∧ (data = 2 ∨ data = 3))) := by
  unfold fetchBus
  split
  · rename_i i hdec
    obtain ⟨r, rfl⟩ | ⟨r, hr, rfl⟩ | ⟨hacc, rfl⟩ := decode_bus_cases hdec
    · exact execCsrrd_fatalUnless hst r _
    · exact execCsrwr_fatalUnless hst hr data _
    · exact (exec_ctrl_fatalUnless hst data).mono fun _ h => h.mono fun hdata => ⟨hacc, hdata⟩
  · exact Ensures.refused _

/-- In FATAL the sequencer answers no next state (R214). -/
theorem fetchOp_of_fatal_ensures (P : State → Prop) : (fetchOp s).Ensures P := by
  cases hup : s.resetDone
  case false =>
    rw [fetchOp, hup]
    exact Ensures.refused _
  case true =>
    rw [fetchOp_of_fatal hup hst]
    exact Ensures.fault _

theorem fetchInput_fatalUnless {inp : Input} (hop : ∀ n w, inp ≠ .opWord n w) :
    (fetchInput inp s).Ensures (s.FatalUnless (inp.AsksReset s.par.csrByteOrder)) := by
  cases inp with
  | tick => exact fetchOp_of_fatal_ensures hst _
  | rst => exact Ensures.next (.inr ⟨(resetOp_control s).1, .inl rfl⟩)
  | bus wr size off data =>
    refine ((fetchBus_fatalUnless hst wr size off data).mono fun _ h => h.mono ?_).afterReset
    rintro ⟨⟨rfl, rfl, rfl⟩, hdata⟩
    exact .inr (.inl ⟨data, hdata, rfl⟩)
  | busLanes off b0 b1 b2 b3 =>
    refine ((fetchBus_fatalUnless hst true 4 off _).mono fun _ h => h.mono ?_).afterReset
    rintro ⟨⟨-, -, rfl⟩, hdata⟩
    exact .inr (.inr ⟨b0, b1, b2, b3, rfl, hdata⟩)
  | busLanesRead off =>
    refine ((fetchBus_fatalUnless hst false 4 off 0).mono fun _ h => h.mono ?_).afterReset
    rintro ⟨⟨hwr, -, -⟩, -⟩
    cases hwr
  | storeWrite | storeRead => exact (hostElement_ensures (.next (.inl ⟨hst, rfl, rfl⟩))).afterReset
  | storeFill | supplyArray | loadTables | positionStream =>
    exact (hostAction_ensures (.next (.inl ⟨hst, rfl, rfl⟩))).afterReset
  | opWord nbits w => exact absurd rfl (hop nbits w)

theorem step_fatalUnless (hop : ∀ n w rest, s.inputs ≠ .opWord n w :: rest) : Ensures (step s)
    (s.FatalUnless (∃ inp rest, s.inputs = inp :: rest ∧ inp.AsksReset s.par.csrByteOrder)) := by
  refine step_ensures ?_
  cases hin : s.inputs with
  | nil =>
    rw [fetch_nil hin]
    exact fetchOp_of_fatal_ensures hst _
  | cons inp rest =>
    rw [fetch_cons hin]
    have hinp : ∀ n w, inp ≠ .opWord n w := fun n w h => hop n w rest (h ▸ hin)
    exact (fetchInput_fatalUnless (s := s.setInputs rest) hst hinp).mono fun _ h =>
      h.mono fun hasks => ⟨inp, rest, rfl, hasks⟩

end

/-- Settles O50: `step_fatalUnless`, with the three inputs that ask for a reset written out. -/
theorem onlyResetLeavesFatal : Obligations.OnlyResetLeavesFatal := by
  unfold Obligations.OnlyResetLeavesFatal
  intro s t hst hstep hop
  refine (step_fatalUnless hst hop t hstep).mono ?_
  rintro ⟨inp, rest, hin, rfl | ⟨v, hv, rfl⟩ | ⟨b0, b1, b2, b3, rfl, hv⟩⟩
  · exact ⟨rest, .inl hin⟩
  · exact ⟨rest, .inr (.inl ⟨v, hv, hin⟩)⟩
  · exact ⟨rest, .inr (.inr ⟨b0, b1, b2, b3, hin, hv⟩)⟩

end Sys2Proof.Machine
end

section
/-! Reset (70_reset_and_hazards.md R240 to R243): the control state that it writes, what it keeps, the elements that an
abandoned decode drops, and what happens before the first one; O13, O14, O15, O16 and O52. -/

namespace Sys2Proof.Machine

/-! ## The control state -/

/-- With the control state of R241 every word of the CSR block reads 0. -/
theorem csrWord_eq_zero {s : State} (hst : s.st = .idle) (hclamped : s.clamped = false) (hcsr : s.csr = .zero)
    (r : CsrReg) : s.csrWord r = 0 := by
  cases r
  case ctrl => rfl
  case status => rw [State.csrWord, State.statusWord, hst, hclamped]; rfl
  all_goals rw [State.csrWord, hcsr]; rfl

/-- Settles O14: the words by `csrWord_eq_zero`; the fields are slices of a CSR block of zeros. -/
theorem controlStateAfterReset : Obligations.ControlStateAfterReset := by
  unfold Obligations.ControlStateAfterReset
  refine ⟨rfl, rfl, csrWord_eq_zero rfl rfl rfl, fun s => rfl, ?_⟩
  decide

/-- Settles O52: nothing holds a value at reset, and CTX and BAND are 0. -/
theorem resetSatisfiesTheInvariant : Obligations.ResetSatisfiesTheInvariant := by
  unfold Obligations.ResetSatisfiesTheInvariant
  exact { mem := rfl, tc := rfl, ctx := by decide, band := by decide }

/-! ## The two sources of a reset -/

section
variable {s : State} {rest : List Input}

theorem step_of_rst (hin : s.inputs = .rst :: rest) : step s = .next (resetOp (s.setInputs rest)) :=
  step_of_settle (fetch_cons hin)

theorem step_of_srst_write {v : Word} (hup : s.resetDone = true) (hin : s.inputs = .bus true 4 0x00 v :: rest)
    (hv : v = 2 ∨ v = 3) : step s = .next (resetOp (s.setInputs rest)) := by
  obtain ⟨b, hb⟩ := (decodeCtrl_srst_iff v).mpr hv
  have hdec : decode (.bus true 4 0x00 v) = .ok (.srst b) := by rw [decode_bus_ctrl, hb, Option.getD_some]
  exact step_of_access hup hin rfl hdec

end

/-- Settles O15: both sources run `resetOp`, whose control state is that of `resetOp_control`. -/
theorem resetOperationWritesTheControlState : Obligations.ResetOperationWritesTheControlState := by
  unfold Obligations.ResetOperationWritesTheControlState
  intro s
  obtain ⟨hst, hclamped, hcsr, -⟩ := resetOp_control s
  refine ⟨resetOp s, fun b => rfl, ?rst, ?srst, hst, hclamped, csrWord_eq_zero hst hclamped hcsr .status, ?csrs⟩
  case rst =>
    rintro u rest hin rfl
    exact step_of_rst hin
  case srst =>
    rintro u v rest hup hin rfl hv
    exact step_of_srst_write hup hin hv
  case csrs =>
    rw [hcsr]
    exact ⟨rfl, rfl, rfl, rfl, rfl, rfl, rfl⟩

/-! ## What an abandoned decode drops (U7) -/

theorem Cells.read_ite_forget {α : Type} (c : Prop) [Decidable c] (m : Cells α) (lo n i : Nat) :
    (if c then m.forget lo n else m).read i = if c ∧ lo ≤ i ∧ i < lo + n then none else m.read i := by
  by_cases hc : c
  · simp only [hc, if_true, true_and, Cells.read_forget]
  · simp only [hc, if_false, false_and]

/-- PLANE = 3 names no buffer and no array. -/
theorem abandon_of_noPlane {s : State} (hp : planeOf s.csr.plane = none) :
    (abandon s).mem.coef = s.mem.coef ∧ (abandon s).mem.above = s.mem.above ∧
      (abandon s).mem.left = s.mem.left := by
  rw [abandon, hp]
  cases s.csr.statsEn <;> exact ⟨rfl, rfl, rfl⟩

theorem abandon_of_plane {s : State} {p : Plane} (hp : planeOf s.csr.plane = some p) :
    (abandon s).mem.coef = s.mem.coef.set p ((s.mem.coef.get p).forget 0 (maxEobOf s.csr.tx)) ∧
      (abandon s).mem.above = s.mem.above.set p { s.mem.above.get p with
        cells := (s.mem.above.get p).cells.forget s.csr.posX (unitsOf s.csr.tx) } ∧
      (abandon s).mem.left = s.mem.left.set p { s.mem.left.get p with
        cells := (s.mem.left.get p).cells.forget s.csr.posY (unitsOf s.csr.tx) } := by
  rw [abandon, hp]
  cases s.csr.statsEn <;> exact ⟨rfl, rfl, rfl⟩

section
variable (s : State)

/-- The coefficient buffer and the two slices are those of the block's plane. -/
theorem abandon_planes (q : Plane) :
    (abandon s).mem.coef.get q =
        (if planeOf s.csr.plane = some q then (s.mem.coef.get q).forget 0 (maxEobOf s.csr.tx)
          else s.mem.coef.get q) ∧
      ((abandon s).mem.above.get q).cells =
        (if planeOf s.csr.plane = some q then
          (s.mem.above.get q).cells.forget s.csr.posX (unitsOf s.csr.tx) else (s.mem.above.get q).cells) ∧
      ((abandon s).mem.left.get q).cells =
        (if planeOf s.csr.plane = some q then
          (s.mem.left.get q).cells.forget s.csr.posY (unitsOf s.csr.tx) else (s.mem.left.get q).cells) ∧
      ((abandon s).mem.above.get q).len = (s.mem.above.get q).len ∧
      ((abandon s).mem.left.get q).len = (s.mem.left.get q).len := by
  cases hp : planeOf s.csr.plane with
  | none =>
    obtain ⟨hcoef, habove, hleft⟩ := abandon_of_noPlane hp
    simp [hcoef, habove, hleft]
  | some p =>
    obtain ⟨hcoef, habove, hleft⟩ := abandon_of_plane hp
    rw [hcoef, habove, hleft]
    by_cases hq : q = p
    · subst hq
      simp
    · simp [PerPlane.get_set_other _ _ _ _ hq, Ne.symm hq]

theorem abandon_counters :
    (abandon s).mem.cnt =
        (if s.csr.statsEn = true then s.mem.cnt.forget (s.cntPrefixHere * 144) 144 else s.mem.cnt) ∧
      (abandon s).mem.eobbr =
        (if s.csr.statsEn = true then s.mem.eobbr.forget (s.cntPrefixHere * 36) 36 else s.mem.eobbr) := by
  unfold abandon
  cases planeOf s.csr.plane <;> cases s.csr.statsEn <;> exact ⟨rfl, rfl⟩

end

theorem resetOp_mem_of_busy {s : State} (hb : s.st.busy = true) : (resetOp s).mem = (abandon s).mem := by
  rw [resetOp, if_pos hb]
  rfl

/-- Settles O16: `resetOp_frame` for what stays, `abandon_planes` and `abandon_counters` for what is dropped. -/
theorem resetKeepsWhatItDoesNotWrite : Obligations.ResetKeepsWhatItDoesNotWrite := by
  unfold Obligations.ResetKeepsWhatItDoesNotWrite
  intro s b
  obtain ⟨hx, htc, htab, hpar, hrdata, helem, hinputs, hidle⟩ := resetOp_frame s
  refine ⟨resetOp s, rfl, hx, htc, htab, hpar, hrdata, helem, hinputs, ?idle, fun hb q => ?planes,
    fun hb i => ?counters⟩
  case idle =>
    intro hb
    obtain ⟨hmem, hbd, -⟩ := hidle hb
    exact ⟨hmem, hbd⟩
  case planes =>
    obtain ⟨hcoef, habove, hleft, halen, hllen⟩ := abandon_planes s q
    rw [resetOp_mem_of_busy hb, hcoef, habove, hleft]
    refine ⟨fun i => ?_, Cells.read_ite_forget _ _ _ _, Cells.read_ite_forget _ _ _ _, halen, hllen⟩
    simp [Cells.read_ite_forget]
  case counters =>
    obtain ⟨hcnt, heobbr⟩ := abandon_counters s
    rw [resetOp_mem_of_busy hb, hcnt, heobbr, Nat.succ_mul, Nat.succ_mul]
    exact ⟨Cells.read_ite_forget _ _ _ _ _, Cells.read_ite_forget _ _ _ _ _⟩

/-! ## Before the first reset (R243; U8) -/

section
variable {s : State} (hup : s.resetDone = false)
include hup

theorem fetchOp_beforeReset : fetchOp s = .settle (.refused .beforeReset) := by
  rw [fetchOp, hup]
  rfl

/-- Each action but `rst` asks whether a reset has been taken. -/
theorem fetchInput_beforeReset {inp : Input} (hinp : inp ≠ .rst) :
    fetchInput inp s = .settle (.refused .beforeReset) := by
  have hdown : ¬ s.resetDone = true := by rw [hup]; exact Bool.false_ne_true
  cases inp
  case rst => exact absurd rfl hinp
  case tick => exact fetchOp_beforeReset hup
  all_goals exact if_neg hdown

end

/-- Settles O13: `fetchOp_beforeReset` and `fetchInput_beforeReset`; `rst` runs `resetOp`. -/
theorem nothingBeforeTheFirstReset : Obligations.NothingBeforeTheFirstReset := by
  unfold Obligations.NothingBeforeTheFirstReset
  intro s hup
  refine ⟨fun hin => ?_, fun inp rest hin hinp => ?_, fun rest hin => ?_⟩
  · exact step_of_settle ((fetch_nil hin).trans (fetchOp_beforeReset hup))
  · exact step_of_settle ((fetch_cons hin).trans (fetchInput_beforeReset (s := s.setInputs rest) hup hinp))
  · obtain ⟨hst, -, -, hdone⟩ := resetOp_control (s.setInputs rest)
    exact ⟨_, step_of_rst hin, hdone, hst⟩

end Sys2Proof.Machine
end

section
/-! The host while BUSY (70_reset_and_hazards.md R247; U2): the accesses that are refused; O23. -/

namespace Sys2Proof.Machine

section
variable {s : State} (hb : s.st.busy = true)
include hb

theorem execCsrwr_busy {r : CsrReg} (hr : r.rw = true) (v : Word) :
    exec (.csrwr r v) s = .refused .hostWhileBusy := by
  cases r
  case ctrl | status | count | finfo => cases hr
  all_goals exact if_pos hb

theorem execCsrwr_ctrl_zero_busy : exec (.csrwr .ctrl 0) s = .refused .hostWhileBusy := if_pos ⟨hb, rfl⟩

theorem hostAction_busy (r : Result) : hostAction s r = .settle (.refused .hostWhileBusy) := if_pos hb

/-- An input that is made as an action of the host on anything but the CSR block is refused. -/
theorem step_of_hostAction_busy {inp : Input} {rest : List Input} {r : Result} (hup : s.resetDone = true)
    (hin : s.inputs = inp :: rest)
    (hinp : fetchInput inp (s.setInputs rest) = if s.resetDone then hostAction (s.setInputs rest) r
      else .settle (.refused .beforeReset)) : step s = .refused .hostWhileBusy := by
  refine step_of_settle ?_
  rw [fetch_cons hin, hinp, if_pos hup]
  exact hostAction_busy (s := s.setInputs rest) hb r

end

/-- Settles O23: `execCsrrd_busy` and `execCsrwr_busy` for the CSR block; an access of a store is an action of the
host, which `step_of_hostAction_busy` refuses. -/
theorem hostAccessWhileBusyIsRefused : Obligations.HostAccessWhileBusyIsRefused := by
  unfold Obligations.HostAccessWhileBusyIsRefused
  refine ⟨fun s r hb hr => execCsrrd_busy hb hr, fun s hb => execCsrwr_ctrl_zero_busy hb,
    fun s r v hb hr => execCsrwr_busy hb hr v, fun s inp rest hup hb hin hinp => ?_⟩
  obtain ⟨sp, i, v, rfl⟩ | ⟨sp, i, rfl⟩ | ⟨sp, v, rfl⟩ | ⟨d, p, n, rfl⟩ | ⟨tab, rfl⟩ | ⟨bd, rfl⟩ := hinp <;>
    exact step_of_hostAction_busy hb hup hin rfl

end Sys2Proof.Machine
end
